-- ==== Sys2Proof/Word.lean ====
section
/-! DEFINITION. The word types of the engine: the byte of the byte view (20_memory.md R57), the 16-bit cell
(00_scope.md R9, R11) and the 15-bit arena address (10_state.md R22). -/

namespace Sys2Proof

/-- A byte of a channel, of a block file or of the arena's byte view (20_memory.md R57). -/
abbrev Byte := BitVec 8

/-- A cell: an unsigned 16-bit value (00_scope.md R11). -/
abbrev Word := BitVec 16

/-- An arena address, a value in `[0, 32767]`: what `mask` leaves (00_scope.md R13). Adding to one wraps modulo
32768, as every address does (20_memory.md R50). -/
abbrev Addr := BitVec 15

end Sys2Proof
end

