-- ==== Sys2Proof/Config.lean ====
section
/-! DEFINITION. The implementation parameters of 00_scope.md R9 as named constants, and the free values: what the
spec leaves to the host and gives no value (92_eei_decisions.md, open parameters `WriteOutcome` and `ShortReadBytes`).
A free value is an opaque constant applied to the counter `State.draws`: nothing can evaluate it, so a statement that
holds of the model holds whatever the host answers. -/

namespace Sys2Proof.Config

/-- `CORESZ`: the arena's size in cells (R9). -/
@[simp] abbrev coreCells : Nat := 32768

/-- `ARENA_BYTES`: the arena's byte extent (R9). -/
@[simp] abbrev arenaBytes : Nat := 65536

/-- `STROFF`: the first cell of the string store (R9). -/
@[simp] abbrev strOff : Word := 16384#16

/-- `DSTK_LO`: the value of `S` when nothing lies beneath `f` (R9). -/
@[simp] abbrev dstkLo : Nat := 31744

/-- `DSTK_TOP`: the highest cell `S` may address (R9). -/
@[simp] abbrev dstkTop : Nat := 32255

/-- `RSTK_LO`: the value of `RSP` when the return stack is empty (R9). -/
@[simp] abbrev rstkLo : Nat := 32256

/-- `RSTK_TOP`: the highest cell `RSP` may address (R9). -/
@[simp] abbrev rstkTop : Nat := 32767

/-- `NAME_MAX`: the longest token, in characters (R9, R10). -/
@[simp] abbrev nameMax : Nat := 31

/-- `BLOCK_BYTES`: bytes per block (R9). -/
@[simp] abbrev blockBytes : Nat := 1024

/-- `NUM_OPS`: opcodes 0 to 28 are defined (R9). -/
@[simp] abbrev numOps : Nat := 29

/-- `SENT`: the address of the sentinel entry (R9). -/
@[simp] abbrev sent : Addr := 32#15

/-- `BOOT_ENTRY`: the value `run` loads into `I` (R9). -/
@[simp] abbrev bootEntry : Addr := 37#15

/-- `LIT_XT`: the execution token compiled before an inline literal (R9). -/
@[simp] abbrev litXt : Word := 2#16

/-- `TOKBUF`: the token buffer (R9). -/
@[simp] abbrev tokBuf : Addr := 16384#15

/-- The status cell of a failed block request (46_block.md R127). -/
@[simp] abbrev blockError : Word := 0xFFFF#16

end Sys2Proof.Config

namespace Sys2Proof

/-- What a failed block write leaves under the file's name: nothing, the old contents, or the first `n` bytes of the
data (46_block.md R128: "It may be absent, its old contents, or any prefix of `data`"). -/
inductive FailedFile where
  | absent
  | old
  | prefixOf (n : Nat)
  deriving DecidableEq, Repr, Inhabited

/-- `WriteOutcome`: the host's answer to one block write (46_block.md R128). -/
inductive WriteAnswer where
  | ok
  | fail (left : FailedFile)
  deriving DecidableEq, Repr, Inhabited

/-- FREE VALUE: the host's answer to a block write for which State holds no scripted answer (46_block.md R128,
92_eei_decisions.md D26 `WriteOutcome`); draw number `n`. Log 5. -/
opaque Config.writeAnswer : Nat → WriteAnswer

/-- FREE VALUE: byte `i` of the target range after a short block read (46_block.md R129, 92_eei_decisions.md D26
`ShortReadBytes`); draw number `n`. Log 6. -/
opaque Config.shortReadByte : Nat → Nat → Byte

end Sys2Proof
end

