-- ==== Sys2Proof/Syntax.lean ====
section
/-! DEFINITION. The instruction set: one constructor per row of spec/opcode_table.json (30_encoding.md R75), with the
operands the spec gives it: the inline literal of PUSH and the inline offset of JMP and JMPZ (R69, R70), and the
implicit operand `x = mask(xt + 1)` of COMPILE and RUN (R68). Every operand has exactly the width of its field. -/

namespace Sys2Proof

inductive Instr where
  /-- opcode 0, 40_threading.md R83; `lit` is the threaded cell after the token -/
  | push (lit : Word)
  /-- opcode 1, 40_threading.md R84; `x` is the address after the opcode cell -/
  | compile (x : Addr)
  /-- opcode 2, 40_threading.md R85; `x` is the first cell of the body -/
  | run (x : Addr)
  /-- opcode 3, 40_threading.md R86 -/
  | exit
  /-- opcode 4, 41_arith.md R88 -/
  | sub
  /-- opcode 5, 41_arith.md R89 -/
  | add
  /-- opcode 6, 41_arith.md R90 -/
  | mul
  /-- opcode 7, 41_arith.md R91 -/
  | div
  /-- opcode 8, 41_arith.md R92 -/
  | uless
  /-- opcode 9, 41_arith.md R93 -/
  | equal
  /-- opcode 10, 42_memory_stack.md R95 -/
  | load
  /-- opcode 11, 42_memory_stack.md R96 -/
  | store
  /-- opcode 12, 42_memory_stack.md R98 -/
  | swap
  /-- opcode 13, 42_memory_stack.md R99 -/
  | dup
  /-- opcode 14, 42_memory_stack.md R100 -/
  | drop
  /-- opcode 15, 42_memory_stack.md R102 -/
  | tor
  /-- opcode 16, 42_memory_stack.md R103 -/
  | fromr
  /-- opcode 17, 43_branch.md R105; `off` is the threaded cell after the token -/
  | jmp (off : Word)
  /-- opcode 18, 43_branch.md R106; `off` is the threaded cell after the token -/
  | jmpz (off : Word)
  /-- opcode 19, 44_char_io.md R109 -/
  | pnum
  /-- opcode 20, 44_char_io.md R110 -/
  | emit
  /-- opcode 21, 44_char_io.md R111 -/
  | key
  /-- opcode 22, 45_compiler.md R120 -/
  | define
  /-- opcode 23, 45_compiler.md R121 -/
  | immediate
  /-- opcode 24, 45_compiler.md R122 -/
  | comment
  /-- opcode 25, 45_compiler.md R123 -/
  | comma
  /-- opcode 26, 46_block.md R131 -/
  | bsave
  /-- opcode 27, 46_block.md R132 -/
  | bload
  /-- opcode 28, 45_compiler.md R119 -/
  | read
  deriving DecidableEq, Repr

end Sys2Proof
end

