-- ==== Sys2Proof/Machine/State.lean ====
section
/-! DEFINITION. The state of the engine as plain data (10_state.md), the channels and the block store it uses
(10_state.md section 6), the host's pending calls (70_reset_and_hazards.md R159), the reasons a step can stop, and
the state after initialisation (10_state.md R48). -/

namespace Sys2Proof.Machine

/-- The arena in its byte view (20_memory.md R57): byte address and byte, addresses strictly rising, no entry equal to
what an unlisted address reads as, the byte of the reset image (log 1). `Memory.wf` is the check. -/
abbrev Memory := List Host.Cell

/-- The name of a block file, its characters as bytes (46_block.md R126). -/
abbrev FileName := List Byte

/-- The block store: file names and contents, names strictly rising in `nameLt` (10_state.md R45, log 10).
`Store.wf` is the check. -/
abbrev Store := List (FileName × List Byte)

/-- One position of the input stream: a byte, or a moment at which no byte has arrived yet and a read waits
(44_char_io.md R107, 92_eei_decisions.md D36 `InputSchedule`; log 4). The stream ends where the list does. -/
inductive InputSlot where
  | byte (b : Byte)
  | wait
  deriving DecidableEq, Repr

/-- The mode of a block request (46_block.md R127); a host call may name a mode that is neither (R133). -/
inductive BlockMode where
  | read
  | write
  | other (code : Nat)
  deriving DecidableEq, Repr

/-- The recoverable diagnostics, with the information each records (60_exceptions.md R135). -/
inductive Diag where
  | divZero
  | undefinedWord (token : List Byte)
  | blockRequest (off id : Word) (mode : BlockMode)
  | blockTransfer (off id : Word) (mode : BlockMode)
  deriving DecidableEq, Repr

/-- The fatal reasons, with the information each records (60_exceptions.md R136). -/
inductive FatalReason where
  | unknownOpcode (op : Word) (xt : Addr)
  | nameRead
  deriving DecidableEq, Repr

/-- One event on the error channel (10_state.md R44). -/
inductive ErrorEvent where
  | diag (d : Diag)
  | fatal (r : FatalReason)
  deriving DecidableEq, Repr

/-- The run mode (10_state.md R43). Its other two values, Undef and Hung, have no later state: a step that reaches one
answers a `Fault` (log 8). -/
inductive RunMode where
  | idle
  | running
  deriving DecidableEq, Repr

/-- A call of the host, possible only while the engine is Idle (70_reset_and_hazards.md R159). -/
inductive HostCall where
  /-- R154 -/
  | run
  /-- replace the input channel between runs -/
  | replaceInput (stream : List InputSlot)
  /-- the host writes, or removes, a block file while no run is active (46_block.md R130) -/
  | changeFile (name : FileName) (contents : Option (List Byte))
  /-- R157 -/
  | snapshot
  /-- R158 -/
  | restore (image : List Byte)
  /-- 46_block.md R133 -/
  | blockIO (off id : Word) (mode : BlockMode)
  /-- discard the engine -/
  | teardown
  deriving DecidableEq, Repr

/-- What the engine gives back to a call (70_reset_and_hazards.md R159, column "engine gives back"). -/
inductive HostReply where
  /-- the status `run` returns: 0 or 1 (R154) -/
  | runStatus (status : Word)
  /-- R157 -/
  | image (bytes : List Byte)
  /-- `true` for ok, `false` for failure (R158) -/
  | restored (ok : Bool)
  /-- 46_block.md R133 -/
  | blockStatus (status : Word)
  deriving DecidableEq, Repr

/-- The operations the spec leaves without meaning (60_exceptions.md R137). -/
inductive UndefReason where
  | returnPop
  | returnPush
  | dataPop
  | dataPush
  deriving DecidableEq, Repr

/-- The steps that never end (60_exceptions.md R138). -/
inductive HangReason where
  | findCycle
  deriving DecidableEq, Repr

/-- Why a step has no next state. -/
inductive Fault where
  /-- The run mode `Undef(reason)` of 10_state.md R43 and 60_exceptions.md R137. Raised by EXIT, FROMR and READ
  (returnPop), RUN and TOR (returnPush), every opcode that pops (dataPop), and PUSH, DUP, FROMR, KEY and READ
  (dataPush). Safe: the machine stops where the spec gives no behaviour. -/
  | undef (reason : UndefReason)
  /-- The run mode `Hung(reason)` of 10_state.md R43 and 60_exceptions.md R138. Raised by READ when Find has followed
  32768 links without a match. Safe: the machine stops where the step never completes. -/
  | hung (reason : HangReason)
  deriving DecidableEq, Repr

/-- Why a step has no meaning in the model. -/
inductive Refusal where
  /-- An instruction without a meaning yet, raised by its arm of `exec`; no arm raises it now. Safe. -/
  | notModelled (mnemonic : String)
  /-- The host has discarded the engine (70_reset_and_hazards.md R159, "teardown"; the host never "use[s] it
  afterwards"). Raised by an Idle step that serves `teardown`. Safe: there is no engine left to step. -/
  | tornDown
  deriving DecidableEq, Repr

/-- The engine, the channels and the block store, and the host's calls. -/
structure State where
  /-- the arena (20_memory.md R49, R57) -/
  mem : Memory
  /-- the instruction pointer (10_state.md R22) -/
  I : Addr
  /-- the top-of-stack register (10_state.md R23) -/
  f : Word
  /-- the data-stack pointer (10_state.md R24) -/
  S : Addr
  /-- the newest dictionary entry (10_state.md R25) -/
  LATEST : Addr
  /-- the next free string-store offset (10_state.md R26) -/
  STRP : Word
  /-- the dispatch latch (10_state.md R27) -/
  NXT : Option Addr
  /-- the invalidity flag (10_state.md R28) -/
  INVALID : Bool
  /-- the run mode (10_state.md R43) -/
  mode : RunMode
  /-- the input channel: what is still to come (10_state.md R44) -/
  input : List InputSlot
  /-- the output channel, oldest byte first (10_state.md R44) -/
  output : List Byte
  /-- the error channel, oldest event first (10_state.md R44) -/
  errors : List ErrorEvent
  /-- the block store (10_state.md R45) -/
  store : Store
  /-- the host's coming answers to block writes, next first (10_state.md R21, 46_block.md R128; log 5) -/
  writeAnswers : List WriteAnswer
  /-- the host's pending calls, next first (log 3) -/
  calls : List HostCall
  /-- what the engine gave back, oldest first (log 9) -/
  replies : List HostReply
  /-- the model's own: how many free values have been taken (log 7) -/
  draws : Nat
  deriving DecidableEq, Repr

/-- The state after initialisation (10_state.md R48, 70_reset_and_hazards.md R152). Memory lists nothing: an unlisted
address reads as the reset image. The channels, the store and the host's lists are empty (log 2). -/
def State.reset : State where
  mem := []
  I := Config.bootEntry
  f := 0#16
  S := 31744#15
  LATEST := 140#15
  STRP := 127#16
  NXT := none
  INVALID := false
  mode := .idle
  input := []
  output := []
  errors := []
  store := []
  writeAnswers := []
  calls := []
  replies := []
  draws := 0

end Sys2Proof.Machine
end

