-- ==== Sys2Proof/Machine/Assoc.lean ====
section
/-! DEFINITION. Lists of key and value pairs in one canonical form, keys strictly rising in a given order: what memory
and the block store are made of (log 1, log 10). -/

namespace Sys2Proof.Machine

/-- The value listed under key `k`. -/
def lookup {κ ν : Type} [DecidableEq κ] (k : κ) : List (κ × ν) → Option ν
  | [] => none
  | (k', v) :: rest => if k = k' then some v else lookup k rest

/-- List `v` under key `k`, in its place in the order, in place of what was listed there. -/
def insertKey {κ ν : Type} [DecidableEq κ] (lt : κ → κ → Bool) (k : κ) (v : ν) : List (κ × ν) → List (κ × ν)
  | [] => [(k, v)]
  | (k', v') :: rest =>
    if k = k' then (k, v) :: rest
    else if lt k k' then (k, v) :: (k', v') :: rest
    else (k', v') :: insertKey lt k v rest

/-- List nothing under key `k`. -/
def eraseKey {κ ν : Type} [DecidableEq κ] (k : κ) : List (κ × ν) → List (κ × ν)
  | [] => []
  | (k', v') :: rest => if k = k' then rest else (k', v') :: eraseKey k rest

/-- Keys strictly rise: each key is below the one after it. -/
def rising {κ ν : Type} (lt : κ → κ → Bool) : List (κ × ν) → Bool
  | [] => true
  | [_] => true
  | (k, _) :: (k', v') :: rest => lt k k' && rising lt ((k', v') :: rest)

end Sys2Proof.Machine
end

