-- ==== Sys2Proof/Machine/Bits.lean ====
section
/-! DEFINITION. Bit fields, extension and byte order: the notation of 00_scope.md R11, R13 and the byte view of
20_memory.md R57. -/

namespace Sys2Proof.Machine

/-- `mask(a) = a mod 32768`, the low 15 bits (00_scope.md R13, 20_memory.md R50). -/
def mask (v : Word) : Addr := v.setWidth 15

/-- `zext_16` of an address: the cell that holds it (00_scope.md R11). -/
def zext (a : Addr) : Word := a.setWidth 16

/-- A byte as a cell, bits 15:8 zero (30_encoding.md R74). -/
def zextByte (b : Byte) : Word := b.setWidth 16

/-- Bits 7:0 of a cell (20_memory.md R57). -/
def loByte (v : Word) : Byte := v.extractLsb' 0 8

/-- Bits 15:8 of a cell (20_memory.md R57). -/
def hiByte (v : Word) : Byte := v.extractLsb' 8 8

/-- The cell whose bits 7:0 are `lo` and bits 15:8 are `hi` (20_memory.md R57). -/
def joinBytes (lo hi : Byte) : Word := hi ++ lo

/-- A cell as two bytes, low byte first (20_memory.md R57). -/
def wordBytes (v : Word) : List Byte := [loByte v, hiByte v]

end Sys2Proof.Machine
end

