-- ==== Sys2Proof/Machine/Image.lean ====
section
/-! DEFINITION. The arena image that initialisation leaves, cell by cell: the tables of 70_reset_and_hazards.md R152.
It is what an address of the arena reads as when memory lists nothing for it. -/

namespace Sys2Proof.Machine

/-- Cells 32 to 37: the sentinel and the boot loop (R152). -/
def resetFixedCells : List Nat := [32, 0, 28, 2, 34, 35]

/-- Cells 38 to 89: the entries of `'`, exit, -, +, *, /, u<, =, @, !, swap, dup and drop (R152). -/
def resetEntriesLow : List Nat :=
  [32, 32, 1, 0] ++
  [38, 34, 1, 3] ++
  [42, 39, 1, 4] ++
  [46, 41, 1, 5] ++
  [50, 43, 1, 6] ++
  [54, 45, 1, 7] ++
  [58, 47, 1, 8] ++
  [62, 50, 1, 9] ++
  [66, 52, 1, 10] ++
  [70, 54, 1, 11] ++
  [74, 56, 1, 12] ++
  [78, 61, 1, 13] ++
  [82, 65, 1, 14]

/-- Cells 90 to 143: the entries of >r, r>, jmp, jz, ., emit, key, :, immediate, \, the comma, bsave, bload and read (R152). -/
def resetEntriesHigh : List Nat :=
  [86, 70, 1, 15] ++
  [90, 73, 1, 16] ++
  [94, 76, 1, 17] ++
  [98, 80, 1, 18] ++
  [102, 83, 1, 19] ++
  [106, 85, 1, 20] ++
  [110, 90, 1, 21] ++
  [114, 94, 1, 22] ++
  [118, 96, 23] ++
  [122, 106, 24] ++
  [125, 108, 1, 25] ++
  [128, 110, 1, 26] ++
  [132, 116, 1, 27] ++
  [136, 122, 1, 28]

/-- Cells 32 to 143 (R152). -/
def resetDictionary : List Nat := resetFixedCells ++ resetEntriesLow ++ resetEntriesHigh

/-- Cells 16416 to 16453: the names of `'` to drop, one character a cell, each ended by a 0 (R152). -/
def resetNamesLow : List Nat :=
  [39, 0] ++
  [101, 120, 105, 116, 0] ++
  [45, 0] ++
  [43, 0] ++
  [42, 0] ++
  [47, 0] ++
  [117, 60, 0] ++
  [61, 0] ++
  [64, 0] ++
  [33, 0] ++
  [115, 119, 97, 112, 0] ++
  [100, 117, 112, 0] ++
  [100, 114, 111, 112, 0]

/-- Cells 16454 to 16510: the names of >r to read (R152). -/
def resetNamesHigh : List Nat :=
  [62, 114, 0] ++
  [114, 62, 0] ++
  [106, 109, 112, 0] ++
  [106, 122, 0] ++
  [46, 0] ++
  [101, 109, 105, 116, 0] ++
  [107, 101, 121, 0] ++
  [58, 0] ++
  [105, 109, 109, 101, 100, 105, 97, 116, 101, 0] ++
  [92, 0] ++
  [44, 0] ++
  [98, 115, 97, 118, 101, 0] ++
  [98, 108, 111, 97, 100, 0] ++
  [114, 101, 97, 100, 0]

/-- Cells 16416 to 16510 (R152). -/
def resetNames : List Nat := resetNamesLow ++ resetNamesHigh

/-- Cell `a` of the image (R152); every cell not listed there is 0. -/
def resetCell (a : Nat) : Word :=
  if a < 32 then (if a = 0 then 144#16 else if a = 1 then 32256#16 else 0#16)
  else if a < 144 then BitVec.ofNat 16 (resetDictionary.getD (a - 32) 0)
  else if a < 16416 then 0#16
  else BitVec.ofNat 16 (resetNames.getD (a - 16416) 0)

/-- Byte `b` of the image in the byte view (20_memory.md R57). -/
def resetByte (b : Nat) : Byte :=
  if b % 2 = 0 then loByte (resetCell (b / 2)) else hiByte (resetCell (b / 2))

end Sys2Proof.Machine
end

