-- ==== Sys2Proof/Machine/Memory.lean ====
section
/-! DEFINITION. The arena (20_memory.md): the byte view, cells made of two bytes, low byte first (R57), and the
canonical form of the list that holds it. Every address exists (R49, R50), so no access fails. -/

namespace Sys2Proof.Machine

/-- `ByteRead(b)` (R57): the byte listed at `b`, or the byte of the reset image. -/
def byteRead (m : Memory) (b : Nat) : Byte := (lookup b m).getD (resetByte b)

/-- `ByteWrite(b, v)` (R57): the other half of the cell is unchanged. Writing what an unlisted address reads as removes
the entry. -/
def byteWrite (m : Memory) (b : Nat) (v : Byte) : Memory :=
  if v = resetByte b then eraseKey b m else insertKey Nat.blt b v m

/-- Write bytes from byte address `b` upward. -/
def writeBytes (m : Memory) (b : Nat) : List Byte → Memory
  | [] => m
  | v :: vs => writeBytes (byteWrite m b v) (b + 1) vs

/-- The `n` bytes from byte address `b` upward. -/
def readBytes (m : Memory) (b n : Nat) : List Byte := (List.range n).map (fun i => byteRead m (b + i))

/-- The byte address of a cell's bits 7:0 (R57). -/
def byteAddr (a : Addr) : Nat := 2 * a.toNat

/-- `MemRead(a, 1)` (00_scope.md R13). -/
def cellRead (m : Memory) (a : Addr) : Word := joinBytes (byteRead m (byteAddr a)) (byteRead m (byteAddr a + 1))

/-- `MemWrite(a, 1, v)` (00_scope.md R13). -/
def cellWrite (m : Memory) (a : Addr) (v : Word) : Memory :=
  byteWrite (byteWrite m (byteAddr a) (loByte v)) (byteAddr a + 1) (hiByte v)

/-- An entry that may be listed: an address of the arena, and not what it reads as unlisted. -/
def listable (c : Host.Cell) : Bool := Nat.blt c.1 Config.arenaBytes && c.2 != resetByte c.1

/-- The canonical form: addresses strictly rising, every entry listable (log 1). -/
def Memory.wf (m : Memory) : Bool := rising Nat.blt m && m.all listable

/-- The memory whose bytes, from address `b` upward, are the given ones, and below `b` those of the reset image. -/
def memoryOfBytes (b : Nat) : List Byte → Memory
  | [] => []
  | v :: vs => if v = resetByte b then memoryOfBytes (b + 1) vs else (b, v) :: memoryOfBytes (b + 1) vs

/-- `for a in 0 .. n-1: m[a] <- 0` (70_reset_and_hazards.md R151). -/
def zeroCells (m : Memory) : Nat → Memory
  | 0 => m
  | n + 1 => cellWrite (zeroCells m n) (BitVec.ofNat 15 n) 0#16

/-- The order of file names in the block store: byte by byte, a name before its extensions. -/
def nameLt : FileName → FileName → Bool
  | [], [] => false
  | [], _ :: _ => true
  | _ :: _, [] => false
  | a :: as, b :: bs => Nat.blt a.toNat b.toNat || (a == b && nameLt as bs)

/-- The canonical form of the block store: names strictly rising (log 10). -/
def Store.wf (st : Store) : Bool := rising nameLt st

end Sys2Proof.Machine
end

