-- ==== Sys2Proof/Machine/Ops.lean ====
section
/-! DEFINITION. The named operations the meanings share: cells and the register file (10_state.md section 3), the stack
primitives (section 4), `Append` (R42), the channels (section 6), and the ways a run ends: the fatal fault
(60_exceptions.md R136), which takes the place of an exception entry on this machine, and `halt`. There is no return
from a fault (R142), so no operation stands beside it. -/

namespace Sys2Proof.Machine

/-- The outcome of a step. -/
abbrev Result := Host.Outcome State Fault Refusal

/-! ### One field at a time -/

def State.setI (s : State) (a : Addr) : State := { s with I := a }
def State.setF (s : State) (v : Word) : State := { s with f := v }
def State.setS (s : State) (a : Addr) : State := { s with S := a }
def State.setInput (s : State) (inp : List InputSlot) : State := { s with input := inp }

/-! ### Cells (00_scope.md R13) and the register file (10_state.md R29 to R34) -/

/-- `m[a]`. -/
def State.cell (s : State) (a : Addr) : Word := cellRead s.mem a

/-- `m[a] <- v`. -/
def State.setCell (s : State) (a : Addr) (v : Word) : State := { s with mem := cellWrite s.mem a v }

/-- Cell 0, `DP` (10_state.md R30). -/
@[simp] abbrev dpCell : Addr := 0#15
/-- Cell 1, `RSP` (10_state.md R31). -/
@[simp] abbrev rspCell : Addr := 1#15
/-- Cell 8, `STATE` (10_state.md R33). -/
@[simp] abbrev stateCell : Addr := 8#15
/-- Cell 9, `HEX` (10_state.md R34). -/
@[simp] abbrev hexCell : Addr := 9#15

/-- `m[0]`. -/
def State.DP (s : State) : Word := s.cell dpCell
/-- `m[1]`. -/
def State.RSP (s : State) : Word := s.cell rspCell
/-- `m[8]`. -/
def State.STATE (s : State) : Word := s.cell stateCell
/-- `m[9]`. -/
def State.HEX (s : State) : Word := s.cell hexCell

/-- The active radix: 16 when `HEX` is nonzero, else 10 (10_state.md R34). -/
def State.radix (s : State) : Nat := if s.HEX = 0#16 then 10 else 16

/-! ### The data stack (10_state.md R36, R38, R39) -/

/-- `S` is where `DPush` is defined (R38). -/
abbrev State.CanPush (s : State) : Prop := Config.dstkLo ≤ s.S.toNat ∧ s.S.toNat < Config.dstkTop

/-- `S` is where `DPop` is defined (R39). -/
abbrev State.CanPop (s : State) : Prop := Config.dstkLo < s.S.toNat ∧ s.S.toNat ≤ Config.dstkTop

/-- The state `DPush(v)` leaves (R38). -/
def State.pushed (s : State) (v : Word) : State := ((s.setS (s.S + 1#15)).setCell (s.S + 1#15) s.f).setF v

/-- The value `DPop()` returns: the second element (R39). -/
def State.second (s : State) : Word := s.cell s.S

/-- The state `DPop()` leaves (R39). -/
def State.popped (s : State) : State := s.setS (s.S - 1#15)

/-- `DPush(v)`, then the rest of the step (R38). -/
def withPush (v : Word) (s : State) (k : State → Result) : Result :=
  if s.CanPush then k (s.pushed v) else .fault (.undef .dataPush)

/-- `DPop()`, then the rest of the step with the value popped (R39). -/
def withPop (s : State) (k : Word → State → Result) : Result :=
  if s.CanPop then k s.second s.popped else .fault (.undef .dataPop)

/-! ### The return stack (10_state.md R37, R40, R41) -/

/-- `RSP` is where `RPush` is defined (R40). -/
abbrev State.CanRPush (s : State) : Prop := Config.rstkLo ≤ s.RSP.toNat ∧ s.RSP.toNat < Config.rstkTop

/-- `RSP` is where `RPop` is defined (R41). -/
abbrev State.CanRPop (s : State) : Prop := Config.rstkLo < s.RSP.toNat ∧ s.RSP.toNat ≤ Config.rstkTop

/-- The state `RPush(v)` leaves (R40). -/
def State.rpushed (s : State) (v : Word) : State :=
  (s.setCell rspCell (s.RSP + 1#16)).setCell (mask (s.RSP + 1#16)) v

/-- The value `RPop()` returns (R41). -/
def State.rtop (s : State) : Word := s.cell (mask s.RSP)

/-- The state `RPop()` leaves (R41). -/
def State.rpopped (s : State) : State := s.setCell rspCell (s.RSP - 1#16)

/-- `RPush(v)`, then the rest of the step (R40). -/
def withRPush (v : Word) (s : State) (k : State → Result) : Result :=
  if s.CanRPush then k (s.rpushed v) else .fault (.undef .returnPush)

/-- `RPop()`, then the rest of the step with the value popped (R41). -/
def withRPop (s : State) (k : Word → State → Result) : Result :=
  if s.CanRPop then k s.rtop s.rpopped else .fault (.undef .returnPop)

/-! ### The dictionary pointer (10_state.md R42) -/

/-- `Append(v)`: the cell is written first and `DP` after it, from the `DP` read before (R42). -/
def State.append (s : State) (v : Word) : State := (s.setCell (mask s.DP) v).setCell dpCell (s.DP + 1#16)

/-! ### The channels (10_state.md R44) and the latch (40_threading.md R81) -/

/-- `Out(b)` for each byte in order (44_char_io.md R108). -/
def State.out (s : State) (bs : List Byte) : State := { s with output := s.output ++ bs }

/-- `diag(code, info)` (60_exceptions.md R135). -/
def State.diag (s : State) (d : Diag) : State := { s with errors := s.errors ++ [.diag d] }

/-- `dispatch(t)`: the next step takes the token `t` (40_threading.md R81). -/
def State.dispatch (s : State) (t : Addr) : State := { s with NXT := some t }

/-! ### The end of a run (70_reset_and_hazards.md R154) -/

/-- The run ends with a status: `NXT` is emptied, the mode is Idle and the host has the status (R154). -/
def State.endRun (s : State) (status : Word) : State :=
  { s with NXT := none, mode := .idle, replies := s.replies ++ [.runStatus status] }

/-- The state `raise Fatal(reason)` leaves (60_exceptions.md R136): `INVALID` set, the event sent, `NXT` emptied, the
run ended with status 1. -/
def State.fatal (s : State) (r : FatalReason) : State :=
  ({ s with INVALID := true, errors := s.errors ++ [.fatal r] } : State).endRun 1#16

/-- `raise Fatal(reason)`: a next state, since the engine hands it to the host (60_exceptions.md R141). -/
def raiseFatal (r : FatalReason) (s : State) : Result := .next (s.fatal r)

/-- `halt(0)`: the clean stop at end of input (70_reset_and_hazards.md R154). -/
def haltClean (s : State) : Result := .next (s.endRun 0#16)

end Sys2Proof.Machine
end

