-- ==== Sys2Proof/Machine/Operands.lean ====
section
/-! DEFINITION. The operand forms: the token fetch (40_threading.md R80), the implicit operand (30_encoding.md R68), the
inline operand cell (R69, R70) and the absolute address in `f` (42_memory_stack.md R94). The stack operands are the
primitives of Ops. -/

namespace Sys2Proof.Machine

/-- The implicit operand `x = mask(xt + 1)` of the token `xt` (30_encoding.md R68). -/
def implicitX (xt : Addr) : Addr := xt + 1#15

/-- The inline operand: the cell that `I` addresses after the token fetch (30_encoding.md R69). -/
def inlineCell (s : State) : Word := s.cell s.I

/-- Past the inline operand cell: `I <- mask(I + 1)` (40_threading.md R83). -/
def skipInline (s : State) : State := s.setI (s.I + 1#15)

/-- The target of a jump whose offset cell is at `a` and holds `off`: `mask(a + sext_16(off))` (30_encoding.md R70). -/
def jumpTarget (a : Addr) (off : Word) : Addr := BitVec.ofInt 15 ((a.toNat : Int) + off.toInt)

/-- The absolute address in `f` (42_memory_stack.md R94). -/
def absoluteAddr (s : State) : Addr := mask s.f

/-- The token of this step and the state after taking it: from `NXT`, which is emptied, or fetched at `I`, which
advances (40_threading.md R80). -/
def fetchToken (s : State) : Addr × State :=
  match s.NXT with
  | some xt => (xt, { s with NXT := none })
  | none => (mask (s.cell s.I), s.setI (s.I + 1#15))

end Sys2Proof.Machine
end

