-- ==== Sys2Proof/Machine/Flags.lean ====
section
/-! DEFINITION. The engine has no flags and no condition codes, and no opcode sets a flag (10_state.md R46): the
comparisons leave 0 or 1 in `f`, and JMPZ tests `f`. These are the two computations. -/

namespace Sys2Proof.Machine

/-- A truth value as a cell: 0 or 1 (00_scope.md R11). -/
def truthCell (b : Bool) : Word := if b then 1#16 else 0#16

/-- Unsigned comparison of cells (41_arith.md R92). -/
def unsignedLess (a b : Word) : Bool := decide (a.toNat < b.toNat)

/-- All 16 bits are compared (41_arith.md R93). -/
def sameCell (a b : Word) : Bool := decide (a = b)

/-- The condition of JMPZ: "only the value 0 is zero" (43_branch.md R106). -/
def isZero (v : Word) : Bool := decide (v = 0#16)

end Sys2Proof.Machine
end

