-- ==== Sys2Proof/Machine/Reader.lean ====
section
/-! DEFINITION. The input channel and text: `ReadChar` (44_char_io.md R107), the token reader (45_compiler.md R113), the
line comment (R122), the number parser (R114) and the number printer (44_char_io.md R109). A read that meets a wait
goes past it: a wait is inside the step and changes no state (60_exceptions.md R149; log 4). -/

namespace Sys2Proof.Machine

/-- `ReadChar()`: the next byte, `none` for EOF, and the stream after it. At end of stream it stays there (R107). -/
def readChar : List InputSlot → Option Byte × List InputSlot
  | [] => (none, [])
  | .wait :: rest => readChar rest
  | .byte b :: rest => (some b, rest)

/-- The six whitespace bytes (45_compiler.md R113). -/
def isSpace (b : Byte) : Bool :=
  b == 0x20#8 || b == 0x09#8 || b == 0x0A#8 || b == 0x0B#8 || b == 0x0C#8 || b == 0x0D#8

/-- The first loop of `ReadToken`: consume whitespace (R113). -/
def skipSpace : List InputSlot → List InputSlot
  | [] => []
  | .wait :: rest => skipSpace rest
  | .byte b :: rest => if isSpace b then skipSpace rest else .byte b :: rest

/-- The second loop of `ReadToken`: at most `room` bytes, up to a delimiter, which is not consumed (R113). -/
def takeToken : Nat → List InputSlot → List Byte × List InputSlot
  | 0, inp => ([], inp)
  | _ + 1, [] => ([], [])
  | room + 1, .wait :: rest => takeToken (room + 1) rest
  | room + 1, .byte b :: rest =>
    if isSpace b then ([], .byte b :: rest)
    else
      let t := takeToken room rest
      (b :: t.1, t.2)

/-- `ReadToken()`: a token of 1 to 31 bytes, or `none` for EOF, and the stream after it (R113). -/
def readToken (inp : List InputSlot) : Option (List Byte) × List InputSlot :=
  match skipSpace inp with
  | [] => (none, [])
  | slot :: rest =>
    let t := takeToken Config.nameMax (slot :: rest)
    (some t.1, t.2)

/-- The loop of COMMENT: through the next 0x0A, or to end of stream (R122). -/
def skipLine : List InputSlot → List InputSlot
  | [] => []
  | .wait :: rest => skipLine rest
  | .byte b :: rest => if b = 0x0A#8 then rest else skipLine rest

/-- The value of a digit: `0` to `9`, then letters of either case from 10 (R114). -/
def digitValue (c : Byte) : Option Nat :=
  let n := c.toNat
  if 48 ≤ n ∧ n ≤ 57 then some (n - 48)
  else if 97 ≤ n ∧ n ≤ 122 then some (n - 87)
  else if 65 ≤ n ∧ n ≤ 90 then some (n - 55)
  else none

/-- The digit loop of `ParseNum` from the value `v` (R114). -/
def parseDigits (radix : Nat) (v : Word) : List Byte → Option Word
  | [] => some v
  | c :: cs =>
    match digitValue c with
    | none => none
    | some d => if d < radix then parseDigits radix (v * BitVec.ofNat 16 radix + BitVec.ofNat 16 d) cs else none

/-- A plain run of digits, at least one (R114). -/
def parseUnsigned (radix : Nat) (digits : List Byte) : Option Word :=
  match digits with
  | [] => none
  | c :: cs => parseDigits radix 0#16 (c :: cs)

/-- `ParseNum(tok, radix)`, `none` for fail (R114). -/
def parseNum (tok : List Byte) (radix : Nat) : Option Word :=
  match tok with
  | [] => none
  | c :: cs =>
    if c = 0x2D#8 then (parseUnsigned radix cs).map (fun v => 0#16 - v)
    else parseUnsigned radix (c :: cs)

/-- A digit as a character, lower case (44_char_io.md R109). -/
def digitChar (d : Nat) : Byte := if d < 10 then BitVec.ofNat 8 (48 + d) else BitVec.ofNat 8 (87 + d)

/-- The digits of `n`, most significant first, no leading zeros, at most `fuel + 1` of them (R109). -/
def digitsOf (radix : Nat) : Nat → Nat → List Byte
  | 0, n => [digitChar (n % radix)]
  | fuel + 1, n => if n < radix then [digitChar n] else digitsOf radix fuel (n / radix) ++ [digitChar (n % radix)]

/-- The text PNUM prints of a cell before its space: unsigned; 65535 has five decimal digits and four hexadecimal
ones, so the digits never run out of fuel (R109). -/
def numberText (radix : Nat) (v : Word) : List Byte := digitsOf radix 4 v.toNat

end Sys2Proof.Machine
end

