-- ==== Sys2Proof/Machine/Dictionary.lean ====
section
/-! DEFINITION. The dictionary helpers: `MakeEntry` (45_compiler.md R115), `StrEq` (R116) and `Find` (R117). -/

namespace Sys2Proof.Machine

/-- Store a string from cell `a` upward, one byte a cell, then a NUL cell (30_encoding.md R74). -/
def storeString (a : Addr) : List Byte → State → State
  | [], s => s.setCell a 0#16
  | b :: bs, s => storeString (a + 1#15) bs (s.setCell a (zextByte b))

/-- The cell at which the string with offset `o` starts: `mask(STROFF + o)` (30_encoding.md R72). -/
def nameCell (o : Word) : Addr := mask (Config.strOff + o)

/-- `MakeEntry(tok)`: the name, `STRP`, then the entry's link and name offset; the entry's address is `mask(DP)` as it
stands after the name is written (R115). -/
def makeEntry (tok : List Byte) (s : State) : State :=
  let o := s.STRP
  let s1 := storeString (nameCell o) tok s
  let s2 : State := { s1 with STRP := o + BitVec.ofNat 16 (tok.length + 1) }
  let w := mask s2.DP
  let s3 := (s2.append (zext s2.LATEST)).append o
  { s3 with LATEST := w }

/-- `StrEq(a, b)` with at most `fuel` comparisons (R116). -/
def strEq (m : Memory) : Nat → Addr → Addr → Bool
  | 0, _, _ => false
  | fuel + 1, a, b =>
    let x := cellRead m a
    if x = cellRead m b then (if x = 0#16 then true else strEq m fuel (a + 1#15) (b + 1#15)) else false

/-- The name of entry `w` is the token in the token buffer: `StrEq(mask(STROFF + m[w + 1]), TOKBUF)`, which ends after
at most 32 comparisons since the buffer holds a NUL within 32 cells (R116, R117; log 11). -/
def nameMatches (m : Memory) (w : Addr) : Bool :=
  strEq m (Config.nameMax + 1) (nameCell (cellRead m (w + 1#15))) Config.tokBuf

/-- The scan of `Find` from entry `w`, following at most `fuel` links (R117). -/
def findFrom (m : Memory) : Nat → Addr → Option Addr
  | 0, _ => none
  | fuel + 1, w => if nameMatches m w then some w else findFrom m fuel (mask (cellRead m w))

/-- `Find()`: the newest entry that matches, or `none` where the scan never ends (R117). -/
def find (s : State) : Option Addr := findFrom s.mem Config.coreCells s.LATEST

end Sys2Proof.Machine
end

