-- ==== Sys2Proof/Machine/Block.lean ====
section
/-! DEFINITION. The block controller (46_block.md): block names (R126) and the one operation `BlockIO` (R127), with
the host's answers to writes (R128) and the bytes after a short read (R129). -/

namespace Sys2Proof.Machine

/-- A hexadecimal digit of an id: four bits from bit `lo` upward, lower case (R126). -/
def hexDigit (id : Word) (lo : Nat) : Byte := digitChar (id.extractLsb' lo 4).toNat

/-- `BlockName(id)`: four lower-case hexadecimal digits and `.blk` (R126). -/
def blockName (id : Word) : FileName :=
  [hexDigit id 12, hexDigit id 8, hexDigit id 4, hexDigit id 0, 0x2E#8, 0x62#8, 0x6C#8, 0x6B#8]

/-- `store[name] <- data` (R127). -/
def putFile (name : FileName) (data : List Byte) (st : Store) : Store := insertKey nameLt name data st

/-- The store after a failed write of `data` under `name` (R128). -/
def leaveFile (left : FailedFile) (name : FileName) (data : List Byte) (st : Store) : Store :=
  match left with
  | .absent => eraseKey name st
  | .old => st
  | .prefixOf n => putFile name (data.take n) st

/-- `WriteOutcome`: the host's next scripted answer, or, when its script has run out, a free value (R128; log 5). -/
def takeWriteAnswer (s : State) : WriteAnswer × State :=
  match s.writeAnswers with
  | a :: rest => (a, { s with writeAnswers := rest })
  | [] => (Config.writeAnswer s.draws, { s with draws := s.draws + 1 })

/-- `off + 1024 > 65536` fails: the block lies in the arena (R127). -/
abbrev blockFits (off : Word) : Prop := off.toNat + Config.blockBytes ≤ Config.arenaBytes

/-- A validated write: the bytes, the host's answer, the store, and the status (R127). -/
def blockWrite (off id : Word) (s : State) : Word × State :=
  let data := readBytes s.mem off.toNat Config.blockBytes
  let t := takeWriteAnswer s
  match t.1 with
  | .ok => (0#16, { t.2 with store := putFile (blockName id) data t.2.store })
  | .fail left =>
    (Config.blockError,
      ({ t.2 with store := leaveFile left (blockName id) data t.2.store } : State).diag (.blockTransfer off id .write))

/-- The 1024 bytes after a short read, draw number `n` (R129; log 6). -/
def shortReadBytes (n : Nat) : List Byte := (List.range Config.blockBytes).map (Config.shortReadByte n)

/-- A validated read: a missing file, a whole block, or a short file (R127). -/
def blockRead (off id : Word) (s : State) : Word × State :=
  match lookup (blockName id) s.store with
  | none => (Config.blockError, s.diag (.blockTransfer off id .read))
  | some data =>
    if Config.blockBytes ≤ data.length then
      (0#16, { s with mem := writeBytes s.mem off.toNat (data.take Config.blockBytes) })
    else
      (Config.blockError,
        ({ s with mem := writeBytes s.mem off.toNat (shortReadBytes s.draws), draws := s.draws + 1 } : State).diag
          (.blockTransfer off id .read))

/-- `BlockIO(off, id, mode)`: the status cell and the state after the request (R127). -/
def blockIO (off id : Word) (mode : BlockMode) (s : State) : Word × State :=
  match mode with
  | .write => if blockFits off then blockWrite off id s else (Config.blockError, s.diag (.blockRequest off id .write))
  | .read => if blockFits off then blockRead off id s else (Config.blockError, s.diag (.blockRequest off id .read))
  | .other code => (Config.blockError, s.diag (.blockRequest off id (.other code)))

end Sys2Proof.Machine
end

