-- ==== Sys2Proof/Machine/Lifecycle.lean ====
section
/-! DEFINITION. The lifecycle (70_reset_and_hazards.md): the reset sequence and initialisation (R150, R151), the start of
a run (R154), snapshot and restore (R157, R158), and the host calls an Idle step serves (R159; log 3). -/

namespace Sys2Proof.Machine

/-! ### Initialisation -/

/-- `PRIMITIVES`: opcode, name, and whether the word is immediate, in opcode order (R151). -/
def primitives : List (Word × List Nat × Bool) :=
  [(0#16, [39], false), (3#16, [101, 120, 105, 116], false), (4#16, [45], false)] ++
  [(5#16, [43], false), (6#16, [42], false), (7#16, [47], false)] ++
  [(8#16, [117, 60], false), (9#16, [61], false), (10#16, [64], false)] ++
  [(11#16, [33], false), (12#16, [115, 119, 97, 112], false), (13#16, [100, 117, 112], false)] ++
  [(14#16, [100, 114, 111, 112], false), (15#16, [62, 114], false), (16#16, [114, 62], false)] ++
  [(17#16, [106, 109, 112], false), (18#16, [106, 122], false), (19#16, [46], false)] ++
  [(20#16, [101, 109, 105, 116], false), (21#16, [107, 101, 121], false), (22#16, [58], false)] ++
  [(23#16, [105, 109, 109, 101, 100, 105, 97, 116, 101], true), (24#16, [92], true), (25#16, [44], false)] ++
  [(26#16, [98, 115, 97, 118, 101], false), (27#16, [98, 108, 111, 97, 100], false), (28#16, [114, 101, 97, 100], false)]

/-- One pass of the last loop of the reset sequence (R151). -/
def installPrimitive (s : State) (p : Word × List Nat × Bool) : State :=
  let t := makeEntry (p.2.1.map (BitVec.ofNat 8)) s
  if p.2.2 then t.append p.1 else (t.append 1#16).append p.1

/-- The reset sequence, statement by statement in its order (R151), on an engine that holds anything. -/
def resetSequence (s : State) : State :=
  let s1 : State :=
    { s with
      mem := zeroCells s.mem Config.coreCells, I := 37#15, f := 0#16, S := 31744#15, NXT := none, INVALID := false }
  let s2 : State := { (s1.setCell dpCell 32#16).setCell rspCell 32256#16 with STRP := 32#16 }
  let s3 : State := { (s2.append 32#16).append 0#16 with LATEST := 32#15 }
  let s4 := (((s3.append 28#16).append 2#16).append 34#16).append 35#16
  { primitives.foldl installPrimitive s4 with mode := .idle }

/-- `initialize(input, output, error)`: `none`, failure, if the input or the output channel is absent (R150). The error
channel is always present. What the block store holds and how it will answer writes are the host's. -/
def newEngine (input : Option (List InputSlot)) (output : Option (List Byte)) (st : Store)
    (answers : List WriteAnswer) : Option State :=
  match input, output with
  | some inp, some out =>
    some (resetSequence { State.reset with input := inp, output := out, store := st, writeAnswers := answers })
  | _, _ => none

/-! ### Runs -/

/-- The start of `run`: refused with status 1 on an invalidated engine, with no step and no other change; otherwise
`I <- 37`, `NXT` emptied, mode Running (R154). -/
def beginRun (s : State) : State :=
  if s.INVALID then { s with replies := s.replies ++ [.runStatus 1#16] }
  else { s with I := Config.bootEntry, NXT := none, mode := .running }

/-! ### Snapshot and restore -/

/-- A flag as a 16-bit word (R157). -/
def flagWord (b : Bool) : Word := if b then 1#16 else 0#16

/-- The six header words of an image, in order (R157). -/
def headerWords (s : State) : List Word := [zext s.I, s.f, zext s.S, zext s.LATEST, s.STRP, flagWord s.INVALID]

/-- `snapshot(engine)`: the header words low byte first, then the arena's bytes (R157). -/
def snapshot (s : State) : List Byte :=
  (headerWords s).flatMap wordBytes ++ readBytes s.mem 0 Config.arenaBytes

/-- Header word `k` of an image (R157). -/
def imageWord (image : List Byte) (k : Nat) : Word :=
  joinBytes (image.getD (2 * k) 0#8) (image.getD (2 * k + 1) 0#8)

/-- The checks of `restore`: the length, `I` and `LATEST`, `S`, and `INVALID` (R158). -/
def imageValid (image : List Byte) : Bool :=
  image.length == 65548 &&
  decide ((imageWord image 0).toNat ≤ 32767) &&
  decide ((imageWord image 3).toNat ≤ 32767) &&
  decide (Config.dstkLo ≤ (imageWord image 2).toNat ∧ (imageWord image 2).toNat ≤ Config.dstkTop) &&
  decide ((imageWord image 5).toNat ≤ 1)

/-- `restore(engine, bytes)`: `none`, failure, where a check fails (R158). The channels and the store stay. -/
def restore (image : List Byte) (s : State) : Option State :=
  if imageValid image then
    some { s with
      mem := memoryOfBytes 0 (image.drop 12), I := mask (imageWord image 0), f := imageWord image 1,
      S := mask (imageWord image 2), LATEST := mask (imageWord image 3), STRP := imageWord image 4,
      INVALID := decide (imageWord image 5 = 1#16), NXT := none }
  else none

/-! ### Host calls -/

/-- The engine gives something back to the host (R159). -/
def State.reply (s : State) (r : HostReply) : State := { s with replies := s.replies ++ [r] }

/-- The host changes a block file while no run is active (46_block.md R130; log 10). -/
def changeFile (name : FileName) (contents : Option (List Byte)) (st : Store) : Store :=
  match contents with
  | none => eraseKey name st
  | some data => putFile name data st

/-- One host call on an Idle engine (R159). -/
def serveCall (c : HostCall) (s : State) : Result :=
  match c with
  | .run => .next (beginRun s)
  | .replaceInput stream => .next (s.setInput stream)
  | .changeFile name contents => .next { s with store := changeFile name contents s.store }
  | .snapshot => .next (s.reply (.image (snapshot s)))
  | .restore image =>
    match restore image s with
    | none => .next (s.reply (.restored false))
    | some t => .next (t.reply (.restored true))
  | .blockIO off id mode => .next ((blockIO off id mode s).2.reply (.blockStatus (blockIO off id mode s).1))
  | .teardown => .refused .tornDown

/-- An Idle step: the oldest pending call, or, with none pending, nothing (log 3). -/
def serveHost (s : State) : Result :=
  match s.calls with
  | [] => .next s
  | c :: rest => serveCall c { s with calls := rest }

end Sys2Proof.Machine
end

