-- ==== Sys2Proof/Machine/Arith.lean ====
section
/-! DEFINITION. Arithmetic and comparison (41_arith.md R87 to R93): `s OP f` on unsigned cells, modulo 2^16. -/

namespace Sys2Proof.Machine

/-- The shape of a binary opcode: pop `s`, leave `op s f` in `f` (41_arith.md, opening). -/
def binary (op : Word → Word → Word) (s : State) : Result := withPop s fun a t => .next (t.setF (op a t.f))

/-- SUB (R88). -/
def execSub (s : State) : Result := binary (fun a b => a - b) s

/-- ADD (R89). -/
def execAdd (s : State) : Result := binary (fun a b => a + b) s

/-- MUL (R90). -/
def execMul (s : State) : Result := binary (fun a b => a * b) s

/-- DIV (R91): unsigned; division by zero is diagnosed and gives 0. -/
def execDiv (s : State) : Result :=
  withPop s fun a t => if t.f = 0#16 then .next ((t.diag .divZero).setF 0#16) else .next (t.setF (a.udiv t.f))

/-- ULESS (R92). -/
def execUless (s : State) : Result := binary (fun a b => truthCell (unsignedLess a b)) s

/-- EQUAL (R93). -/
def execEqual (s : State) : Result := binary (fun a b => truthCell (sameCell a b)) s

end Sys2Proof.Machine
end

