-- ==== Sys2Proof/Machine/BlockOps.lean ====
section
/-! DEFINITION. The block opcodes (46_block.md R131, R132). -/

namespace Sys2Proof.Machine

/-- The shape of both: pop `off`, make the request with `f` as the id, leave the status in `f`, last of all. -/
def blockOp (mode : BlockMode) (s : State) : Result :=
  withPop s fun off t =>
    let r := blockIO off t.f mode t
    .next (r.2.setF r.1)

/-- BSAVE (R131). -/
def execBsave (s : State) : Result := blockOp .write s

/-- BLOAD (R132). -/
def execBload (s : State) : Result := blockOp .read s

end Sys2Proof.Machine
end

