-- ==== Sys2Proof/Machine/Branch.lean ====
section
/-! DEFINITION. The relative jumps (43_branch.md R105, R106). The offset cell is at `I` when the meaning starts. -/

namespace Sys2Proof.Machine

/-- JMP (R105). -/
def execJmp (off : Word) (s : State) : Result := .next (s.setI (jumpTarget s.I off))

/-- JMPZ (R106): the jump is resolved first, then the condition is popped, taken or not. -/
def execJmpz (off : Word) (s : State) : Result :=
  withPop (if isZero s.f then s.setI (jumpTarget s.I off) else skipInline s) fun v t => .next (t.setF v)

end Sys2Proof.Machine
end

