-- ==== Sys2Proof/Machine/CharIo.lean ====
section
/-! DEFINITION. Numeric and character I/O (44_char_io.md R109 to R111). -/

namespace Sys2Proof.Machine

/-- PNUM (R109): the digits of `f` in the active radix, one space, and a pop. -/
def execPnum (s : State) : Result :=
  withPop (s.out (numberText s.radix s.f ++ [0x20#8])) fun v t => .next (t.setF v)

/-- EMIT (R110): bits 7:0 of `f`, and a pop. -/
def execEmit (s : State) : Result := withPop (s.out [loByte s.f]) fun v t => .next (t.setF v)

/-- The cell KEY pushes for what `ReadChar` returned: 0xFFFF for EOF (R111). -/
def keyCell : Option Byte → Word
  | none => 0xFFFF#16
  | some c => zextByte c

/-- KEY (R111). -/
def execKey (s : State) : Result := withPush (keyCell (readChar s.input).1) (s.setInput (readChar s.input).2) .next

end Sys2Proof.Machine
end

