-- ==== Sys2Proof/Machine/Compiler.lean ====
section
/-! DEFINITION. The outer interpreter and the dictionary compiler (45_compiler.md R119 to R123). -/

namespace Sys2Proof.Machine

/-- The value of the COMPILE opcode, as DEFINE appends it (R120). -/
@[simp] abbrev compileCell : Word := 1#16

/-- The value of the RUN opcode, as DEFINE and IMMEDIATE append it (R120, R121). -/
@[simp] abbrev runCell : Word := 2#16

/-- READ, step 5: a token that names no word is a number, or an undefined word (R119). -/
def readNumber (tok : List Byte) (s : State) : Result :=
  match parseNum tok s.radix with
  | none => .next (s.diag (.undefinedWord tok))
  | some n => if s.STATE = 0#16 then withPush n s .next else .next ((s.append Config.litXt).append n)

/-- READ, steps 3 to 5: the token goes to the token buffer and is looked up (R119). -/
def readWord (tok : List Byte) (s : State) : Result :=
  let t := storeString Config.tokBuf tok s
  match find t with
  | none => .fault (.hung .findCycle)
  | some w => if w = Config.sent then readNumber tok t else .next (t.dispatch (w + 2#15))

/-- READ (R119): drop one return address, read a token, and handle it; end of input is the clean stop. -/
def execRead (s : State) : Result :=
  withRPop s fun _ t =>
    match readToken t.input with
    | (none, rest) => haltClean (t.setInput rest)
    | (some tok, rest) => readWord tok (t.setInput rest)

/-- DEFINE (R120): Compiling is entered before the name is read. -/
def execDefine (s : State) : Result :=
  let t := s.setCell stateCell 1#16
  match readToken t.input with
  | (none, rest) => raiseFatal .nameRead (t.setInput rest)
  | (some tok, rest) => .next (((makeEntry tok (t.setInput rest)).append compileCell).append runCell)

/-- IMMEDIATE (R121). -/
def execImmediate (s : State) : Result := .next ((s.setCell dpCell (s.DP - 2#16)).append runCell)

/-- COMMENT (R122). -/
def execComment (s : State) : Result := .next (s.setInput (skipLine s.input))

/-- COMMA (R123): the append comes first. -/
def execComma (s : State) : Result := withPop (s.append s.f) fun v t => .next (t.setF v)

end Sys2Proof.Machine
end

