-- ==== Sys2Proof/Machine/MemoryStack.lean ====
section
/-! DEFINITION. Load, store, stack shuffle and return-stack transfer (42_memory_stack.md R94 to R103). -/

namespace Sys2Proof.Machine

/-- LOAD (R95). -/
def execLoad (s : State) : Result := .next (s.setF (s.cell (absoluteAddr s)))

/-- STORE (R96): the write stands between the two pops. -/
def execStore (s : State) : Result :=
  withPop s fun v t => withPop (t.setCell (absoluteAddr s) v) fun w u => .next (u.setF w)

/-- SWAP (R98): the same bound as `DPop`; `S` does not change. -/
def execSwap (s : State) : Result :=
  if s.CanPop then .next ((s.setCell s.S s.f).setF s.second) else .fault (.undef .dataPop)

/-- DUP (R99). -/
def execDup (s : State) : Result := withPush s.f s .next

/-- DROP (R100). -/
def execDrop (s : State) : Result := withPop s fun v t => .next (t.setF v)

/-- TOR (R102): the return-stack push comes first. -/
def execTor (s : State) : Result := withRPush s.f s fun t => withPop t fun v u => .next (u.setF v)

/-- FROMR (R103): the return-stack pop comes first. -/
def execFromr (s : State) : Result := withRPop s fun v t => withPush v t .next

end Sys2Proof.Machine
end

