-- ==== Sys2Proof/Machine/Threading.lean ====
section
/-! DEFINITION. The threading opcodes (40_threading.md R83 to R86). Every meaning here and in the other families starts
after the token fetch of R80. -/

namespace Sys2Proof.Machine

/-- PUSH (R83). -/
def execPush (lit : Word) (s : State) : Result := withPush lit (skipInline s) .next

/-- COMPILE (R84): the STATE test is the choice between executing and compiling. -/
def execCompile (x : Addr) (s : State) : Result :=
  if s.STATE = 0#16 then .next (s.dispatch x) else .next (s.append (zext x))

/-- RUN (R85): the call pushes `I` and enters the body at `x`. -/
def execRun (x : Addr) (s : State) : Result := withRPush (zext s.I) s fun t => .next (t.setI x)

/-- EXIT (R86): the return. -/
def execExit (s : State) : Result := withRPop s fun v t => .next (t.setI (mask v))

end Sys2Proof.Machine
end

