-- ==== Sys2Proof/Machine/Dispatch.lean ====
section
/-! DEFINITION. The dispatch table: one arm per opcode of 30_encoding.md R75, each one call of its meaning. -/

namespace Sys2Proof.Machine

def exec (i : Instr) (s : State) : Host.Outcome State Fault Refusal :=
  match i with
  | .push lit => Sys2Proof.Machine.execPush lit s
  | .compile x => Sys2Proof.Machine.execCompile x s
  | .run x => Sys2Proof.Machine.execRun x s
  | .exit => Sys2Proof.Machine.execExit s
  | .sub => Sys2Proof.Machine.execSub s
  | .add => Sys2Proof.Machine.execAdd s
  | .mul => Sys2Proof.Machine.execMul s
  | .div => Sys2Proof.Machine.execDiv s
  | .uless => Sys2Proof.Machine.execUless s
  | .equal => Sys2Proof.Machine.execEqual s
  | .load => Sys2Proof.Machine.execLoad s
  | .store => Sys2Proof.Machine.execStore s
  | .swap => Sys2Proof.Machine.execSwap s
  | .dup => Sys2Proof.Machine.execDup s
  | .drop => Sys2Proof.Machine.execDrop s
  | .tor => Sys2Proof.Machine.execTor s
  | .fromr => Sys2Proof.Machine.execFromr s
  | .jmp off => Sys2Proof.Machine.execJmp off s
  | .jmpz off => Sys2Proof.Machine.execJmpz off s
  | .pnum => Sys2Proof.Machine.execPnum s
  | .emit => Sys2Proof.Machine.execEmit s
  | .key => Sys2Proof.Machine.execKey s
  | .define => Sys2Proof.Machine.execDefine s
  | .immediate => Sys2Proof.Machine.execImmediate s
  | .comment => Sys2Proof.Machine.execComment s
  | .comma => Sys2Proof.Machine.execComma s
  | .bsave => Sys2Proof.Machine.execBsave s
  | .bload => Sys2Proof.Machine.execBload s
  | .read => Sys2Proof.Machine.execRead s

end Sys2Proof.Machine
end

