-- ==== Sys2Proof/WellFormed.lean ====
section
/-! DEFINITION. Well-formedness. Every field of `Instr` has exactly the width its cell has, so a term of `Instr` has
nothing left to check; what can be ill-formed is a list of cells given as one instruction: its opcode cell must hold
a defined opcode (30_encoding.md R67, R76) and it must hold as many cells as its format says (R69, R71). -/

namespace Sys2Proof

/-- The three formats of 30_encoding.md R69. -/
inductive Format where
  /-- one cell: the token -/
  | t0
  /-- the token and an inline literal -/
  | t1
  /-- the token and an inline signed offset -/
  | t2
  deriving DecidableEq, Repr

/-- The format of an opcode, `none` for an unknown one (R69: "The opcode of the token decides the length, and nothing
else does"). -/
def formatOf (op : Word) : Option Format :=
  if op = 0#16 then some .t1
  else if op = 17#16 ∨ op = 18#16 then some .t2
  else if op.toNat < Config.numOps then some .t0
  else none

/-- Cells of the instruction beside its opcode cell (R69). -/
def Format.operandCells : Format → Nat
  | .t0 => 0
  | .t1 => 1
  | .t2 => 1

/-- A list of cells is one instruction: a defined opcode and exactly the operand cells of its format. -/
def wellFormedWords : List Word → Bool
  | [] => false
  | op :: operands =>
    match formatOf op with
    | none => false
    | some fmt => operands.length == fmt.operandCells

end Sys2Proof
end

