-- ==== Sys2Proof/Decode.lean ====
section
/-! DEFINITION. Decoding and encoding (30_encoding.md). An instruction is read from two cells: the opcode cell that
the token addresses (R65, R67) and, for formats T1 and T2, the inline operand cell that follows the token in the
threaded stream (R69). The implicit operand `x` (R68) is no cell of the instruction: it is where the opcode cell
stands, and the decoder is given it. -/

namespace Sys2Proof

/-- Why a list of bytes is no instruction. -/
inductive Reject where
  /-- the opcode cell holds 29 to 65535 (30_encoding.md R76) -/
  | unknownOpcode (op : Word)
  /-- the bytes end before the opcode cell does -/
  | truncatedOpcode
  /-- the bytes end before the inline operand of format T1 or T2 does (R69) -/
  | truncatedOperand (op : Word)
  deriving DecidableEq, Repr

/-- The instruction of an opcode cell `op`, the implicit operand `x` and the inline operand cell `inl`, which only
PUSH, JMP and JMPZ use (30_encoding.md R67, R69, R75). Values 29 to 65535 are unknown (R76). -/
def decode (x : Addr) (op inl : Word) : Except Reject Instr :=
  match op.toNat with
  | 0 => .ok (.push inl)
  | 1 => .ok (.compile x)
  | 2 => .ok (.run x)
  | 3 => .ok .exit
  | 4 => .ok .sub
  | 5 => .ok .add
  | 6 => .ok .mul
  | 7 => .ok .div
  | 8 => .ok .uless
  | 9 => .ok .equal
  | 10 => .ok .load
  | 11 => .ok .store
  | 12 => .ok .swap
  | 13 => .ok .dup
  | 14 => .ok .drop
  | 15 => .ok .tor
  | 16 => .ok .fromr
  | 17 => .ok (.jmp inl)
  | 18 => .ok (.jmpz inl)
  | 19 => .ok .pnum
  | 20 => .ok .emit
  | 21 => .ok .key
  | 22 => .ok .define
  | 23 => .ok .immediate
  | 24 => .ok .comment
  | 25 => .ok .comma
  | 26 => .ok .bsave
  | 27 => .ok .bload
  | 28 => .ok .read
  | _ => .error (.unknownOpcode op)

/-- Total on any bytes: the instruction at the front of a byte string, cells low byte first (20_memory.md R57), the
opcode cell and then the inline operand if the format has one (R69, R71), with the bytes that follow it. -/
def decodeBytes (x : Addr) : List Byte → Except Reject (Instr × List Byte)
  | lo :: hi :: rest =>
    let op := Machine.joinBytes lo hi
    match formatOf op with
    | none => .error (.unknownOpcode op)
    | some .t0 => (decode x op 0#16).map (fun i => (i, rest))
    | some _ =>
      match rest with
      | lo' :: hi' :: rest' => (decode x op (Machine.joinBytes lo' hi')).map (fun i => (i, rest'))
      | _ => .error (.truncatedOperand op)
  | _ => .error .truncatedOpcode

/-- The cells of an instruction: its opcode cell (30_encoding.md R75) and its inline operand if its format has one
(R69, R70). -/
def encode : Instr → List Word
  | .push lit => [0#16, lit]
  | .compile _ => [1#16]
  | .run _ => [2#16]
  | .exit => [3#16]
  | .sub => [4#16]
  | .add => [5#16]
  | .mul => [6#16]
  | .div => [7#16]
  | .uless => [8#16]
  | .equal => [9#16]
  | .load => [10#16]
  | .store => [11#16]
  | .swap => [12#16]
  | .dup => [13#16]
  | .drop => [14#16]
  | .tor => [15#16]
  | .fromr => [16#16]
  | .jmp off => [17#16, off]
  | .jmpz off => [18#16, off]
  | .pnum => [19#16]
  | .emit => [20#16]
  | .key => [21#16]
  | .define => [22#16]
  | .immediate => [23#16]
  | .comment => [24#16]
  | .comma => [25#16]
  | .bsave => [26#16]
  | .bload => [27#16]
  | .read => [28#16]

/-- The cells of an instruction as bytes, each low byte first (20_memory.md R57). -/
def encodeBytes (i : Instr) : List Byte := (encode i).flatMap Machine.wordBytes

/-- The implicit operand an instruction holds: where its opcode cell must stand, less one (30_encoding.md R68). -/
def Instr.implicitOperand : Instr → Option Addr
  | .compile x => some x
  | .run x => some x
  | _ => none

/-- How far from `I` `withFetchWord` places the opcode cell (log 13): 37 + 8192 lies in the free dictionary region at
reset, and the distance keeps it apart from the threaded cells at `I` and `I + 1` wherever `I` is. -/
def fetchSlotDistance : Addr := 8192#15

/-- The bits of a numeral as `n` bytes, bits 7:0 first. -/
def bytesOfNat : Nat → Nat → List Byte
  | 0, _ => []
  | n + 1, w => BitVec.ofNat 8 w :: bytesOfNat n (w / 256)

/-- What the decoder reads from the low `nbits` bits of `w`, numbered as spec/opcode_table.json numbers them, laid out
as the hardware stores cells, with an operand cell of zeros where `nbits` gives none; `x` is the implicit operand of
the place where `Machine.State.withFetchWord` puts that instruction after reset (log 12, log 13). -/
def decodeTableWord (nbits w : Nat) : Option Instr :=
  match decodeBytes (Config.bootEntry + fetchSlotDistance + 1#15) (bytesOfNat 4 (w % 2 ^ nbits)) with
  | .ok (i, _) => some i
  | .error _ => none

end Sys2Proof
end

