-- ==== Sys2Proof/Machine/Fetch.lean ====
section
/-! DEFINITION. What a running step reads before it performs an opcode (40_threading.md R80), and the placing of an
instruction where the next step fetches it. -/

namespace Sys2Proof.Machine

/-- The instruction that token `xt` selects in state `s`, the token already taken: the opcode cell at `xt`, the
implicit operand, and the inline operand cell at `I` (40_threading.md R80, 30_encoding.md R68, R69). -/
def decodeAt (xt : Addr) (s : State) : Except Reject Instr := decode (implicitX xt) (s.cell xt) (inlineCell s)

/-- The step of an unknown opcode: `raise Fatal(UnknownOpcode(op, xt))` (40_threading.md R82). -/
def unknownOpcode (xt : Addr) (s : State) : Result := raiseFatal (.unknownOpcode (s.cell xt) xt) s

/-- Place an instruction's bytes, cells low byte first, where the next step fetches them: the token at `I`, the opcode
cell at the token, and the inline operand, if the instruction has one, at `I + 1`; with the engine Running and nothing
handed over, so that the step fetches at `I` (log 13). -/
def placeInstruction (s : State) (bytes : List Byte) : State :=
  let xt := s.I + fetchSlotDistance
  let op := joinBytes (bytes.getD 0 0#8) (bytes.getD 1 0#8)
  let operand := joinBytes (bytes.getD 2 0#8) (bytes.getD 3 0#8)
  let t : State := { (s.setCell s.I (zext xt)).setCell xt op with NXT := none, mode := .running }
  match formatOf op with
  | some .t1 => t.setCell (s.I + 1#15) operand
  | some .t2 => t.setCell (s.I + 1#15) operand
  | _ => t

end Sys2Proof.Machine
end

