-- ==== Sys2Proof/Machine/Running.lean ====
section
/-! DEFINITION. A step in run mode Running (40_threading.md R80). -/

namespace Sys2Proof.Machine

/-- Take the token, read its opcode cell, and perform the opcode; a value of 29 or more is an unknown opcode
(40_threading.md R80, R82). -/
def stepRunning (s : State) : Result :=
  let t := fetchToken s
  match decodeAt t.1 t.2 with
  | .ok i => exec i t.2
  | .error _ => unknownOpcode t.1 t.2

end Sys2Proof.Machine
end

