-- ==== Sys2Proof/Machine/Step.lean ====
section
/-! DEFINITION. One step of the machine: an Idle engine serves the host (70_reset_and_hazards.md R159), a Running one
performs one opcode (40_threading.md R80). -/

namespace Sys2Proof.Machine

/-- One step. -/
def step (s : State) : Host.Outcome State Fault Refusal :=
  match s.mode with
  | .idle => serveHost s
  | .running => stepRunning s

/-- `s` with the instruction of the low `nbits` bits of `w` stored where `step` fetches its next instruction, an operand
cell of zeros where `nbits` gives none (log 13). -/
def State.withFetchWord (s : State) (nbits w : Nat) : State := placeInstruction s (bytesOfNat 4 (w % 2 ^ nbits))

end Sys2Proof.Machine
end

