-- ==== Sys2Proof/Safety.lean ====
section
/-! DEFINITION. What counts as a safe run, and the words the statements use: the invariant every step keeps, a stuck
state, what reads as before, and the entries Find visits. -/

namespace Sys2Proof.Machine

/-- The invariant of the engine: memory and store in canonical form, `S` in its legal range (10_state.md R24,
60_exceptions.md R137), the latch empty while Idle (10_state.md R27, 70_reset_and_hazards.md R157), and no run on an
invalidated engine (70_reset_and_hazards.md R154). -/
structure Inv (s : State) : Prop where
  memCanonical : s.mem.wf = true
  storeCanonical : Store.wf s.store = true
  stackLow : 31744 ≤ s.S.toNat
  stackHigh : s.S.toNat ≤ 32255
  idleEmpty : s.mode = .idle → s.NXT = none
  runningValid : s.mode = .running → s.INVALID = false

/-- The machine is stuck: no next state (10_state.md R43). -/
def Stuck (s : State) : Prop := ∃ r, step s = .fault r

/-- A run is safe for `n` steps when no step of it is stuck. -/
def SafeFor : Nat → State → Prop
  | 0, _ => True
  | n + 1, s => ¬ Stuck s ∧ ∀ t, step s = .next t → SafeFor n t

/-- Every byte of the arena reads as before. -/
def SameArena (s t : State) : Prop := ∀ b, byteRead t.mem b = byteRead s.mem b

/-- Every byte outside the two bytes of each listed cell reads as before. -/
def SameOutside (cells : List Addr) (s t : State) : Prop :=
  ∀ b, (∀ a ∈ cells, b ≠ byteAddr a ∧ b ≠ byteAddr a + 1) → byteRead t.mem b = byteRead s.mem b

/-- The cells of a string of `n` characters and its NUL, from cell `a` upward (30_encoding.md R74). -/
def stringCells (a : Addr) (n : Nat) : List Addr := (List.range (n + 1)).map (fun i => a + BitVec.ofNat 15 i)

/-- The cells written by `n` appends from the dictionary pointer `d`: those at `d` upward, and `DP` itself
(10_state.md R42). -/
def appendCells (d : Word) (n : Nat) : List Addr :=
  dpCell :: (List.range n).map (fun i => mask (d + BitVec.ofNat 16 i))

/-- The bytes of an input stream, without its waits. -/
def streamBytes : List InputSlot → List Byte
  | [] => []
  | .wait :: rest => streamBytes rest
  | .byte b :: rest => b :: streamBytes rest

/-- The stream with the same bytes and no waits. -/
def dropWaits (inp : List InputSlot) : List InputSlot := (streamBytes inp).map .byte

/-- The entry reached from `w` by following `k` links (45_compiler.md R117). -/
def entryAfter (m : Memory) : Nat → Addr → Addr
  | 0, w => w
  | k + 1, w => entryAfter m k (mask (cellRead m w))

/-- The string of cells at `a` ends, with a NUL, after `n` characters (30_encoding.md R74). -/
def EndsAfter (m : Memory) (a : Addr) (n : Nat) : Prop :=
  cellRead m (a + BitVec.ofNat 15 n) = 0#16 ∧ ∀ i < n, cellRead m (a + BitVec.ofNat 15 i) ≠ 0#16

/-- The exact value of digits, most significant first, in a radix; `none` where one is no digit of it
(45_compiler.md R114). -/
def digitsValue (radix : Nat) : Nat → List Byte → Option Nat
  | v, [] => some v
  | v, c :: cs =>
    match digitValue c with
    | none => none
    | some d => if d < radix then digitsValue radix (v * radix + d) cs else none

/-- How an opcode that completes moves `S`, from the stack effect column of 30_encoding.md R75; `none` for READ, which
pushes a number or pushes nothing. -/
def stackMove : Instr → Option (BitVec 15)
  | .push _ => some 1#15
  | .compile _ => some 0#15
  | .run _ => some 0#15
  | .exit => some 0#15
  | .sub => some (-1#15)
  | .add => some (-1#15)
  | .mul => some (-1#15)
  | .div => some (-1#15)
  | .uless => some (-1#15)
  | .equal => some (-1#15)
  | .load => some 0#15
  | .store => some (-2#15)
  | .swap => some 0#15
  | .dup => some 1#15
  | .drop => some (-1#15)
  | .tor => some (-1#15)
  | .fromr => some 1#15
  | .jmp _ => some 0#15
  | .jmpz _ => some (-1#15)
  | .pnum => some (-1#15)
  | .emit => some (-1#15)
  | .key => some 1#15
  | .define => some 0#15
  | .immediate => some 0#15
  | .comment => some 0#15
  | .comma => some (-1#15)
  | .bsave => some (-1#15)
  | .bload => some (-1#15)
  | .read => none

end Sys2Proof.Machine
end

