-- ==== Sys2Proof/Certificates/Slice0/Obligations.lean ====
section
/-! DEFINITION. The statements about the engine, for the provers. Each docstring names the rule of spec/ it comes from. -/

open Sys2Proof Sys2Proof.Machine

/-! ### Encoding -/

/-- 30_encoding.md R67, R69, R70, R75: decoding the bytes of any instruction gives it back with the bytes that follow,
and whatever the decoder accepts is the encoding of what it answers. -/
def Obligations.DecodeAndEncodeAgree : Prop :=
  (∀ (i : Instr) (x : Addr) (rest : List Byte), (i.implicitOperand = none ∨ i.implicitOperand = some x) →
    decodeBytes x (encodeBytes i ++ rest) = .ok (i, rest)) ∧
  ∀ (x : Addr) (bs : List Byte) (i : Instr) (rest : List Byte), decodeBytes x bs = .ok (i, rest) →
    bs = encodeBytes i ++ rest ∧ (i.implicitOperand = none ∨ i.implicitOperand = some x)

/-- 30_encoding.md R76: the opcode cell values 29 to 65535, and no others, are unknown. -/
def Obligations.UnknownOpcodesAreExactly29AndAbove : Prop :=
  ∀ (x : Addr) (op inl : Word), decode x op inl = .error (.unknownOpcode op) ↔ 29 ≤ op.toNat

/-- 30_encoding.md R75: words written out from the opcode map decode to their instructions. -/
def Obligations.OpcodeMapWordsDecode : Prop :=
  decodeBytes 7#15 [0x00#8, 0x00#8, 0x34#8, 0x12#8] = .ok (.push 0x1234#16, []) ∧
  decodeBytes 7#15 [0x01#8, 0x00#8] = .ok (.compile 7#15, []) ∧
  decodeBytes 7#15 [0x05#8, 0x00#8] = .ok (.add, []) ∧
  decodeBytes 7#15 [0x0B#8, 0x00#8] = .ok (.store, []) ∧
  decodeBytes 7#15 [0x12#8, 0x00#8, 0xFC#8, 0xFF#8] = .ok (.jmpz 0xFFFC#16, []) ∧
  decodeBytes 7#15 [0x13#8, 0x00#8] = .ok (.pnum, []) ∧
  decodeBytes 7#15 [0x16#8, 0x00#8] = .ok (.define, []) ∧
  decodeBytes 7#15 [0x1B#8, 0x00#8] = .ok (.bload, []) ∧
  decodeBytes 7#15 [0x1C#8, 0x00#8] = .ok (.read, [])

/-! ### The step -/

/-- 40_threading.md R80, R81: a running step takes the token handed over in `NXT`, which it empties, or fetches one at
`I`, which it advances; and it performs the instruction that the token's opcode cell decodes to. -/
def Obligations.RunningStepPerformsDecodedOpcode : Prop :=
  (∀ (s : State) (xt : Addr) (i : Instr), s.mode = .running → s.NXT = some xt →
    decode (xt + 1#15) (s.cell xt) (s.cell s.I) = .ok i → step s = exec i { s with NXT := none }) ∧
  ∀ (s : State) (i : Instr), s.mode = .running → s.NXT = none →
    decode (mask (s.cell s.I) + 1#15) (s.cell (mask (s.cell s.I))) (s.cell (s.I + 1#15)) = .ok i →
    step s = exec i { s with I := s.I + 1#15 }

/-- 40_threading.md R82, 60_exceptions.md R136, 70_reset_and_hazards.md R154: an opcode cell of 29 or more ends the run
with status 1, `INVALID` set, the event on the error channel and the latch empty; the fetch has advanced `I`, and
nothing else changes. A later `run` is refused. The lists `replies` and `calls`, which hold the status and the call, are
the model's choice (log 9, log 3). -/
def Obligations.UnknownOpcodeInvalidatesEngine : Prop :=
  (∀ (s : State) (xt : Addr), s.mode = .running → s.NXT = some xt → 29 ≤ (s.cell xt).toNat →
    step s = .next { s with
      INVALID := true, errors := s.errors ++ [.fatal (.unknownOpcode (s.cell xt) xt)], NXT := none, mode := .idle,
      replies := s.replies ++ [.runStatus 1#16] }) ∧
  (∀ (s : State), s.mode = .running → s.NXT = none → 29 ≤ (s.cell (mask (s.cell s.I))).toNat →
    step s = .next { s with
      I := s.I + 1#15, INVALID := true,
      errors := s.errors ++ [.fatal (.unknownOpcode (s.cell (mask (s.cell s.I))) (mask (s.cell s.I)))], NXT := none,
      mode := .idle, replies := s.replies ++ [.runStatus 1#16] }) ∧
  ∀ (s : State) (rest : List HostCall), s.mode = .idle → s.INVALID = true → s.calls = .run :: rest →
    step s = .next { s with calls := rest, replies := s.replies ++ [.runStatus 1#16] }

/-! ### Threading opcodes -/

/-- 40_threading.md R83: PUSH. -/
def Obligations.PushPushesInlineLiteral : Prop :=
  (∀ lit, encode (.push lit) = [0#16, lit]) ∧
  (∀ (xt : Addr) (s : State), s.cell xt = 0#16 → decodeAt xt s = .ok (.push (s.cell s.I))) ∧
  ∀ (lit : Word) (s : State), s.mem.wf = true →
    (s.CanPush → ∃ t, exec (.push lit) s = .next t ∧ t.f = lit ∧ t.S = s.S + 1#15 ∧ t.I = s.I + 1#15 ∧
      (∀ a, t.cell a = if a = s.S + 1#15 then s.f else s.cell a) ∧
      { t with mem := s.mem, f := s.f, S := s.S, I := s.I } = s) ∧
    (¬ s.CanPush → exec (.push lit) s = .fault (.undef .dataPush))

/-- 40_threading.md R84: COMPILE hands `x` over while Interpreting and appends it while Compiling. -/
def Obligations.CompileExecutesOrAppends : Prop :=
  (∀ x, encode (.compile x) = [1#16]) ∧
  (∀ (xt : Addr) (s : State), s.cell xt = 1#16 → decodeAt xt s = .ok (.compile (xt + 1#15))) ∧
  ∀ (x : Addr) (s : State), s.mem.wf = true →
    (s.cell 8#15 = 0#16 → exec (.compile x) s = .next { s with NXT := some x }) ∧
    (s.cell 8#15 ≠ 0#16 → ∃ t, exec (.compile x) s = .next t ∧
      (∀ a, t.cell a =
        if a = 0#15 then s.cell 0#15 + 1#16 else if a = mask (s.cell 0#15) then x.setWidth 16 else s.cell a) ∧
      { t with mem := s.mem } = s)

/-- 40_threading.md R85, R86: RUN pushes the return address and enters the body; EXIT pops a return address into `I`. -/
def Obligations.RunCallsAndExitReturns : Prop :=
  (∀ x, encode (.run x) = [2#16]) ∧ encode .exit = [3#16] ∧
  (∀ (xt : Addr) (s : State), s.cell xt = 2#16 → decodeAt xt s = .ok (.run (xt + 1#15))) ∧
  ∀ s : State, s.mem.wf = true →
    (∀ x : Addr, s.CanRPush → ∃ t, exec (.run x) s = .next t ∧ t.I = x ∧
      (∀ a, t.cell a = if a = mask (s.cell 1#15 + 1#16) then s.I.setWidth 16
        else if a = 1#15 then s.cell 1#15 + 1#16 else s.cell a) ∧
      { t with mem := s.mem, I := s.I } = s) ∧
    (∀ x : Addr, ¬ s.CanRPush → exec (.run x) s = .fault (.undef .returnPush)) ∧
    (s.CanRPop → ∃ t, exec .exit s = .next t ∧ t.I = mask (s.cell (mask (s.cell 1#15))) ∧
      (∀ a, t.cell a = if a = 1#15 then s.cell 1#15 - 1#16 else s.cell a) ∧
      { t with mem := s.mem, I := s.I } = s) ∧
    (¬ s.CanRPop → exec .exit s = .fault (.undef .returnPop))

/-! ### Arithmetic and comparison -/

/-- 41_arith.md R88, R89, R90: SUB, ADD and MUL leave the result modulo 2^16 and pop once. -/
def Obligations.SubAddMulLeaveWrappedResult : Prop :=
  encode .sub = [4#16] ∧ encode .add = [5#16] ∧ encode .mul = [6#16] ∧
  ∀ s : State,
    (s.CanPop →
      (∃ r : Word, exec .sub s = .next { s with S := s.S - 1#15, f := r } ∧
        r.toNat = ((s.cell s.S).toNat + 65536 - s.f.toNat) % 65536) ∧
      (∃ r : Word, exec .add s = .next { s with S := s.S - 1#15, f := r } ∧
        r.toNat = ((s.cell s.S).toNat + s.f.toNat) % 65536) ∧
      (∃ r : Word, exec .mul s = .next { s with S := s.S - 1#15, f := r } ∧
        r.toNat = ((s.cell s.S).toNat * s.f.toNat) % 65536)) ∧
    (¬ s.CanPop → exec .sub s = .fault (.undef .dataPop) ∧ exec .add s = .fault (.undef .dataPop) ∧
      exec .mul s = .fault (.undef .dataPop))

/-- 41_arith.md R91: DIV is unsigned and truncating; division by zero is diagnosed and leaves 0. -/
def Obligations.DivTruncatesOrDiagnosesZero : Prop :=
  encode .div = [7#16] ∧
  ∀ s : State,
    (s.CanPop → s.f ≠ 0#16 → ∃ r : Word, exec .div s = .next { s with S := s.S - 1#15, f := r } ∧
      r.toNat = (s.cell s.S).toNat / s.f.toNat) ∧
    (s.CanPop → s.f = 0#16 →
      exec .div s = .next { s with S := s.S - 1#15, f := 0#16, errors := s.errors ++ [.diag .divZero] }) ∧
    (¬ s.CanPop → exec .div s = .fault (.undef .dataPop))

/-- 41_arith.md R92, R93: ULESS and EQUAL leave 1 or 0. -/
def Obligations.ComparisonsLeaveZeroOrOne : Prop :=
  encode .uless = [8#16] ∧ encode .equal = [9#16] ∧
  ∀ s : State,
    (s.CanPop →
      exec .uless s = .next { s with S := s.S - 1#15, f := if (s.cell s.S).toNat < s.f.toNat then 1#16 else 0#16 } ∧
      exec .equal s = .next { s with S := s.S - 1#15, f := if s.cell s.S = s.f then 1#16 else 0#16 }) ∧
    (¬ s.CanPop → exec .uless s = .fault (.undef .dataPop) ∧ exec .equal s = .fault (.undef .dataPop))

/-! ### Memory and stacks -/

/-- 42_memory_stack.md R95: LOAD reads the masked cell; no address faults and the depth does not matter. -/
def Obligations.LoadReadsMaskedCell : Prop :=
  encode .load = [10#16] ∧
  ∀ s : State, exec .load s = .next { s with f := s.cell (BitVec.ofNat 15 (s.f.toNat % 32768)) }

/-- 42_memory_stack.md R96: STORE writes between its two pops, so the second pop sees the write. -/
def Obligations.StoreWritesBetweenPops : Prop :=
  encode .store = [11#16] ∧
  ∀ s : State, s.mem.wf = true →
    (s.CanPop → 31744 < (s.S - 1#15).toNat → ∃ t, exec .store s = .next t ∧ t.S = s.S - 2#15 ∧
      t.f = (if s.S - 1#15 = mask s.f then s.cell s.S else s.cell (s.S - 1#15)) ∧
      (∀ a, t.cell a = if a = mask s.f then s.cell s.S else s.cell a) ∧
      { t with mem := s.mem, f := s.f, S := s.S } = s) ∧
    (¬ (s.CanPop ∧ 31744 < (s.S - 1#15).toNat) → exec .store s = .fault (.undef .dataPop))

/-- 42_memory_stack.md R98, R99, R100: SWAP, DUP and DROP. -/
def Obligations.ShufflesExchangeDuplicateDrop : Prop :=
  encode .swap = [12#16] ∧ encode .dup = [13#16] ∧ encode .drop = [14#16] ∧
  ∀ s : State, s.mem.wf = true →
    (s.CanPop → ∃ t, exec .swap s = .next t ∧ t.f = s.cell s.S ∧
      (∀ a, t.cell a = if a = s.S then s.f else s.cell a) ∧ { t with mem := s.mem, f := s.f } = s) ∧
    (s.CanPush → ∃ t, exec .dup s = .next t ∧ t.f = s.f ∧ t.S = s.S + 1#15 ∧
      (∀ a, t.cell a = if a = s.S + 1#15 then s.f else s.cell a) ∧ { t with mem := s.mem, S := s.S } = s) ∧
    (s.CanPop → exec .drop s = .next { s with S := s.S - 1#15, f := s.cell s.S }) ∧
    (¬ s.CanPop → exec .swap s = .fault (.undef .dataPop) ∧ exec .drop s = .fault (.undef .dataPop)) ∧
    (¬ s.CanPush → exec .dup s = .fault (.undef .dataPush))

/-- 42_memory_stack.md R102, R103: TOR and FROMR move the top between the stacks; the return-stack check comes first. -/
def Obligations.TransfersMoveTopBetweenStacks : Prop :=
  encode .tor = [15#16] ∧ encode .fromr = [16#16] ∧
  ∀ s : State, s.mem.wf = true →
    (s.CanRPush → s.CanPop → ∃ t, exec .tor s = .next t ∧ t.f = s.cell s.S ∧ t.S = s.S - 1#15 ∧
      (∀ a, t.cell a = if a = mask (s.cell 1#15 + 1#16) then s.f
        else if a = 1#15 then s.cell 1#15 + 1#16 else s.cell a) ∧
      { t with mem := s.mem, f := s.f, S := s.S } = s) ∧
    (¬ s.CanRPush → exec .tor s = .fault (.undef .returnPush)) ∧
    (s.CanRPush → ¬ s.CanPop → exec .tor s = .fault (.undef .dataPop)) ∧
    (s.CanRPop → s.CanPush → ∃ t, exec .fromr s = .next t ∧ t.f = s.cell (mask (s.cell 1#15)) ∧
      t.S = s.S + 1#15 ∧
      (∀ a, t.cell a = if a = s.S + 1#15 then s.f
        else if a = 1#15 then s.cell 1#15 - 1#16 else s.cell a) ∧
      { t with mem := s.mem, f := s.f, S := s.S } = s) ∧
    (¬ s.CanRPop → exec .fromr s = .fault (.undef .returnPop)) ∧
    (s.CanRPop → ¬ s.CanPush → exec .fromr s = .fault (.undef .dataPush))

/-! ### Jumps -/

/-- 43_branch.md R105, R106: JMP adds the signed offset to the address of the offset cell, modulo 32768; JMPZ does so
exactly when `f` is 0, steps over the offset cell otherwise, and pops either way. -/
def Obligations.JumpsAddSignedOffset : Prop :=
  (∀ off, encode (.jmp off) = [17#16, off]) ∧ (∀ off, encode (.jmpz off) = [18#16, off]) ∧
  (∀ (xt : Addr) (s : State), s.cell xt = 17#16 → decodeAt xt s = .ok (.jmp (s.cell s.I))) ∧
  (∀ (xt : Addr) (s : State), s.cell xt = 18#16 → decodeAt xt s = .ok (.jmpz (s.cell s.I))) ∧
  ∀ (off : Word) (s : State),
    (∃ a : Addr, exec (.jmp off) s = .next { s with I := a } ∧
      (a.toNat : Int) = ((s.I.toNat : Int) + off.toInt) % 32768) ∧
    (s.CanPop → s.f = 0#16 → ∃ a : Addr,
      exec (.jmpz off) s = .next { s with I := a, S := s.S - 1#15, f := s.cell s.S } ∧
      (a.toNat : Int) = ((s.I.toNat : Int) + off.toInt) % 32768) ∧
    (s.CanPop → s.f ≠ 0#16 →
      exec (.jmpz off) s = .next { s with I := s.I + 1#15, S := s.S - 1#15, f := s.cell s.S }) ∧
    (¬ s.CanPop → exec (.jmpz off) s = .fault (.undef .dataPop))

/-! ### Numeric and character I/O -/

/-- 44_char_io.md R109, R110: PNUM prints `f` in the radix `HEX` selects, then a space; EMIT sends bits 7:0 of `f`;
both pop. What the digits of a number are is the statement PrintedNumbersReadBack. -/
def Obligations.PnumAndEmitSendAndPop : Prop :=
  encode .pnum = [19#16] ∧ encode .emit = [20#16] ∧
  ∀ s : State,
    (s.CanPop →
      exec .pnum s = .next { s with
        output := s.output ++ (numberText (if s.cell 9#15 = 0#16 then 10 else 16) s.f ++ [0x20#8]),
        S := s.S - 1#15, f := s.cell s.S } ∧
      exec .emit s = .next { s with
        output := s.output ++ [BitVec.ofNat 8 (s.f.toNat % 256)], S := s.S - 1#15, f := s.cell s.S }) ∧
    (¬ s.CanPop → exec .pnum s = .fault (.undef .dataPop) ∧ exec .emit s = .fault (.undef .dataPop))

/-- 44_char_io.md R109 and 45_compiler.md R114: the printed text of every cell is digits of its radix, lower case, with
no leading zero, and reads back as that cell; with a leading minus it reads back as its negative. -/
def Obligations.PrintedNumbersReadBack : Prop :=
  ∀ (radix : Nat), radix = 10 ∨ radix = 16 → ∀ v : Word,
    parseNum (numberText radix v) radix = some v ∧
    parseNum (0x2D#8 :: numberText radix v) radix = some (0#16 - v) ∧
    digitsValue radix 0 (numberText radix v) = some v.toNat ∧
    (∀ c ∈ numberText radix v, (48 ≤ c.toNat ∧ c.toNat ≤ 57) ∨ (97 ≤ c.toNat ∧ c.toNat ≤ 102)) ∧
    (v ≠ 0#16 → (numberText radix v).head? ≠ some 0x30#8) ∧ numberText radix 0#16 = [0x30#8]

/-- 44_char_io.md R111: KEY pushes the next input byte, or 0xFFFF at end of stream. -/
def Obligations.KeyPushesNextByteOrAllOnes : Prop :=
  encode .key = [21#16] ∧
  ∀ s : State, s.mem.wf = true →
    (s.CanPush → ∃ t, exec .key s = .next t ∧ t.S = s.S + 1#15 ∧
      (∀ a, t.cell a = if a = s.S + 1#15 then s.f else s.cell a) ∧
      (streamBytes s.input = [] → t.f = 0xFFFF#16 ∧ t.input = []) ∧
      (∀ b bs, streamBytes s.input = b :: bs → t.f = b.setWidth 16 ∧ streamBytes t.input = bs) ∧
      { t with mem := s.mem, f := s.f, S := s.S, input := s.input } = s) ∧
    (¬ s.CanPush → exec .key s = .fault (.undef .dataPush))

/-! ### Outer interpreter and compiler -/

/-- 45_compiler.md R119, 70_reset_and_hazards.md R154: READ, case by case in the order of its pseudocode. That the status
stands in the list `replies` is the model's choice (log 9). -/
def Obligations.ReadHandlesOneToken : Prop :=
  encode .read = [28#16] ∧
  ∀ s : State,
    (¬ s.CanRPop → exec .read s = .fault (.undef .returnPop)) ∧
    (s.CanRPop →
      (∀ rest, readToken s.input = (none, rest) →
        exec .read s = .next { s.setCell 1#15 (s.cell 1#15 - 1#16) with
          input := rest, NXT := none, mode := .idle, replies := s.replies ++ [.runStatus 0#16] }) ∧
      ∀ tok rest, readToken s.input = (some tok, rest) →
        ∀ u, u = storeString 16384#15 tok { s.setCell 1#15 (s.cell 1#15 - 1#16) with input := rest } →
          (find u = none → exec .read s = .fault (.hung .findCycle)) ∧
          (∀ w, find u = some w → w ≠ 32#15 → exec .read s = .next { u with NXT := some (w + 2#15) }) ∧
          (find u = some 32#15 →
            (parseNum tok (if u.cell 9#15 = 0#16 then 10 else 16) = none →
              exec .read s = .next { u with errors := u.errors ++ [.diag (.undefinedWord tok)] }) ∧
            ∀ n, parseNum tok (if u.cell 9#15 = 0#16 then 10 else 16) = some n →
              (u.cell 8#15 = 0#16 → u.CanPush → exec .read s = .next (u.pushed n)) ∧
              (u.cell 8#15 = 0#16 → ¬ u.CanPush → exec .read s = .fault (.undef .dataPush)) ∧
              (u.cell 8#15 ≠ 0#16 → exec .read s = .next ((u.append 2#16).append n))))

/-- 45_compiler.md R113: the token reader. -/
def Obligations.ReadTokenSplitsAtWhitespace : Prop :=
  (∀ b : Byte, isSpace b = true ↔ b ∈ [0x20#8, 0x09#8, 0x0A#8, 0x0B#8, 0x0C#8, 0x0D#8]) ∧
  ∀ inp : List InputSlot,
    (∀ rest, readToken inp = (none, rest) → rest = [] ∧ ∀ b ∈ streamBytes inp, isSpace b = true) ∧
    (∀ tok rest, readToken inp = (some tok, rest) → ∃ ws, streamBytes inp = ws ++ tok ++ streamBytes rest ∧
      (∀ b ∈ ws, isSpace b = true) ∧ 1 ≤ tok.length ∧ tok.length ≤ 31 ∧ (∀ b ∈ tok, isSpace b = false) ∧
      (tok.length = 31 ∨ streamBytes rest = [] ∨ ∃ c cs, streamBytes rest = c :: cs ∧ isSpace c = true))

/-- 45_compiler.md R114: the parser answers the exact value modulo 2^16, negated after a minus, and fails exactly on a
token without digits or with a byte that is no digit of the radix. -/
def Obligations.ParseNumGivesValueModuloCell : Prop :=
  (∀ (c : Byte) (d : Nat), digitValue c = some d ↔
    (48 ≤ c.toNat ∧ c.toNat ≤ 57 ∧ c.toNat = 48 + d) ∨ (97 ≤ c.toNat ∧ c.toNat ≤ 122 ∧ c.toNat = 87 + d) ∨
      (65 ≤ c.toNat ∧ c.toNat ≤ 90 ∧ c.toNat = 55 + d)) ∧
  ∀ (radix : Nat), radix = 10 ∨ radix = 16 → ∀ tok : List Byte,
    (tok.head? ≠ some 0x2D#8 →
      parseNum tok radix = if tok = [] then none else (digitsValue radix 0 tok).map (BitVec.ofNat 16)) ∧
    (∀ ds, tok = 0x2D#8 :: ds →
      parseNum tok radix = if ds = [] then none else (digitsValue radix 0 ds).map (fun v => BitVec.ofInt 16 (-(v : Int))))

/-- 45_compiler.md R116: StrEq is equality of the two NUL-terminated strings, when the second ends within the cells
compared. -/
def Obligations.StrEqComparesNulTerminatedStrings : Prop :=
  ∀ (m : Memory) (fuel : Nat) (a b : Addr) (n : Nat), n < fuel → EndsAfter m b n →
    (strEq m fuel a b = true ↔
      ∀ i ≤ n, cellRead m (a + BitVec.ofNat 15 i) = cellRead m (b + BitVec.ofNat 15 i))

/-- 45_compiler.md R117: Find answers the newest matching entry; where it gives up, no number of further links reaches
a match; and the sentinel, whose name is the token buffer, matches every token. -/
def Obligations.FindAnswersNewestMatchOrNeverEnds : Prop :=
  ∀ s : State,
    (∀ w, find s = some w → ∃ k < 32768, entryAfter s.mem k s.LATEST = w ∧ nameMatches s.mem w = true ∧
      ∀ j < k, nameMatches s.mem (entryAfter s.mem j s.LATEST) = false) ∧
    (find s = none → ∀ k, nameMatches s.mem (entryAfter s.mem k s.LATEST) = false) ∧
    ∀ n < 32, s.cell 33#15 = 0#16 → EndsAfter s.mem 16384#15 n → nameMatches s.mem 32#15 = true

/-- 45_compiler.md R115, R118: a new entry, with its name and header apart from each other and from `DP`, is linked to
the old newest entry, has its name stored NUL-terminated, and is what Find then answers for that name. -/
def Obligations.NewEntryShadowsOlderNames : Prop :=
  ∀ (tok : List Byte) (s : State), s.mem.wf = true → 1 ≤ tok.length → tok.length ≤ 31 →
    (∀ c ∈ tok, c ≠ 0#8) → 32 ≤ s.STRP.toNat → s.STRP.toNat + tok.length < 15360 →
    32 ≤ (s.cell 0#15).toNat → (s.cell 0#15).toNat + 2 ≤ 16384 →
    ∃ t, t = makeEntry tok s ∧ t.LATEST = mask (s.cell 0#15) ∧ t.STRP = s.STRP + BitVec.ofNat 16 (tok.length + 1) ∧
      t.cell 0#15 = s.cell 0#15 + 2#16 ∧ t.cell (mask (s.cell 0#15)) = s.LATEST.setWidth 16 ∧
      t.cell (mask (s.cell 0#15) + 1#15) = s.STRP ∧
      (∀ i, i < tok.length →
        t.cell (16384#15 + mask s.STRP + BitVec.ofNat 15 i) = (tok.getD i 0#8).setWidth 16) ∧
      t.cell (16384#15 + mask s.STRP + BitVec.ofNat 15 tok.length) = 0#16 ∧
      find (storeString 16384#15 tok t) = some (mask (s.cell 0#15))

/-- 45_compiler.md R120, 60_exceptions.md R136: DEFINE enters Compiling, then makes the entry and its two code cells, or,
at end of input, raises the fatal fault with `STATE` already 1. That the status stands in the list `replies` is the
model's choice (log 9). -/
def Obligations.DefineStartsDefinitionOrFaults : Prop :=
  encode .define = [22#16] ∧
  ∀ s : State,
    (∀ tok rest, readToken s.input = (some tok, rest) →
      exec .define s = .next (((makeEntry tok { s.setCell 8#15 1#16 with input := rest }).append 1#16).append 2#16)) ∧
    (∀ rest, readToken s.input = (none, rest) →
      exec .define s = .next { s.setCell 8#15 1#16 with
        input := rest, INVALID := true, errors := s.errors ++ [.fatal .nameRead], NXT := none, mode := .idle,
        replies := s.replies ++ [.runStatus 1#16] })

/-- 45_compiler.md R121: IMMEDIATE. -/
def Obligations.ImmediateReplacesTwoCellsByRun : Prop :=
  encode .immediate = [23#16] ∧
  ∀ s : State, s.mem.wf = true → ∃ t, exec .immediate s = .next t ∧
    (∀ a, t.cell a = if a = 0#15 then s.cell 0#15 - 2#16 + 1#16
      else if a = mask (s.cell 0#15 - 2#16) then 2#16 else s.cell a) ∧
    { t with mem := s.mem } = s

/-- 45_compiler.md R122: COMMENT consumes through the next 0x0A, or to end of stream. -/
def Obligations.CommentConsumesThroughLineEnd : Prop :=
  encode .comment = [24#16] ∧
  ∀ s : State, ∃ inp, exec .comment s = .next { s with input := inp } ∧
    (0x0A#8 ∉ streamBytes s.input → inp = []) ∧
    ∀ line rest, streamBytes s.input = line ++ 0x0A#8 :: rest → 0x0A#8 ∉ line → streamBytes inp = rest

/-- 45_compiler.md R123: COMMA appends `f` first and pops after it, so the pop sees the append. -/
def Obligations.CommaAppendsThenPops : Prop :=
  encode .comma = [25#16] ∧
  ∀ s : State, s.mem.wf = true →
    (s.CanPop → ∃ t, exec .comma s = .next t ∧ t.S = s.S - 1#15 ∧ t.f = t.cell s.S ∧
      (∀ a, t.cell a =
        if a = 0#15 then s.cell 0#15 + 1#16 else if a = mask (s.cell 0#15) then s.f else s.cell a) ∧
      { t with mem := s.mem, f := s.f, S := s.S } = s) ∧
    (¬ s.CanPop → exec .comma s = .fault (.undef .dataPop))

/-! ### The block controller -/

/-- 46_block.md R131, R132: BSAVE and BLOAD pop the offset, make the request with `f` as the id, and leave the status
in `f` last of all. -/
def Obligations.BlockOpcodesLeaveStatus : Prop :=
  encode .bsave = [26#16] ∧ encode .bload = [27#16] ∧
  ∀ s : State,
    (s.CanPop →
      exec .bsave s = .next { (blockIO (s.cell s.S) s.f .write { s with S := s.S - 1#15 }).2 with
        f := (blockIO (s.cell s.S) s.f .write { s with S := s.S - 1#15 }).1 } ∧
      exec .bload s = .next { (blockIO (s.cell s.S) s.f .read { s with S := s.S - 1#15 }).2 with
        f := (blockIO (s.cell s.S) s.f .read { s with S := s.S - 1#15 }).1 }) ∧
    (¬ s.CanPop → exec .bsave s = .fault (.undef .dataPop) ∧ exec .bload s = .fault (.undef .dataPop))

/-- 46_block.md R127: a request whose mode is neither, or whose block leaves the arena, is rejected with a diagnostic
and touches nothing else. -/
def Obligations.BadBlockRequestsAreRejected : Prop :=
  ∀ (off id : Word) (mode : BlockMode) (s : State),
    ((∀ code, mode = .other code → blockIO off id mode s =
      (0xFFFF#16, { s with errors := s.errors ++ [.diag (.blockRequest off id mode)] })) ∧
    (65536 < off.toNat + 1024 → blockIO off id mode s =
      (0xFFFF#16, { s with errors := s.errors ++ [.diag (.blockRequest off id mode)] })))

/-- 46_block.md R127, R128; how the host's answer comes is the model's (log 5): a valid write; the file is exactly the
1024 bytes when the host answers ok, and after a failure it is absent, old, or a prefix of them. The arena and every
other file are unchanged. -/
def Obligations.BlockWriteStoresFileOrFails : Prop :=
  ∀ (off id : Word) (s : State), Store.wf s.store = true → off.toNat + 1024 ≤ 65536 →
    ∃ st u, blockIO off id .write s = (st, u) ∧ u.mem = s.mem ∧
      (∀ name, name ≠ blockName id → lookup name u.store = lookup name s.store) ∧
      ((st = 0#16 ∧ u.errors = s.errors ∧ ∃ data, lookup (blockName id) u.store = some data ∧
          data.length = 1024 ∧ ∀ i < 1024, data.getD i 0#8 = byteRead s.mem (off.toNat + i)) ∨
        (st = 0xFFFF#16 ∧ u.errors = s.errors ++ [.diag (.blockTransfer off id .write)] ∧
          (lookup (blockName id) u.store = none ∨ lookup (blockName id) u.store = lookup (blockName id) s.store ∨
            ∃ k, lookup (blockName id) u.store = some ((readBytes s.mem off.toNat 1024).take k)))) ∧
      (∀ rest, s.writeAnswers = .ok :: rest → st = 0#16 ∧ u.writeAnswers = rest) ∧
      { u with store := s.store, errors := s.errors, writeAnswers := s.writeAnswers, draws := s.draws } = s

/-- 46_block.md R127, R129: a valid read; a missing file changes nothing, a file of 1024 bytes or more fills the block,
and a shorter one leaves the block's bytes free and every other byte as it was. -/
def Obligations.BlockReadFillsBlockOrFails : Prop :=
  ∀ (off id : Word) (s : State), s.mem.wf = true → off.toNat + 1024 ≤ 65536 →
    (lookup (blockName id) s.store = none → blockIO off id .read s =
      (0xFFFF#16, { s with errors := s.errors ++ [.diag (.blockTransfer off id .read)] })) ∧
    (∀ data, lookup (blockName id) s.store = some data →
      ∃ st u, blockIO off id .read s = (st, u) ∧
        (∀ b, b < off.toNat ∨ off.toNat + 1024 ≤ b → byteRead u.mem b = byteRead s.mem b) ∧
        (1024 ≤ data.length → st = 0#16 ∧ { u with mem := s.mem } = s ∧
          ∀ i < 1024, byteRead u.mem (off.toNat + i) = data.getD i 0#8) ∧
        (data.length < 1024 → st = 0xFFFF#16 ∧
          u.errors = s.errors ++ [.diag (.blockTransfer off id .read)] ∧
          { u with mem := s.mem, errors := s.errors, draws := s.draws } = s))

/-- 46_block.md R126: the name is four lower-case hexadecimal digits and `.blk`, and distinct ids have distinct names.
-/
def Obligations.BlockNamesAreDistinct : Prop :=
  (∀ d < 16, (digitChar d).toNat = if d < 10 then 48 + d else 87 + d) ∧
  (∀ id : Word, blockName id =
    [digitChar (id.toNat / 4096 % 16), digitChar (id.toNat / 256 % 16), digitChar (id.toNat / 16 % 16),
      digitChar (id.toNat % 16), 0x2E#8, 0x62#8, 0x6C#8, 0x6B#8]) ∧
  ∀ id id' : Word, blockName id = blockName id' → id = id'

/-- 46_block.md R130: a read of an id after a successful write of it brings back the bytes written, at any offset. -/
def Obligations.SavedBlockLoadsBack : Prop :=
  ∀ (off off' id : Word) (s t : State), Inv s → off'.toNat + 1024 ≤ 65536 → blockIO off id .write s = (0#16, t) →
    ∃ u, blockIO off' id .read t = (0#16, u) ∧
      ∀ i < 1024, byteRead u.mem (off'.toNat + i) = byteRead s.mem (off.toNat + i)

/-! ### Memory -/

/-- 20_memory.md R57: ByteRead gives one half of a cell, low byte first, and ByteWrite replaces one half. -/
def Obligations.ByteViewIsLittleEndian : Prop :=
  ∀ (m : Memory), m.wf = true → ∀ b < 65536, ∀ v : Byte,
    byteRead m b = (if b % 2 = 0 then (cellRead m (BitVec.ofNat 15 (b / 2))).setWidth 8
      else (cellRead m (BitVec.ofNat 15 (b / 2)) >>> 8).setWidth 8) ∧
    ∀ a : Addr, cellRead (byteWrite m b v) a =
      if a.toNat ≠ b / 2 then cellRead m a
      else if b % 2 = 0 then (cellRead m a &&& 0xFF00#16) ||| v.setWidth 16
      else (cellRead m a &&& 0x00FF#16) ||| (v.setWidth 16 <<< 8)

/-- 20_memory.md R50 and 30_encoding.md R66: bit 15 of an address makes no difference, to a LOAD, to a STORE or to a
token. -/
def Obligations.AddressBit15IsIgnored : Prop :=
  ∀ (v : Word) (s : State),
    exec .load { s with f := v ^^^ 0x8000#16 } = exec .load { s with f := v } ∧
    exec .store { s with f := v ^^^ 0x8000#16 } = exec .store { s with f := v } ∧
    mask (v ^^^ 0x8000#16) = mask v

/-! ### Frames -/

/-- 20_memory.md R55 and the opcode rules: the forms that store nothing leave every byte of the arena as it was. -/
def Obligations.NonStoringOpcodesKeepEveryByte : Prop :=
  ∀ (i : Instr) (s t : State), exec i s = .next t →
    ((i = .sub ∨ i = .add ∨ i = .mul ∨ i = .div ∨ i = .uless ∨ i = .equal ∨ i = .load ∨ i = .drop ∨
      (∃ off, i = .jmp off) ∨ (∃ off, i = .jmpz off) ∨ i = .pnum ∨ i = .emit ∨ i = .comment ∨ i = .bsave) ∨
      ((∃ x, i = .compile x) ∧ s.cell 8#15 = 0#16)) →
    SameArena s t

/-- 42_memory_stack.md R96, R98, R99, 40_threading.md R83 to R86, R102, R103, 44_char_io.md R111: the forms that store
to the stacks or to the cell `f` addresses leave every other byte as it was. -/
def Obligations.StackOpcodesKeepOtherBytes : Prop :=
  ∀ (s t : State), s.mem.wf = true →
    (∀ lit, exec (.push lit) s = .next t → SameOutside [s.S + 1#15] s t) ∧
    (exec .dup s = .next t → SameOutside [s.S + 1#15] s t) ∧
    (exec .key s = .next t → SameOutside [s.S + 1#15] s t) ∧
    (exec .swap s = .next t → SameOutside [s.S] s t) ∧
    (exec .store s = .next t → SameOutside [absoluteAddr s] s t) ∧
    (∀ x, exec (.run x) s = .next t → SameOutside [rspCell, mask (s.RSP + 1#16)] s t) ∧
    (exec .exit s = .next t → SameOutside [rspCell] s t) ∧
    (exec .tor s = .next t → SameOutside [rspCell, mask (s.RSP + 1#16)] s t) ∧
    (exec .fromr s = .next t → SameOutside [rspCell, s.S + 1#15] s t)

/-- 40_threading.md R84, 45_compiler.md R115, R120, R121, R123: the forms that append leave every byte as it was but
those of the cells appended to, of `DP`, and, for DEFINE, of `STATE` and of the name. -/
def Obligations.DictionaryOpcodesKeepOtherBytes : Prop :=
  ∀ (s t : State), s.mem.wf = true →
    (∀ x, s.cell 8#15 ≠ 0#16 → exec (.compile x) s = .next t → SameOutside (appendCells s.DP 1) s t) ∧
    (exec .comma s = .next t → SameOutside (appendCells s.DP 1) s t) ∧
    (exec .immediate s = .next t → SameOutside (appendCells (s.DP - 2#16) 1) s t) ∧
    (exec .define s = .next t →
      (∀ rest, readToken s.input = (none, rest) → SameOutside [stateCell] s t) ∧
      ∀ tok rest, readToken s.input = (some tok, rest) →
        SameOutside (stateCell :: stringCells (nameCell s.STRP) tok.length ++
          appendCells (storeString (nameCell s.STRP) tok (s.setCell stateCell 1#16)).DP 4) s t)

/-- 45_compiler.md R119: READ writes `RSP` and the token buffer, and then at most one stack cell or two appended cells
and `DP`. -/
def Obligations.ReadKeepsOtherBytes : Prop :=
  ∀ (s t : State), s.mem.wf = true → exec .read s = .next t →
    (∀ rest, readToken s.input = (none, rest) → SameOutside [rspCell] s t) ∧
    ∀ tok rest, readToken s.input = (some tok, rest) →
      (s.cell 8#15 = 0#16 → SameOutside (rspCell :: (s.S + 1#15) :: stringCells Config.tokBuf tok.length) s t) ∧
      (s.cell 8#15 ≠ 0#16 → SameOutside (rspCell :: stringCells Config.tokBuf tok.length ++ appendCells s.DP 2) s t)

/-- 46_block.md R132: BLOAD leaves every byte outside the 1024 bytes from the offset popped as it was. -/
def Obligations.BloadKeepsBytesOutsideBlock : Prop :=
  ∀ (s t : State), s.mem.wf = true → exec .bload s = .next t →
    ∀ b, b < s.second.toNat ∨ s.second.toNat + 1024 ≤ b → byteRead t.mem b = byteRead s.mem b

/-- 10_state.md R22, R23, R25 to R28, R43 to R45: which opcodes change each engine register, channel and host-side
field, from an opcode that starts with the latch empty, as every dispatched opcode does. The clauses on `writeAnswers`,
`draws`, `replies` and `calls` are about the model's own fields (log 5, log 7, log 9, log 3). -/
def Obligations.RegistersChangeOnlyWhereNamed : Prop :=
  ∀ (i : Instr) (s t : State), s.NXT = none → exec i s = .next t →
    (t.I = s.I ∨ (∃ v, i = .push v) ∨ (∃ x, i = .run x) ∨ i = .exit ∨ (∃ v, i = .jmp v) ∨ ∃ v, i = .jmpz v) ∧
    (t.f = s.f ∨ ¬ ((∃ x, i = .compile x) ∨ (∃ x, i = .run x) ∨ i = .exit ∨ (∃ v, i = .jmp v) ∨ i = .dup ∨
      i = .define ∨ i = .immediate ∨ i = .comment)) ∧
    (t.LATEST = s.LATEST ∧ t.STRP = s.STRP ∨ i = .define) ∧
    (t.NXT = none ∨ (∃ x, i = .compile x) ∨ i = .read) ∧
    (t.INVALID = s.INVALID ∨ i = .define) ∧
    (t.mode = s.mode ∧ t.replies = s.replies ∨ i = .read ∨ i = .define) ∧
    (t.input = s.input ∨ i = .key ∨ i = .read ∨ i = .define ∨ i = .comment) ∧
    (t.output = s.output ∨ i = .pnum ∨ i = .emit) ∧
    (t.errors = s.errors ∨ i = .div ∨ i = .read ∨ i = .define ∨ i = .bsave ∨ i = .bload) ∧
    (t.store = s.store ∧ t.writeAnswers = s.writeAnswers ∨ i = .bsave) ∧
    (t.draws = s.draws ∨ i = .bsave ∨ i = .bload) ∧ t.calls = s.calls

/-- 30_encoding.md R75: every opcode that completes moves `S` by its stack effect; READ by one cell or none. -/
def Obligations.StackPointerMovesByStackEffect : Prop :=
  ∀ (i : Instr) (s t : State), exec i s = .next t →
    (∀ d, stackMove i = some d → t.S = s.S + d) ∧ (i = .read → t.S = s.S ∨ t.S = s.S + 1#15)

/-! ### Whole-machine rules -/

/-- The invariant of the engine holds at every state a step leads to (10_state.md R24, R27, 60_exceptions.md R137,
70_reset_and_hazards.md R154, R157); the canonical forms in it are the model's (log 1, log 10). -/
def Obligations.EveryStepKeepsInvariant : Prop := ∀ s t : State, Inv s → step s = .next t → Inv t

/-- The invariant holds after initialisation. -/
def Obligations.InvariantHoldsAtReset : Prop := Inv State.reset

/-- 60_exceptions.md R139: a step sends at most one event to the error channel. -/
def Obligations.StepSendsAtMostOneEvent : Prop :=
  ∀ s t : State, step s = .next t → t.errors = s.errors ∨ ∃ e, t.errors = s.errors ++ [e]

/-- 10_state.md R44: a running step consumes input in order from the front, and only appends to the output and error
channels. -/
def Obligations.ChannelsAreConsumedAndExtendedInOrder : Prop :=
  ∀ s t : State, s.mode = .running → step s = .next t →
    (∃ used, s.input = used ++ t.input) ∧ (∃ bs, t.output = s.output ++ bs) ∧ ∃ es, t.errors = s.errors ++ es

/-- 10_state.md R28, 60_exceptions.md R136: only a fatal fault sets `INVALID` during a run, and it ends the run with
status 1, given back in the model's list `replies` (log 9); nothing in a run clears it. -/
def Obligations.OnlyFatalFaultInvalidates : Prop :=
  ∀ s t : State, s.mode = .running → step s = .next t →
    (s.INVALID = true → t.INVALID = true) ∧
    (s.INVALID = false → t.INVALID = true → t.mode = .idle ∧ t.NXT = none ∧
      t.replies = s.replies ++ [.runStatus 1#16] ∧ ∃ r, t.errors = s.errors ++ [.fatal r])

/-- 60_exceptions.md R137, R138: which opcodes can raise each stuck outcome; and no opcode is refused. -/
def Obligations.StuckOutcomesComeFromNamedOpcodes : Prop :=
  ∀ (i : Instr) (s : State),
    (exec i s = .fault (.undef .returnPop) → (i = .exit ∨ i = .fromr ∨ i = .read) ∧ ¬ s.CanRPop) ∧
    (exec i s = .fault (.undef .returnPush) → ((∃ x, i = .run x) ∨ i = .tor) ∧ ¬ s.CanRPush) ∧
    (exec i s = .fault (.undef .dataPop) → (stackMove i = some (-1#15) ∨ i = .store ∨ i = .swap) ∧
      (¬ s.CanPop ∨ i = .store)) ∧
    (exec i s = .fault (.undef .dataPush) →
      ((∃ v, i = .push v) ∨ i = .dup ∨ i = .fromr ∨ i = .key ∨ i = .read) ∧ ¬ s.CanPush) ∧
    (exec i s = .fault (.hung .findCycle) → i = .read) ∧
    ∀ r, exec i s ≠ .refused r

/-- 44_char_io.md R107, 60_exceptions.md R149, 70_reset_and_hazards.md R162: when the bytes arrive makes no difference
to what an opcode does; the waits are the model's (log 4). -/
def Obligations.ArrivalTimesMakeNoDifference : Prop :=
  ∀ (i : Instr) (s : State),
    (∀ t, exec i s = .next t →
      exec i { s with input := dropWaits s.input } = .next { t with input := dropWaits t.input }) ∧
    ∀ r, exec i s = .fault r → exec i { s with input := dropWaits s.input } = .fault r

/-! ### Reset, boot and the host -/

/-- 10_state.md R48: the reset values. -/
def Obligations.ResetValuesAsListed : Prop :=
  State.reset.I = 37#15 ∧ State.reset.f = 0#16 ∧ State.reset.S = 31744#15 ∧ State.reset.LATEST = 140#15 ∧
  State.reset.STRP = 127#16 ∧ State.reset.NXT = none ∧ State.reset.INVALID = false ∧ State.reset.mode = .idle ∧
  State.reset.cell 0#15 = 144#16 ∧ State.reset.cell 1#15 = 32256#16 ∧
  (∀ a : Addr, 2 ≤ a.toNat → a.toNat < 32 → State.reset.cell a = 0#16) ∧
  (∀ a : Addr, 144 ≤ a.toNat → a.toNat < 16416 → State.reset.cell a = 0#16) ∧
  ∀ a : Addr, 16511 ≤ a.toNat → State.reset.cell a = 0#16

/-- 70_reset_and_hazards.md R151, R152: the reset sequence, run statement by statement on an engine that holds anything,
leaves the reset state, whose image is the spec's own inference from that sequence; what the host holds stays. -/
def Obligations.ResetSequenceLeavesResetState : Prop :=
  ∀ s : State, s.mem.wf = true → resetSequence s = { State.reset with
    input := s.input, output := s.output, errors := s.errors, store := s.store, writeAnswers := s.writeAnswers,
    calls := s.calls, replies := s.replies, draws := s.draws }

/-- 70_reset_and_hazards.md R150, as the function `newEngine` (log 16, log 2): initialisation fails exactly when the
input or the output channel is absent; the channels it is given are the engine's. -/
def Obligations.InitialisationNeedsInputAndOutput : Prop :=
  ∀ (st : Store) (answers : List WriteAnswer),
    (∀ output, newEngine none output st answers = none) ∧ (∀ input, newEngine input none st answers = none) ∧
    ∀ inp out, newEngine (some inp) (some out) st answers =
      some { State.reset with input := inp, output := out, store := st, writeAnswers := answers }

/-- 70_reset_and_hazards.md R154: `run` is refused on an invalidated engine, with status 1 and no other change, and
otherwise starts at 37 with the latch empty. The list of calls is the model's, and so is that the engine stays as it is
with no call pending (log 3); the list `replies` is the model's too (log 9). -/
def Obligations.RunStartsAtBootEntryOrIsRefused : Prop :=
  ∀ s : State, s.mode = .idle →
    (∀ rest, s.calls = .run :: rest → s.INVALID = true →
      step s = .next { s with calls := rest, replies := s.replies ++ [.runStatus 1#16] }) ∧
    (∀ rest, s.calls = .run :: rest → s.INVALID = false →
      step s = .next { s with calls := rest, I := 37#15, NXT := none, mode := .running }) ∧
    (s.calls = [] → step s = .next s)

/-- 70_reset_and_hazards.md R155, which the spec derives from other rules: the first two steps of the boot loop push 38
and then perform READ, with `I` back at 37 and one return address to drop. -/
def Obligations.BootLoopCallsReadWithOneReturnAddress : Prop :=
  ∀ s : State, s.mem.wf = true → s.mode = .running → s.NXT = none → s.I = 37#15 → s.cell 1#15 = 32256#16 →
    s.cell 34#15 = 28#16 → s.cell 35#15 = 2#16 → s.cell 36#15 = 34#16 → s.cell 37#15 = 35#16 →
    ∃ t, step s = .next t ∧ t.I = 36#15 ∧ t.cell 1#15 = 32257#16 ∧ t.cell 32257#15 = 38#16 ∧
      step t = exec .read { t with I := 37#15 }

/-- 46_block.md R133, as a call of the model's list `calls` (log 3): the host's block_io runs BlockIO,
answers the status in the model's list `replies` (log 9), and changes no engine register. -/
def Obligations.HostBlockIOAnswersStatus : Prop :=
  ∀ (s : State) (off id : Word) (mode : BlockMode) (rest : List HostCall), s.mode = .idle →
    s.calls = .blockIO off id mode :: rest → ∃ st u, blockIO off id mode { s with calls := rest } = (st, u) ∧
      step s = .next { u with replies := u.replies ++ [.blockStatus st] } ∧ u.I = s.I ∧ u.f = s.f ∧ u.S = s.S ∧
      u.LATEST = s.LATEST ∧ u.STRP = s.STRP ∧ u.NXT = s.NXT ∧ u.INVALID = s.INVALID ∧ u.mode = s.mode

/-- 70_reset_and_hazards.md R157: the layout of a snapshot. -/
def Obligations.SnapshotLayoutAsListed : Prop :=
  ∀ s : State, (snapshot s).length = 65548 ∧
    imageWord (snapshot s) 0 = s.I.setWidth 16 ∧ imageWord (snapshot s) 1 = s.f ∧
    imageWord (snapshot s) 2 = s.S.setWidth 16 ∧ imageWord (snapshot s) 3 = s.LATEST.setWidth 16 ∧
    imageWord (snapshot s) 4 = s.STRP ∧ imageWord (snapshot s) 5 = (if s.INVALID then 1#16 else 0#16) ∧
    ∀ a : Addr, imageWord (snapshot s) (6 + a.toNat) = s.cell a

/-- 70_reset_and_hazards.md R158: restoring a snapshot reproduces the arena, the five registers and `INVALID`, and
leaves the channels and the block store as they are. -/
def Obligations.RestoreInvertsSnapshot : Prop :=
  ∀ s u : State, Inv s → restore (snapshot s) u = some { u with
    mem := s.mem, I := s.I, f := s.f, S := s.S, LATEST := s.LATEST, STRP := s.STRP, INVALID := s.INVALID, NXT := none }

/-- 70_reset_and_hazards.md R158, as a call of the model's list `calls` (log 3) answered in `replies` (log 9): an
image that fails a check is not restored, and the engine does not change. -/
def Obligations.BadImagesAreNotRestored : Prop :=
  ∀ (image : List Byte) (s : State),
    (restore image s = none ↔ image.length ≠ 65548 ∨ 32767 < (imageWord image 0).toNat ∨
      32767 < (imageWord image 3).toNat ∨ (imageWord image 2).toNat < 31744 ∨ 32255 < (imageWord image 2).toNat ∨
      1 < (imageWord image 5).toNat) ∧
    ∀ rest, s.mode = .idle → s.calls = .restore image :: rest → restore image { s with calls := rest } = none →
      step s = .next { s with calls := rest, replies := s.replies ++ [.restored false] }
end

