-- ==== Sys2Proof/Laws/Assoc.lean ====
section
/-! SUPPORT. Laws of key and value lists: reading after writing, and that every operation keeps the keys rising. -/

namespace Sys2Proof.Machine

variable {κ ν : Type} [DecidableEq κ]

/-- A strict total order given as a Bool: what the canonical form needs of it. -/
structure StrictOrder (lt : κ → κ → Bool) : Prop where
  irrefl : ∀ a, lt a a = false
  trans : ∀ a b c, lt a b = true → lt b c = true → lt a c = true
  total : ∀ a b, a ≠ b → lt a b = false → lt b a = true

/-- Every key of the list is above `k`. -/
def AllAbove (lt : κ → κ → Bool) (k : κ) (l : List (κ × ν)) : Prop := ∀ p ∈ l, lt k p.1 = true

@[simp] theorem lookup_nil (k : κ) : lookup k ([] : List (κ × ν)) = none := rfl

theorem lookup_cons (k : κ) (p : κ × ν) (l : List (κ × ν)) :
    lookup k (p :: l) = if k = p.1 then some p.2 else lookup k l := rfl

omit [DecidableEq κ] in
theorem rising_cons {lt : κ → κ → Bool} (ho : StrictOrder lt) (p : κ × ν) (l : List (κ × ν)) :
    rising lt (p :: l) = true ↔ AllAbove lt p.1 l ∧ rising lt l = true := by
  induction l generalizing p with
  | nil => simp [rising, AllAbove]
  | cons q l ih =>
    obtain ⟨k, v⟩ := p
    obtain ⟨k', v'⟩ := q
    have hq := ih (k', v')
    constructor
    · intro h
      simp only [rising, Bool.and_eq_true] at h
      refine ⟨?_, h.2⟩
      intro r hr
      rcases List.mem_cons.mp hr with rfl | hr
      · exact h.1
      · exact ho.trans _ _ _ h.1 ((hq.mp h.2).1 r hr)
    · intro h
      simp only [rising, Bool.and_eq_true]
      exact ⟨h.1 (k', v') (List.mem_cons_self), h.2⟩

theorem lookup_of_allAbove {lt : κ → κ → Bool} (ho : StrictOrder lt) {k : κ} {l : List (κ × ν)}
    (h : AllAbove lt k l) : lookup k l = none := by
  induction l with
  | nil => rfl
  | cons p l ih =>
    have hk : k ≠ p.1 := by
      intro e
      have hp := h p List.mem_cons_self
      rw [← e, ho.irrefl] at hp
      exact Bool.noConfusion hp
    rw [lookup_cons, if_neg hk]
    exact ih fun q hq => h q (List.mem_cons_of_mem _ hq)

/-- Reading after writing: the key written gives the value, every other key what it gave. -/
theorem lookup_insertKey (lt : κ → κ → Bool) (k k' : κ) (v : ν) (l : List (κ × ν)) :
    lookup k' (insertKey lt k v l) = if k' = k then some v else lookup k' l := by
  induction l with
  | nil => simp [insertKey, lookup]
  | cons p l ih =>
    obtain ⟨j, w⟩ := p
    simp only [insertKey]
    split
    · next e => subst e; simp only [lookup]; split <;> simp_all
    · next e =>
      split
      · simp only [lookup]
      · simp only [lookup, ih]
        by_cases h1 : k' = j <;> by_cases h2 : k' = k <;> simp_all

/-- Reading after erasing: the key erased gives nothing, every other key what it gave. -/
theorem lookup_eraseKey {lt : κ → κ → Bool} (ho : StrictOrder lt) (k k' : κ) {l : List (κ × ν)}
    (h : rising lt l = true) : lookup k' (eraseKey k l) = if k' = k then none else lookup k' l := by
  induction l with
  | nil => simp [eraseKey]
  | cons p l ih =>
    obtain ⟨j, w⟩ := p
    have hr := (rising_cons ho _ _).mp h
    simp only [eraseKey]
    split
    · next e =>
      subst e
      by_cases h1 : k' = k
      · subst h1; simp [lookup_of_allAbove ho hr.1]
      · simp [lookup, h1]
    · next e =>
      simp only [lookup, ih hr.2]
      by_cases h1 : k' = j
      · subst h1
        have : k' ≠ k := fun e' => e e'.symm
        simp [this]
      · simp [h1]

theorem mem_insertKey {lt : κ → κ → Bool} {k : κ} {v : ν} {l : List (κ × ν)} {p : κ × ν}
    (h : p ∈ insertKey lt k v l) : p = (k, v) ∨ p ∈ l := by
  induction l with
  | nil => simpa [insertKey] using h
  | cons q l ih =>
    obtain ⟨j, w⟩ := q
    simp only [insertKey] at h
    split at h
    · rcases List.mem_cons.mp h with h | h
      · exact .inl h
      · exact .inr (List.mem_cons_of_mem _ h)
    · split at h
      · rcases List.mem_cons.mp h with h | h
        · exact .inl h
        · exact .inr h
      · rcases List.mem_cons.mp h with h | h
        · exact .inr (h ▸ List.mem_cons_self)
        · exact (ih h).imp_right (List.mem_cons_of_mem _)

theorem mem_eraseKey {k : κ} {l : List (κ × ν)} {p : κ × ν} (h : p ∈ eraseKey k l) : p ∈ l := by
  induction l with
  | nil => simp [eraseKey] at h
  | cons q l ih =>
    obtain ⟨j, w⟩ := q
    simp only [eraseKey] at h
    split at h
    · exact List.mem_cons_of_mem _ h
    · rcases List.mem_cons.mp h with h | h
      · exact h ▸ List.mem_cons_self
      · exact List.mem_cons_of_mem _ (ih h)

theorem rising_insertKey {lt : κ → κ → Bool} (ho : StrictOrder lt) (k : κ) (v : ν) {l : List (κ × ν)}
    (h : rising lt l = true) : rising lt (insertKey lt k v l) = true := by
  induction l with
  | nil => simp [insertKey, rising]
  | cons q l ih =>
    obtain ⟨j, w⟩ := q
    have hr := (rising_cons ho _ _).mp h
    simp only [insertKey]
    split
    · next e => subst e; exact (rising_cons ho _ _).mpr hr
    · next e =>
      split
      · next hlt =>
        refine (rising_cons ho _ _).mpr ⟨?_, h⟩
        intro p hp
        rcases List.mem_cons.mp hp with rfl | hp
        · exact hlt
        · exact ho.trans _ _ _ hlt (hr.1 p hp)
      · next hlt =>
        refine (rising_cons ho _ _).mpr ⟨?_, ih hr.2⟩
        intro p hp
        rcases mem_insertKey hp with rfl | hp
        · exact ho.total _ _ e (by simpa using hlt)
        · exact hr.1 p hp

theorem rising_eraseKey {lt : κ → κ → Bool} (ho : StrictOrder lt) (k : κ) {l : List (κ × ν)}
    (h : rising lt l = true) : rising lt (eraseKey k l) = true := by
  induction l with
  | nil => simp [eraseKey, rising]
  | cons q l ih =>
    obtain ⟨j, w⟩ := q
    have hr := (rising_cons ho _ _).mp h
    simp only [eraseKey]
    split
    · exact hr.2
    · exact (rising_cons ho _ _).mpr ⟨fun p hp => hr.1 p (mem_eraseKey hp), ih hr.2⟩

theorem lookup_some_mem {k : κ} {v : ν} {l : List (κ × ν)} (h : lookup k l = some v) : (k, v) ∈ l := by
  induction l with
  | nil => simp at h
  | cons p l ih =>
    obtain ⟨j, w⟩ := p
    simp only [lookup] at h
    split at h
    · next e => subst e; cases h; exact List.mem_cons_self
    · exact List.mem_cons_of_mem _ (ih h)

theorem lookup_eq_of_mem {lt : κ → κ → Bool} (ho : StrictOrder lt) {l : List (κ × ν)} (h : rising lt l = true)
    {p : κ × ν} (hp : p ∈ l) : lookup p.1 l = some p.2 := by
  induction l with
  | nil => simp at hp
  | cons q l ih =>
    have hr := (rising_cons ho _ _).mp h
    rw [lookup_cons]
    rcases List.mem_cons.mp hp with rfl | hp
    · simp
    · have : p.1 ≠ q.1 := by
        intro e
        have := hr.1 p hp
        rw [e, ho.irrefl] at this
        exact Bool.noConfusion this
      rw [if_neg this]
      exact ih hr.2 hp

/-- Two rising lists that list the same under every key are the same list. -/
theorem eq_of_lookup_eq {lt : κ → κ → Bool} (ho : StrictOrder lt) {l m : List (κ × ν)} (hl : rising lt l = true)
    (hm : rising lt m = true) (h : ∀ k, lookup k l = lookup k m) : l = m := by
  induction l generalizing m with
  | nil =>
    cases m with
    | nil => rfl
    | cons p m => have := h p.1; simp [lookup_cons] at this
  | cons p l ih =>
    have hrl := (rising_cons ho _ _).mp hl
    cases m with
    | nil => have := h p.1; simp [lookup_cons] at this
    | cons q m =>
      have hrm := (rising_cons ho _ _).mp hm
      have hk : p.1 = q.1 := by
        by_contra hne
        have h1 := h p.1
        have h2 := h q.1
        rw [lookup_cons, if_pos rfl, lookup_cons, if_neg hne] at h1
        rw [lookup_cons, if_neg (Ne.symm hne), lookup_cons, if_pos rfl] at h2
        have a1 := hrm.1 _ (lookup_some_mem h1.symm)
        have a2 := hrl.1 _ (lookup_some_mem h2)
        have := ho.trans _ _ _ a1 a2
        rw [ho.irrefl] at this
        exact Bool.noConfusion this
      have hv : p.2 = q.2 := by
        have h1 := h p.1
        rw [lookup_cons, if_pos rfl, lookup_cons, if_pos hk] at h1
        exact Option.some.inj h1
      have hpq : p = q := Prod.ext hk hv
      subst hpq
      congr 1
      refine ih hrl.2 hrm.2 fun k => ?_
      have hh := h k
      rw [lookup_cons, lookup_cons] at hh
      by_cases e : k = p.1
      · subst e
        rw [lookup_of_allAbove ho hrl.1, lookup_of_allAbove ho hrm.1]
      · simpa [e] using hh

end Sys2Proof.Machine
end

