-- ==== Sys2Proof/Laws/Memory.lean ====
section
/-! SUPPORT. Laws of the arena: reading after writing, in bytes and in cells, the canonical form, and that two canonical
memories that read alike are equal. The same for the block store. -/

namespace Sys2Proof.Machine

/-! ### The two orders -/

theorem blt_eq_false (a b : Nat) : Nat.blt a b = false ↔ b ≤ a := by
  rw [← Bool.not_eq_true, Nat.blt_eq]; omega

theorem natOrder : StrictOrder Nat.blt where
  irrefl a := (blt_eq_false a a).mpr (Nat.le_refl a)
  trans a b c h1 h2 := by rw [Nat.blt_eq] at *; omega
  total a b h1 h2 := by rw [blt_eq_false] at h2; rw [Nat.blt_eq]; omega

theorem nameLt_irrefl (a : FileName) : nameLt a a = false := by
  induction a with
  | nil => rfl
  | cons x xs ih => simp [nameLt, ih, blt_eq_false]

theorem nameLt_trans (a b c : FileName) (h1 : nameLt a b = true) (h2 : nameLt b c = true) : nameLt a c = true := by
  induction a generalizing b c with
  | nil =>
    cases b with
    | nil => simp [nameLt] at h1
    | cons y ys => cases c with
      | nil => simp [nameLt] at h2
      | cons z zs => rfl
  | cons x xs ih =>
    cases b with
    | nil => simp [nameLt] at h1
    | cons y ys =>
      cases c with
      | nil => simp [nameLt] at h2
      | cons z zs =>
        simp only [nameLt, Bool.or_eq_true, Bool.and_eq_true, beq_iff_eq, Nat.blt_eq] at *
        rcases h1 with h1 | ⟨rfl, h1⟩ <;> rcases h2 with h2 | ⟨rfl, h2⟩
        · exact .inl (by omega)
        · exact .inl h1
        · exact .inl h2
        · exact .inr ⟨rfl, ih _ _ h1 h2⟩

theorem nameLt_total (a b : FileName) (hne : a ≠ b) (h : nameLt a b = false) : nameLt b a = true := by
  induction a generalizing b with
  | nil =>
    cases b with
    | nil => exact absurd rfl hne
    | cons y ys => simp [nameLt] at h
  | cons x xs ih =>
    cases b with
    | nil => rfl
    | cons y ys =>
      simp only [nameLt, Bool.or_eq_false_iff, Bool.and_eq_false_iff, Bool.or_eq_true, Bool.and_eq_true,
        beq_iff_eq, beq_eq_false_iff_ne, Nat.blt_eq, blt_eq_false] at *
      by_cases e : x = y
      · subst e
        refine .inr ⟨rfl, ih ys (fun e => hne (by rw [e])) ?_⟩
        rcases h.2 with h2 | h2
        · exact absurd rfl h2
        · exact h2
      · have : x.toNat ≠ y.toNat := fun e' => e (BitVec.eq_of_toNat_eq e')
        exact .inl (by omega)

theorem nameOrder : StrictOrder nameLt := ⟨nameLt_irrefl, nameLt_trans, nameLt_total⟩

/-! ### Canonical memories -/

theorem Memory.wf_iff (m : Memory) :
    m.wf = true ↔ rising Nat.blt m = true ∧ ∀ c ∈ m, c.1 < 65536 ∧ c.2 ≠ resetByte c.1 := by
  simp [Memory.wf, listable, Nat.blt_eq]

theorem memory_nil_wf : Memory.wf [] = true := rfl

theorem Memory.wf_rising {m : Memory} (h : m.wf = true) : rising Nat.blt m = true := ((Memory.wf_iff m).mp h).1

/-- Writing a byte: that byte reads as written and every other byte as before. -/
theorem byteRead_byteWrite {m : Memory} (h : m.wf = true) (a b : Nat) (v : Byte) :
    byteRead (byteWrite m a v) b = if b = a then v else byteRead m b := by
  unfold byteRead byteWrite
  split
  · next e =>
    rw [lookup_eraseKey natOrder a b (Memory.wf_rising h)]
    split
    · next e' => subst e'; simp [e]
    · rfl
  · rw [lookup_insertKey]
    split <;> simp

/-- A byte write keeps the canonical form. -/
theorem byteWrite_wf {m : Memory} (h : m.wf = true) {a : Nat} (ha : a < 65536) (v : Byte) :
    (byteWrite m a v).wf = true := by
  rw [Memory.wf_iff] at *
  unfold byteWrite
  split
  · exact ⟨rising_eraseKey natOrder a h.1, fun c hc => h.2 c (mem_eraseKey hc)⟩
  · next e =>
    refine ⟨rising_insertKey natOrder a v h.1, fun c hc => ?_⟩
    rcases mem_insertKey hc with rfl | hc
    · exact ⟨ha, e⟩
    · exact h.2 c hc

/-- Writing bytes: the range reads as written and every other byte as before. -/
theorem byteRead_writeBytes {m : Memory} (h : m.wf = true) (bs : List Byte) (a b : Nat) (ha : a + bs.length ≤ 65536) :
    byteRead (writeBytes m a bs) b = if a ≤ b ∧ b < a + bs.length then bs.getD (b - a) 0#8 else byteRead m b := by
  induction bs generalizing m a with
  | nil =>
    have : ¬ (a ≤ b ∧ b < a + ([] : List Byte).length) := by simp
    rw [if_neg this]; rfl
  | cons v vs ih =>
    simp only [List.length_cons] at ha
    have ha' : a < 65536 := by omega
    simp only [writeBytes]
    rw [ih (byteWrite_wf h ha' v) (a + 1) (by omega), byteRead_byteWrite h]
    simp only [List.length_cons]
    by_cases h1 : b = a
    · subst h1
      have h2 : ¬ (b + 1 ≤ b ∧ b < b + 1 + vs.length) := by omega
      have h3 : b ≤ b ∧ b < b + (vs.length + 1) := by omega
      simp [h3]
    · by_cases h2 : a + 1 ≤ b ∧ b < a + 1 + vs.length
      · have h3 : a ≤ b ∧ b < a + (vs.length + 1) := by omega
        have h4 : b - a = (b - (a + 1)) + 1 := by omega
        rw [if_pos h2, if_pos h3, h4, List.getD_cons_succ]
      · have h3 : ¬ (a ≤ b ∧ b < a + (vs.length + 1)) := by omega
        rw [if_neg h2, if_neg h3, if_neg h1]

theorem writeBytes_wf {m : Memory} (h : m.wf = true) (bs : List Byte) (a : Nat) (ha : a + bs.length ≤ 65536) :
    (writeBytes m a bs).wf = true := by
  induction bs generalizing m a with
  | nil => exact h
  | cons v vs ih =>
    simp only [List.length_cons] at ha
    exact ih (byteWrite_wf h (by omega) v) (a + 1) (by omega)

theorem byteRead_of_ge {m : Memory} (h : m.wf = true) {b : Nat} (hb : 65536 ≤ b) : byteRead m b = resetByte b := by
  unfold byteRead
  cases e : lookup b m with
  | none => rfl
  | some v => exact absurd ((((Memory.wf_iff m).mp h).2 _ (lookup_some_mem e)).1) (by simp; omega)

/-- Two canonical memories that read alike at every byte of the arena are equal. -/
theorem memory_ext {m n : Memory} (hm : m.wf = true) (hn : n.wf = true)
    (h : ∀ b, b < 65536 → byteRead m b = byteRead n b) : m = n := by
  refine eq_of_lookup_eq natOrder (Memory.wf_rising hm) (Memory.wf_rising hn) fun k => ?_
  have hk : byteRead m k = byteRead n k := by
    by_cases hb : k < 65536
    · exact h k hb
    · rw [byteRead_of_ge hm (by omega), byteRead_of_ge hn (by omega)]
  have aux : ∀ {p : Memory}, p.wf = true → ∀ v, lookup k p = some v → v ≠ resetByte k := fun hp v e =>
    (((Memory.wf_iff _).mp hp).2 _ (lookup_some_mem e)).2
  unfold byteRead at hk
  cases e1 : lookup k m with
  | none =>
    cases e2 : lookup k n with
    | none => rfl
    | some w => rw [e1, e2] at hk; exact absurd hk.symm (aux hn w e2)
  | some v =>
    cases e2 : lookup k n with
    | none => rw [e1, e2] at hk; exact absurd hk (aux hm v e1)
    | some w => rw [e1, e2] at hk; simpa using hk

/-! ### Cells -/

theorem joinBytes_lo_hi (v : Word) : joinBytes (loByte v) (hiByte v) = v := by
  apply BitVec.eq_of_getLsbD_eq
  intro i hi
  simp only [joinBytes, loByte, hiByte, BitVec.getLsbD_append, BitVec.getLsbD_extractLsb']
  split
  · next h => simp [h]
  · next h =>
    have : i - 8 < 8 := by omega
    simp [this, show 8 + (i - 8) = i by omega]

@[simp] theorem loByte_joinBytes (lo hi : Byte) : loByte (joinBytes lo hi) = lo := by
  apply BitVec.eq_of_getLsbD_eq
  intro i h
  simp only [joinBytes, loByte, BitVec.getLsbD_extractLsb', BitVec.getLsbD_append]
  simp [h]

@[simp] theorem hiByte_joinBytes (lo hi : Byte) : hiByte (joinBytes lo hi) = hi := by
  apply BitVec.eq_of_getLsbD_eq
  intro i h
  simp only [joinBytes, hiByte, BitVec.getLsbD_extractLsb', BitVec.getLsbD_append]
  simp [h]

theorem byteAddr_lt (a : Addr) : byteAddr a + 1 < 65536 := by
  have := a.isLt
  simp only [byteAddr]
  omega

theorem byteAddr_inj {a b : Addr} (h : byteAddr a = byteAddr b) : a = b := by
  apply BitVec.eq_of_toNat_eq
  simp only [byteAddr] at h
  omega

/-- A cell write keeps the canonical form. -/
theorem cellWrite_wf {m : Memory} (h : m.wf = true) (a : Addr) (v : Word) : (cellWrite m a v).wf = true := by
  have := byteAddr_lt a
  exact byteWrite_wf (byteWrite_wf h (by omega) _) (by omega) _

/-- Writing a cell: its two bytes read as written, low byte first, and every other byte as before. -/
theorem byteRead_cellWrite {m : Memory} (h : m.wf = true) (a : Addr) (v : Word) (b : Nat) :
    byteRead (cellWrite m a v) b =
      if b = byteAddr a + 1 then hiByte v else if b = byteAddr a then loByte v else byteRead m b := by
  have := byteAddr_lt a
  unfold cellWrite
  rw [byteRead_byteWrite (byteWrite_wf h (by omega) _), byteRead_byteWrite h]

/-- Writing a cell: that cell reads as written and every other cell as before. -/
theorem cellRead_cellWrite {m : Memory} (h : m.wf = true) (a b : Addr) (v : Word) :
    cellRead (cellWrite m a v) b = if b = a then v else cellRead m b := by
  unfold cellRead
  rw [byteRead_cellWrite h, byteRead_cellWrite h]
  by_cases e : b = a
  · subst e
    have h1 : ¬ byteAddr b = byteAddr b + 1 := by omega
    simp [joinBytes_lo_hi]
  · have h0 : byteAddr b ≠ byteAddr a := fun e' => e (byteAddr_inj e')
    have h1 : ¬ byteAddr b = byteAddr a + 1 := by simp only [byteAddr]; omega
    have h2 : ¬ byteAddr b + 1 = byteAddr a + 1 := by omega
    have h3 : ¬ byteAddr b + 1 = byteAddr a := by simp only [byteAddr]; omega
    simp [h0, h1, h3, e]

theorem byteRead_even (m : Memory) (a : Addr) : byteRead m (byteAddr a) = loByte (cellRead m a) := by
  simp [cellRead]

theorem byteRead_odd (m : Memory) (a : Addr) : byteRead m (byteAddr a + 1) = hiByte (cellRead m a) := by
  simp [cellRead]

/-- Two canonical memories that read alike at every cell are equal. -/
theorem memory_ext_cells {m n : Memory} (hm : m.wf = true) (hn : n.wf = true)
    (h : ∀ a, cellRead m a = cellRead n a) : m = n := by
  refine memory_ext hm hn fun b hb => ?_
  have ha : (BitVec.ofNat 15 (b / 2) : Addr).toNat = b / 2 := by
    simp only [BitVec.toNat_ofNat]; omega
  have key := h (BitVec.ofNat 15 (b / 2))
  rcases Nat.mod_two_eq_zero_or_one b with e | e
  · have hb' : b = byteAddr (BitVec.ofNat 15 (b / 2)) := by simp only [byteAddr, ha]; omega
    rw [hb', byteRead_even, byteRead_even, key]
  · have hb' : b = byteAddr (BitVec.ofNat 15 (b / 2)) + 1 := by simp only [byteAddr, ha]; omega
    rw [hb', byteRead_odd, byteRead_odd, key]

/-! ### Zeroing the arena, and memories made of bytes -/

theorem zeroCells_wf {m : Memory} (h : m.wf = true) (n : Nat) : (zeroCells m n).wf = true := by
  induction n with
  | zero => exact h
  | succ n ih => exact cellWrite_wf ih _ _

theorem cellRead_zeroCells {m : Memory} (h : m.wf = true) (n : Nat) (hn : n ≤ 32768) (a : Addr) :
    cellRead (zeroCells m n) a = if a.toNat < n then 0#16 else cellRead m a := by
  induction n with
  | zero => simp [zeroCells]
  | succ n ih =>
    simp only [zeroCells]
    rw [cellRead_cellWrite (zeroCells_wf h n), ih (by omega)]
    have e : a = BitVec.ofNat 15 n ↔ a.toNat = n := by
      constructor
      · intro h; subst h; simp only [BitVec.toNat_ofNat]; omega
      · intro h; apply BitVec.eq_of_toNat_eq; simp only [BitVec.toNat_ofNat]; omega
    by_cases h1 : a.toNat = n
    · rw [if_pos (e.mpr h1), if_pos (by omega)]
    · have h2 : ¬ a = BitVec.ofNat 15 n := fun h => h1 (e.mp h)
      have h3 : a.toNat < n + 1 ↔ a.toNat < n := by omega
      simp [h2, h3]

theorem memoryOfBytes_spec (bs : List Byte) (b : Nat) (hb : b + bs.length ≤ 65536) :
    rising Nat.blt (memoryOfBytes b bs) = true ∧
      (∀ c ∈ memoryOfBytes b bs, b ≤ c.1 ∧ c.1 < 65536 ∧ c.2 ≠ resetByte c.1) ∧
      ∀ k, byteRead (memoryOfBytes b bs) k = if b ≤ k ∧ k < b + bs.length then bs.getD (k - b) 0#8 else resetByte k := by
  induction bs generalizing b with
  | nil =>
    refine ⟨rfl, by simp [memoryOfBytes], fun k => ?_⟩
    have : ¬ (b ≤ k ∧ k < b + ([] : List Byte).length) := by simp
    rw [if_neg this]; rfl
  | cons v vs ih =>
    simp only [List.length_cons] at hb ⊢
    obtain ⟨h1, h2, h3⟩ := ih (b + 1) (by omega)
    have hread : ∀ k, k ≠ b →
        (if b + 1 ≤ k ∧ k < b + 1 + vs.length then vs.getD (k - (b + 1)) 0#8 else resetByte k) =
          (if b ≤ k ∧ k < b + (vs.length + 1) then (v :: vs).getD (k - b) 0#8 else resetByte k) := by
      intro k hk
      by_cases h4 : b + 1 ≤ k ∧ k < b + 1 + vs.length
      · have h5 : b ≤ k ∧ k < b + (vs.length + 1) := by omega
        have h6 : k - b = (k - (b + 1)) + 1 := by omega
        rw [if_pos h4, if_pos h5, h6, List.getD_cons_succ]
      · have h5 : ¬ (b ≤ k ∧ k < b + (vs.length + 1)) := by omega
        rw [if_neg h4, if_neg h5]
    have hself : b ≤ b ∧ b < b + (vs.length + 1) := by omega
    have hnot : ¬ (b + 1 ≤ b ∧ b < b + 1 + vs.length) := by omega
    simp only [memoryOfBytes]
    split
    · next e =>
      refine ⟨h1, fun c hc => ⟨by have := (h2 c hc).1; omega, (h2 c hc).2⟩, fun k => ?_⟩
      rw [h3 k]
      by_cases hk : k = b
      · subst hk; simp [e]
      · exact hread k hk
    · next e =>
      refine ⟨(rising_cons natOrder _ _).mpr ⟨fun c hc => ?_, h1⟩, fun c hc => ?_, fun k => ?_⟩
      · have := (h2 c hc).1
        simp [Nat.blt_eq]; omega
      · rcases List.mem_cons.mp hc with rfl | hc
        · exact ⟨Nat.le_refl _, by show b < 65536; omega, e⟩
        · exact ⟨by have := (h2 c hc).1; omega, (h2 c hc).2⟩
      · by_cases hk : k = b
        · subst hk
          rw [if_pos hself]
          simp [byteRead, lookup]
        · have : byteRead ((b, v) :: memoryOfBytes (b + 1) vs) k = byteRead (memoryOfBytes (b + 1) vs) k := by
            simp [byteRead, lookup, hk]
          rw [this, h3 k]
          exact hread k hk

/-- A memory made of the arena's bytes is canonical and reads as those bytes. -/
theorem memoryOfBytes_wf (bs : List Byte) (h : bs.length ≤ 65536) : (memoryOfBytes 0 bs).wf = true := by
  obtain ⟨h1, h2, -⟩ := memoryOfBytes_spec bs 0 (by omega)
  exact (Memory.wf_iff _).mpr ⟨h1, fun c hc => (h2 c hc).2⟩

/-! ### The block store -/

theorem putFile_wf {st : Store} (h : Store.wf st = true) (name : FileName) (data : List Byte) :
    Store.wf (insertKey nameLt name data st) = true := rising_insertKey nameOrder name data h

theorem eraseFile_wf {st : Store} (h : Store.wf st = true) (name : FileName) :
    Store.wf (eraseKey name st) = true := rising_eraseKey nameOrder name h

end Sys2Proof.Machine
end

