-- ==== Sys2Proof/Laws/State.lean ====
section
/-! SUPPORT. One lemma per field per named update of State, true by rfl, so that no later proof unfolds an update; and
what reading a cell gives after an update that leaves memory alone. -/

namespace Sys2Proof.Machine

variable (s : State)

/-! ### setI -/

@[simp] theorem State.setI_mem (a : Addr) : (s.setI a).mem = s.mem := rfl
@[simp] theorem State.setI_I (a : Addr) : (s.setI a).I = a := rfl
@[simp] theorem State.setI_f (a : Addr) : (s.setI a).f = s.f := rfl
@[simp] theorem State.setI_S (a : Addr) : (s.setI a).S = s.S := rfl
@[simp] theorem State.setI_LATEST (a : Addr) : (s.setI a).LATEST = s.LATEST := rfl
@[simp] theorem State.setI_STRP (a : Addr) : (s.setI a).STRP = s.STRP := rfl
@[simp] theorem State.setI_NXT (a : Addr) : (s.setI a).NXT = s.NXT := rfl
@[simp] theorem State.setI_INVALID (a : Addr) : (s.setI a).INVALID = s.INVALID := rfl
@[simp] theorem State.setI_mode (a : Addr) : (s.setI a).mode = s.mode := rfl
@[simp] theorem State.setI_input (a : Addr) : (s.setI a).input = s.input := rfl
@[simp] theorem State.setI_output (a : Addr) : (s.setI a).output = s.output := rfl
@[simp] theorem State.setI_errors (a : Addr) : (s.setI a).errors = s.errors := rfl
@[simp] theorem State.setI_store (a : Addr) : (s.setI a).store = s.store := rfl
@[simp] theorem State.setI_writeAnswers (a : Addr) : (s.setI a).writeAnswers = s.writeAnswers := rfl
@[simp] theorem State.setI_calls (a : Addr) : (s.setI a).calls = s.calls := rfl
@[simp] theorem State.setI_replies (a : Addr) : (s.setI a).replies = s.replies := rfl
@[simp] theorem State.setI_draws (a : Addr) : (s.setI a).draws = s.draws := rfl
@[simp] theorem State.setI_cell (a : Addr) (c : Addr) : (s.setI a).cell c = s.cell c := rfl

/-! ### setF -/

@[simp] theorem State.setF_mem (v : Word) : (s.setF v).mem = s.mem := rfl
@[simp] theorem State.setF_I (v : Word) : (s.setF v).I = s.I := rfl
@[simp] theorem State.setF_f (v : Word) : (s.setF v).f = v := rfl
@[simp] theorem State.setF_S (v : Word) : (s.setF v).S = s.S := rfl
@[simp] theorem State.setF_LATEST (v : Word) : (s.setF v).LATEST = s.LATEST := rfl
@[simp] theorem State.setF_STRP (v : Word) : (s.setF v).STRP = s.STRP := rfl
@[simp] theorem State.setF_NXT (v : Word) : (s.setF v).NXT = s.NXT := rfl
@[simp] theorem State.setF_INVALID (v : Word) : (s.setF v).INVALID = s.INVALID := rfl
@[simp] theorem State.setF_mode (v : Word) : (s.setF v).mode = s.mode := rfl
@[simp] theorem State.setF_input (v : Word) : (s.setF v).input = s.input := rfl
@[simp] theorem State.setF_output (v : Word) : (s.setF v).output = s.output := rfl
@[simp] theorem State.setF_errors (v : Word) : (s.setF v).errors = s.errors := rfl
@[simp] theorem State.setF_store (v : Word) : (s.setF v).store = s.store := rfl
@[simp] theorem State.setF_writeAnswers (v : Word) : (s.setF v).writeAnswers = s.writeAnswers := rfl
@[simp] theorem State.setF_calls (v : Word) : (s.setF v).calls = s.calls := rfl
@[simp] theorem State.setF_replies (v : Word) : (s.setF v).replies = s.replies := rfl
@[simp] theorem State.setF_draws (v : Word) : (s.setF v).draws = s.draws := rfl
@[simp] theorem State.setF_cell (v : Word) (c : Addr) : (s.setF v).cell c = s.cell c := rfl

/-! ### setS -/

@[simp] theorem State.setS_mem (a : Addr) : (s.setS a).mem = s.mem := rfl
@[simp] theorem State.setS_I (a : Addr) : (s.setS a).I = s.I := rfl
@[simp] theorem State.setS_f (a : Addr) : (s.setS a).f = s.f := rfl
@[simp] theorem State.setS_S (a : Addr) : (s.setS a).S = a := rfl
@[simp] theorem State.setS_LATEST (a : Addr) : (s.setS a).LATEST = s.LATEST := rfl
@[simp] theorem State.setS_STRP (a : Addr) : (s.setS a).STRP = s.STRP := rfl
@[simp] theorem State.setS_NXT (a : Addr) : (s.setS a).NXT = s.NXT := rfl
@[simp] theorem State.setS_INVALID (a : Addr) : (s.setS a).INVALID = s.INVALID := rfl
@[simp] theorem State.setS_mode (a : Addr) : (s.setS a).mode = s.mode := rfl
@[simp] theorem State.setS_input (a : Addr) : (s.setS a).input = s.input := rfl
@[simp] theorem State.setS_output (a : Addr) : (s.setS a).output = s.output := rfl
@[simp] theorem State.setS_errors (a : Addr) : (s.setS a).errors = s.errors := rfl
@[simp] theorem State.setS_store (a : Addr) : (s.setS a).store = s.store := rfl
@[simp] theorem State.setS_writeAnswers (a : Addr) : (s.setS a).writeAnswers = s.writeAnswers := rfl
@[simp] theorem State.setS_calls (a : Addr) : (s.setS a).calls = s.calls := rfl
@[simp] theorem State.setS_replies (a : Addr) : (s.setS a).replies = s.replies := rfl
@[simp] theorem State.setS_draws (a : Addr) : (s.setS a).draws = s.draws := rfl
@[simp] theorem State.setS_cell (a : Addr) (c : Addr) : (s.setS a).cell c = s.cell c := rfl

/-! ### setInput -/

@[simp] theorem State.setInput_mem (inp : List InputSlot) : (s.setInput inp).mem = s.mem := rfl
@[simp] theorem State.setInput_I (inp : List InputSlot) : (s.setInput inp).I = s.I := rfl
@[simp] theorem State.setInput_f (inp : List InputSlot) : (s.setInput inp).f = s.f := rfl
@[simp] theorem State.setInput_S (inp : List InputSlot) : (s.setInput inp).S = s.S := rfl
@[simp] theorem State.setInput_LATEST (inp : List InputSlot) : (s.setInput inp).LATEST = s.LATEST := rfl
@[simp] theorem State.setInput_STRP (inp : List InputSlot) : (s.setInput inp).STRP = s.STRP := rfl
@[simp] theorem State.setInput_NXT (inp : List InputSlot) : (s.setInput inp).NXT = s.NXT := rfl
@[simp] theorem State.setInput_INVALID (inp : List InputSlot) : (s.setInput inp).INVALID = s.INVALID := rfl
@[simp] theorem State.setInput_mode (inp : List InputSlot) : (s.setInput inp).mode = s.mode := rfl
@[simp] theorem State.setInput_input (inp : List InputSlot) : (s.setInput inp).input = inp := rfl
@[simp] theorem State.setInput_output (inp : List InputSlot) : (s.setInput inp).output = s.output := rfl
@[simp] theorem State.setInput_errors (inp : List InputSlot) : (s.setInput inp).errors = s.errors := rfl
@[simp] theorem State.setInput_store (inp : List InputSlot) : (s.setInput inp).store = s.store := rfl
@[simp] theorem State.setInput_writeAnswers (inp : List InputSlot) : (s.setInput inp).writeAnswers = s.writeAnswers := rfl
@[simp] theorem State.setInput_calls (inp : List InputSlot) : (s.setInput inp).calls = s.calls := rfl
@[simp] theorem State.setInput_replies (inp : List InputSlot) : (s.setInput inp).replies = s.replies := rfl
@[simp] theorem State.setInput_draws (inp : List InputSlot) : (s.setInput inp).draws = s.draws := rfl
@[simp] theorem State.setInput_cell (inp : List InputSlot) (c : Addr) : (s.setInput inp).cell c = s.cell c := rfl

/-! ### setCell -/

@[simp] theorem State.setCell_mem (a : Addr) (v : Word) : (s.setCell a v).mem = cellWrite s.mem a v := rfl
@[simp] theorem State.setCell_I (a : Addr) (v : Word) : (s.setCell a v).I = s.I := rfl
@[simp] theorem State.setCell_f (a : Addr) (v : Word) : (s.setCell a v).f = s.f := rfl
@[simp] theorem State.setCell_S (a : Addr) (v : Word) : (s.setCell a v).S = s.S := rfl
@[simp] theorem State.setCell_LATEST (a : Addr) (v : Word) : (s.setCell a v).LATEST = s.LATEST := rfl
@[simp] theorem State.setCell_STRP (a : Addr) (v : Word) : (s.setCell a v).STRP = s.STRP := rfl
@[simp] theorem State.setCell_NXT (a : Addr) (v : Word) : (s.setCell a v).NXT = s.NXT := rfl
@[simp] theorem State.setCell_INVALID (a : Addr) (v : Word) : (s.setCell a v).INVALID = s.INVALID := rfl
@[simp] theorem State.setCell_mode (a : Addr) (v : Word) : (s.setCell a v).mode = s.mode := rfl
@[simp] theorem State.setCell_input (a : Addr) (v : Word) : (s.setCell a v).input = s.input := rfl
@[simp] theorem State.setCell_output (a : Addr) (v : Word) : (s.setCell a v).output = s.output := rfl
@[simp] theorem State.setCell_errors (a : Addr) (v : Word) : (s.setCell a v).errors = s.errors := rfl
@[simp] theorem State.setCell_store (a : Addr) (v : Word) : (s.setCell a v).store = s.store := rfl
@[simp] theorem State.setCell_writeAnswers (a : Addr) (v : Word) : (s.setCell a v).writeAnswers = s.writeAnswers := rfl
@[simp] theorem State.setCell_calls (a : Addr) (v : Word) : (s.setCell a v).calls = s.calls := rfl
@[simp] theorem State.setCell_replies (a : Addr) (v : Word) : (s.setCell a v).replies = s.replies := rfl
@[simp] theorem State.setCell_draws (a : Addr) (v : Word) : (s.setCell a v).draws = s.draws := rfl

/-! ### pushed -/

@[simp] theorem State.pushed_mem (v : Word) : (s.pushed v).mem = cellWrite s.mem (s.S + 1#15) s.f := rfl
@[simp] theorem State.pushed_I (v : Word) : (s.pushed v).I = s.I := rfl
@[simp] theorem State.pushed_f (v : Word) : (s.pushed v).f = v := rfl
@[simp] theorem State.pushed_S (v : Word) : (s.pushed v).S = s.S + 1#15 := rfl
@[simp] theorem State.pushed_LATEST (v : Word) : (s.pushed v).LATEST = s.LATEST := rfl
@[simp] theorem State.pushed_STRP (v : Word) : (s.pushed v).STRP = s.STRP := rfl
@[simp] theorem State.pushed_NXT (v : Word) : (s.pushed v).NXT = s.NXT := rfl
@[simp] theorem State.pushed_INVALID (v : Word) : (s.pushed v).INVALID = s.INVALID := rfl
@[simp] theorem State.pushed_mode (v : Word) : (s.pushed v).mode = s.mode := rfl
@[simp] theorem State.pushed_input (v : Word) : (s.pushed v).input = s.input := rfl
@[simp] theorem State.pushed_output (v : Word) : (s.pushed v).output = s.output := rfl
@[simp] theorem State.pushed_errors (v : Word) : (s.pushed v).errors = s.errors := rfl
@[simp] theorem State.pushed_store (v : Word) : (s.pushed v).store = s.store := rfl
@[simp] theorem State.pushed_writeAnswers (v : Word) : (s.pushed v).writeAnswers = s.writeAnswers := rfl
@[simp] theorem State.pushed_calls (v : Word) : (s.pushed v).calls = s.calls := rfl
@[simp] theorem State.pushed_replies (v : Word) : (s.pushed v).replies = s.replies := rfl
@[simp] theorem State.pushed_draws (v : Word) : (s.pushed v).draws = s.draws := rfl

/-! ### popped -/

@[simp] theorem State.popped_mem : (s.popped).mem = s.mem := rfl
@[simp] theorem State.popped_I : (s.popped).I = s.I := rfl
@[simp] theorem State.popped_f : (s.popped).f = s.f := rfl
@[simp] theorem State.popped_S : (s.popped).S = s.S - 1#15 := rfl
@[simp] theorem State.popped_LATEST : (s.popped).LATEST = s.LATEST := rfl
@[simp] theorem State.popped_STRP : (s.popped).STRP = s.STRP := rfl
@[simp] theorem State.popped_NXT : (s.popped).NXT = s.NXT := rfl
@[simp] theorem State.popped_INVALID : (s.popped).INVALID = s.INVALID := rfl
@[simp] theorem State.popped_mode : (s.popped).mode = s.mode := rfl
@[simp] theorem State.popped_input : (s.popped).input = s.input := rfl
@[simp] theorem State.popped_output : (s.popped).output = s.output := rfl
@[simp] theorem State.popped_errors : (s.popped).errors = s.errors := rfl
@[simp] theorem State.popped_store : (s.popped).store = s.store := rfl
@[simp] theorem State.popped_writeAnswers : (s.popped).writeAnswers = s.writeAnswers := rfl
@[simp] theorem State.popped_calls : (s.popped).calls = s.calls := rfl
@[simp] theorem State.popped_replies : (s.popped).replies = s.replies := rfl
@[simp] theorem State.popped_draws : (s.popped).draws = s.draws := rfl
@[simp] theorem State.popped_cell (c : Addr) : (s.popped).cell c = s.cell c := rfl

/-! ### rpushed -/

@[simp] theorem State.rpushed_mem (v : Word) : (s.rpushed v).mem = cellWrite (cellWrite s.mem rspCell (s.RSP + 1#16)) (mask (s.RSP + 1#16)) v := rfl
@[simp] theorem State.rpushed_I (v : Word) : (s.rpushed v).I = s.I := rfl
@[simp] theorem State.rpushed_f (v : Word) : (s.rpushed v).f = s.f := rfl
@[simp] theorem State.rpushed_S (v : Word) : (s.rpushed v).S = s.S := rfl
@[simp] theorem State.rpushed_LATEST (v : Word) : (s.rpushed v).LATEST = s.LATEST := rfl
@[simp] theorem State.rpushed_STRP (v : Word) : (s.rpushed v).STRP = s.STRP := rfl
@[simp] theorem State.rpushed_NXT (v : Word) : (s.rpushed v).NXT = s.NXT := rfl
@[simp] theorem State.rpushed_INVALID (v : Word) : (s.rpushed v).INVALID = s.INVALID := rfl
@[simp] theorem State.rpushed_mode (v : Word) : (s.rpushed v).mode = s.mode := rfl
@[simp] theorem State.rpushed_input (v : Word) : (s.rpushed v).input = s.input := rfl
@[simp] theorem State.rpushed_output (v : Word) : (s.rpushed v).output = s.output := rfl
@[simp] theorem State.rpushed_errors (v : Word) : (s.rpushed v).errors = s.errors := rfl
@[simp] theorem State.rpushed_store (v : Word) : (s.rpushed v).store = s.store := rfl
@[simp] theorem State.rpushed_writeAnswers (v : Word) : (s.rpushed v).writeAnswers = s.writeAnswers := rfl
@[simp] theorem State.rpushed_calls (v : Word) : (s.rpushed v).calls = s.calls := rfl
@[simp] theorem State.rpushed_replies (v : Word) : (s.rpushed v).replies = s.replies := rfl
@[simp] theorem State.rpushed_draws (v : Word) : (s.rpushed v).draws = s.draws := rfl

/-! ### rpopped -/

@[simp] theorem State.rpopped_mem : (s.rpopped).mem = cellWrite s.mem rspCell (s.RSP - 1#16) := rfl
@[simp] theorem State.rpopped_I : (s.rpopped).I = s.I := rfl
@[simp] theorem State.rpopped_f : (s.rpopped).f = s.f := rfl
@[simp] theorem State.rpopped_S : (s.rpopped).S = s.S := rfl
@[simp] theorem State.rpopped_LATEST : (s.rpopped).LATEST = s.LATEST := rfl
@[simp] theorem State.rpopped_STRP : (s.rpopped).STRP = s.STRP := rfl
@[simp] theorem State.rpopped_NXT : (s.rpopped).NXT = s.NXT := rfl
@[simp] theorem State.rpopped_INVALID : (s.rpopped).INVALID = s.INVALID := rfl
@[simp] theorem State.rpopped_mode : (s.rpopped).mode = s.mode := rfl
@[simp] theorem State.rpopped_input : (s.rpopped).input = s.input := rfl
@[simp] theorem State.rpopped_output : (s.rpopped).output = s.output := rfl
@[simp] theorem State.rpopped_errors : (s.rpopped).errors = s.errors := rfl
@[simp] theorem State.rpopped_store : (s.rpopped).store = s.store := rfl
@[simp] theorem State.rpopped_writeAnswers : (s.rpopped).writeAnswers = s.writeAnswers := rfl
@[simp] theorem State.rpopped_calls : (s.rpopped).calls = s.calls := rfl
@[simp] theorem State.rpopped_replies : (s.rpopped).replies = s.replies := rfl
@[simp] theorem State.rpopped_draws : (s.rpopped).draws = s.draws := rfl

/-! ### append -/

@[simp] theorem State.append_mem (v : Word) : (s.append v).mem = cellWrite (cellWrite s.mem (mask s.DP) v) dpCell (s.DP + 1#16) := rfl
@[simp] theorem State.append_I (v : Word) : (s.append v).I = s.I := rfl
@[simp] theorem State.append_f (v : Word) : (s.append v).f = s.f := rfl
@[simp] theorem State.append_S (v : Word) : (s.append v).S = s.S := rfl
@[simp] theorem State.append_LATEST (v : Word) : (s.append v).LATEST = s.LATEST := rfl
@[simp] theorem State.append_STRP (v : Word) : (s.append v).STRP = s.STRP := rfl
@[simp] theorem State.append_NXT (v : Word) : (s.append v).NXT = s.NXT := rfl
@[simp] theorem State.append_INVALID (v : Word) : (s.append v).INVALID = s.INVALID := rfl
@[simp] theorem State.append_mode (v : Word) : (s.append v).mode = s.mode := rfl
@[simp] theorem State.append_input (v : Word) : (s.append v).input = s.input := rfl
@[simp] theorem State.append_output (v : Word) : (s.append v).output = s.output := rfl
@[simp] theorem State.append_errors (v : Word) : (s.append v).errors = s.errors := rfl
@[simp] theorem State.append_store (v : Word) : (s.append v).store = s.store := rfl
@[simp] theorem State.append_writeAnswers (v : Word) : (s.append v).writeAnswers = s.writeAnswers := rfl
@[simp] theorem State.append_calls (v : Word) : (s.append v).calls = s.calls := rfl
@[simp] theorem State.append_replies (v : Word) : (s.append v).replies = s.replies := rfl
@[simp] theorem State.append_draws (v : Word) : (s.append v).draws = s.draws := rfl

/-! ### out -/

@[simp] theorem State.out_mem (bs : List Byte) : (s.out bs).mem = s.mem := rfl
@[simp] theorem State.out_I (bs : List Byte) : (s.out bs).I = s.I := rfl
@[simp] theorem State.out_f (bs : List Byte) : (s.out bs).f = s.f := rfl
@[simp] theorem State.out_S (bs : List Byte) : (s.out bs).S = s.S := rfl
@[simp] theorem State.out_LATEST (bs : List Byte) : (s.out bs).LATEST = s.LATEST := rfl
@[simp] theorem State.out_STRP (bs : List Byte) : (s.out bs).STRP = s.STRP := rfl
@[simp] theorem State.out_NXT (bs : List Byte) : (s.out bs).NXT = s.NXT := rfl
@[simp] theorem State.out_INVALID (bs : List Byte) : (s.out bs).INVALID = s.INVALID := rfl
@[simp] theorem State.out_mode (bs : List Byte) : (s.out bs).mode = s.mode := rfl
@[simp] theorem State.out_input (bs : List Byte) : (s.out bs).input = s.input := rfl
@[simp] theorem State.out_output (bs : List Byte) : (s.out bs).output = s.output ++ bs := rfl
@[simp] theorem State.out_errors (bs : List Byte) : (s.out bs).errors = s.errors := rfl
@[simp] theorem State.out_store (bs : List Byte) : (s.out bs).store = s.store := rfl
@[simp] theorem State.out_writeAnswers (bs : List Byte) : (s.out bs).writeAnswers = s.writeAnswers := rfl
@[simp] theorem State.out_calls (bs : List Byte) : (s.out bs).calls = s.calls := rfl
@[simp] theorem State.out_replies (bs : List Byte) : (s.out bs).replies = s.replies := rfl
@[simp] theorem State.out_draws (bs : List Byte) : (s.out bs).draws = s.draws := rfl
@[simp] theorem State.out_cell (bs : List Byte) (c : Addr) : (s.out bs).cell c = s.cell c := rfl

/-! ### diag -/

@[simp] theorem State.diag_mem (d : Diag) : (s.diag d).mem = s.mem := rfl
@[simp] theorem State.diag_I (d : Diag) : (s.diag d).I = s.I := rfl
@[simp] theorem State.diag_f (d : Diag) : (s.diag d).f = s.f := rfl
@[simp] theorem State.diag_S (d : Diag) : (s.diag d).S = s.S := rfl
@[simp] theorem State.diag_LATEST (d : Diag) : (s.diag d).LATEST = s.LATEST := rfl
@[simp] theorem State.diag_STRP (d : Diag) : (s.diag d).STRP = s.STRP := rfl
@[simp] theorem State.diag_NXT (d : Diag) : (s.diag d).NXT = s.NXT := rfl
@[simp] theorem State.diag_INVALID (d : Diag) : (s.diag d).INVALID = s.INVALID := rfl
@[simp] theorem State.diag_mode (d : Diag) : (s.diag d).mode = s.mode := rfl
@[simp] theorem State.diag_input (d : Diag) : (s.diag d).input = s.input := rfl
@[simp] theorem State.diag_output (d : Diag) : (s.diag d).output = s.output := rfl
@[simp] theorem State.diag_errors (d : Diag) : (s.diag d).errors = s.errors ++ [.diag d] := rfl
@[simp] theorem State.diag_store (d : Diag) : (s.diag d).store = s.store := rfl
@[simp] theorem State.diag_writeAnswers (d : Diag) : (s.diag d).writeAnswers = s.writeAnswers := rfl
@[simp] theorem State.diag_calls (d : Diag) : (s.diag d).calls = s.calls := rfl
@[simp] theorem State.diag_replies (d : Diag) : (s.diag d).replies = s.replies := rfl
@[simp] theorem State.diag_draws (d : Diag) : (s.diag d).draws = s.draws := rfl
@[simp] theorem State.diag_cell (d : Diag) (c : Addr) : (s.diag d).cell c = s.cell c := rfl

/-! ### dispatch -/

@[simp] theorem State.dispatch_mem (t : Addr) : (s.dispatch t).mem = s.mem := rfl
@[simp] theorem State.dispatch_I (t : Addr) : (s.dispatch t).I = s.I := rfl
@[simp] theorem State.dispatch_f (t : Addr) : (s.dispatch t).f = s.f := rfl
@[simp] theorem State.dispatch_S (t : Addr) : (s.dispatch t).S = s.S := rfl
@[simp] theorem State.dispatch_LATEST (t : Addr) : (s.dispatch t).LATEST = s.LATEST := rfl
@[simp] theorem State.dispatch_STRP (t : Addr) : (s.dispatch t).STRP = s.STRP := rfl
@[simp] theorem State.dispatch_NXT (t : Addr) : (s.dispatch t).NXT = some t := rfl
@[simp] theorem State.dispatch_INVALID (t : Addr) : (s.dispatch t).INVALID = s.INVALID := rfl
@[simp] theorem State.dispatch_mode (t : Addr) : (s.dispatch t).mode = s.mode := rfl
@[simp] theorem State.dispatch_input (t : Addr) : (s.dispatch t).input = s.input := rfl
@[simp] theorem State.dispatch_output (t : Addr) : (s.dispatch t).output = s.output := rfl
@[simp] theorem State.dispatch_errors (t : Addr) : (s.dispatch t).errors = s.errors := rfl
@[simp] theorem State.dispatch_store (t : Addr) : (s.dispatch t).store = s.store := rfl
@[simp] theorem State.dispatch_writeAnswers (t : Addr) : (s.dispatch t).writeAnswers = s.writeAnswers := rfl
@[simp] theorem State.dispatch_calls (t : Addr) : (s.dispatch t).calls = s.calls := rfl
@[simp] theorem State.dispatch_replies (t : Addr) : (s.dispatch t).replies = s.replies := rfl
@[simp] theorem State.dispatch_draws (t : Addr) : (s.dispatch t).draws = s.draws := rfl
@[simp] theorem State.dispatch_cell (t : Addr) (c : Addr) : (s.dispatch t).cell c = s.cell c := rfl

/-! ### endRun -/

@[simp] theorem State.endRun_mem (st : Word) : (s.endRun st).mem = s.mem := rfl
@[simp] theorem State.endRun_I (st : Word) : (s.endRun st).I = s.I := rfl
@[simp] theorem State.endRun_f (st : Word) : (s.endRun st).f = s.f := rfl
@[simp] theorem State.endRun_S (st : Word) : (s.endRun st).S = s.S := rfl
@[simp] theorem State.endRun_LATEST (st : Word) : (s.endRun st).LATEST = s.LATEST := rfl
@[simp] theorem State.endRun_STRP (st : Word) : (s.endRun st).STRP = s.STRP := rfl
@[simp] theorem State.endRun_NXT (st : Word) : (s.endRun st).NXT = none := rfl
@[simp] theorem State.endRun_INVALID (st : Word) : (s.endRun st).INVALID = s.INVALID := rfl
@[simp] theorem State.endRun_mode (st : Word) : (s.endRun st).mode = .idle := rfl
@[simp] theorem State.endRun_input (st : Word) : (s.endRun st).input = s.input := rfl
@[simp] theorem State.endRun_output (st : Word) : (s.endRun st).output = s.output := rfl
@[simp] theorem State.endRun_errors (st : Word) : (s.endRun st).errors = s.errors := rfl
@[simp] theorem State.endRun_store (st : Word) : (s.endRun st).store = s.store := rfl
@[simp] theorem State.endRun_writeAnswers (st : Word) : (s.endRun st).writeAnswers = s.writeAnswers := rfl
@[simp] theorem State.endRun_calls (st : Word) : (s.endRun st).calls = s.calls := rfl
@[simp] theorem State.endRun_replies (st : Word) : (s.endRun st).replies = s.replies ++ [.runStatus st] := rfl
@[simp] theorem State.endRun_draws (st : Word) : (s.endRun st).draws = s.draws := rfl
@[simp] theorem State.endRun_cell (st : Word) (c : Addr) : (s.endRun st).cell c = s.cell c := rfl

/-! ### fatal -/

@[simp] theorem State.fatal_mem (r : FatalReason) : (s.fatal r).mem = s.mem := rfl
@[simp] theorem State.fatal_I (r : FatalReason) : (s.fatal r).I = s.I := rfl
@[simp] theorem State.fatal_f (r : FatalReason) : (s.fatal r).f = s.f := rfl
@[simp] theorem State.fatal_S (r : FatalReason) : (s.fatal r).S = s.S := rfl
@[simp] theorem State.fatal_LATEST (r : FatalReason) : (s.fatal r).LATEST = s.LATEST := rfl
@[simp] theorem State.fatal_STRP (r : FatalReason) : (s.fatal r).STRP = s.STRP := rfl
@[simp] theorem State.fatal_NXT (r : FatalReason) : (s.fatal r).NXT = none := rfl
@[simp] theorem State.fatal_INVALID (r : FatalReason) : (s.fatal r).INVALID = true := rfl
@[simp] theorem State.fatal_mode (r : FatalReason) : (s.fatal r).mode = .idle := rfl
@[simp] theorem State.fatal_input (r : FatalReason) : (s.fatal r).input = s.input := rfl
@[simp] theorem State.fatal_output (r : FatalReason) : (s.fatal r).output = s.output := rfl
@[simp] theorem State.fatal_errors (r : FatalReason) : (s.fatal r).errors = s.errors ++ [.fatal r] := rfl
@[simp] theorem State.fatal_store (r : FatalReason) : (s.fatal r).store = s.store := rfl
@[simp] theorem State.fatal_writeAnswers (r : FatalReason) : (s.fatal r).writeAnswers = s.writeAnswers := rfl
@[simp] theorem State.fatal_calls (r : FatalReason) : (s.fatal r).calls = s.calls := rfl
@[simp] theorem State.fatal_replies (r : FatalReason) : (s.fatal r).replies = s.replies ++ [.runStatus 1#16] := rfl
@[simp] theorem State.fatal_draws (r : FatalReason) : (s.fatal r).draws = s.draws := rfl
@[simp] theorem State.fatal_cell (r : FatalReason) (c : Addr) : (s.fatal r).cell c = s.cell c := rfl

/-! ### skipInline -/

@[simp] theorem skipInline_eq : skipInline s = s.setI (s.I + 1#15) := rfl

end Sys2Proof.Machine
end

