-- ==== Sys2Proof/Laws/Ops.lean ====
section
/-! SUPPORT. One law per shared operation of Machine/Ops.lean: what each reads and writes in memory, and what each
stack primitive can do: it goes on from exactly one state, or it stops. -/

namespace Sys2Proof.Machine

/-! ### Cells after an update -/

theorem State.setCell_cell {s : State} (h : s.mem.wf = true) (a b : Addr) (v : Word) :
    (s.setCell a v).cell b = if b = a then v else s.cell b := cellRead_cellWrite h a b v

theorem State.setCell_wf {s : State} (h : s.mem.wf = true) (a : Addr) (v : Word) : (s.setCell a v).mem.wf = true :=
  cellWrite_wf h a v

theorem State.pushed_cell {s : State} (h : s.mem.wf = true) (v : Word) (b : Addr) :
    (s.pushed v).cell b = if b = s.S + 1#15 then s.f else s.cell b := cellRead_cellWrite h (s.S + 1#15) b s.f

theorem State.pushed_wf {s : State} (h : s.mem.wf = true) (v : Word) : (s.pushed v).mem.wf = true :=
  cellWrite_wf h _ _

theorem State.rpushed_cell {s : State} (h : s.mem.wf = true) (v : Word) (b : Addr) :
    (s.rpushed v).cell b =
      if b = mask (s.RSP + 1#16) then v else if b = rspCell then s.RSP + 1#16 else s.cell b := by
  show cellRead (cellWrite (cellWrite s.mem rspCell (s.RSP + 1#16)) (mask (s.RSP + 1#16)) v) b = _
  rw [cellRead_cellWrite (cellWrite_wf h _ _), cellRead_cellWrite h]
  rfl

theorem State.rpushed_wf {s : State} (h : s.mem.wf = true) (v : Word) : (s.rpushed v).mem.wf = true :=
  cellWrite_wf (cellWrite_wf h _ _) _ _

theorem State.rpopped_cell {s : State} (h : s.mem.wf = true) (b : Addr) :
    s.rpopped.cell b = if b = rspCell then s.RSP - 1#16 else s.cell b := cellRead_cellWrite h _ _ _

theorem State.rpopped_wf {s : State} (h : s.mem.wf = true) : s.rpopped.mem.wf = true := cellWrite_wf h _ _

/-- `Append` writes the cell at `mask(DP)` and then `DP` (10_state.md R42). -/
theorem State.append_cell {s : State} (h : s.mem.wf = true) (v : Word) (b : Addr) :
    (s.append v).cell b = if b = dpCell then s.DP + 1#16 else if b = mask s.DP then v else s.cell b := by
  show cellRead (cellWrite (cellWrite s.mem (mask s.DP) v) dpCell (s.DP + 1#16)) b = _
  rw [cellRead_cellWrite (cellWrite_wf h _ _), cellRead_cellWrite h]
  rfl

theorem State.append_wf {s : State} (h : s.mem.wf = true) (v : Word) : (s.append v).mem.wf = true :=
  cellWrite_wf (cellWrite_wf h _ _) _ _

/-! ### The stack primitives -/

theorem withPush_of {v : Word} {s : State} {k : State → Result} (h : s.CanPush) : withPush v s k = k (s.pushed v) :=
  if_pos h

theorem withPush_fault {v : Word} {s : State} {k : State → Result} (h : ¬ s.CanPush) :
    withPush v s k = .fault (.undef .dataPush) := if_neg h

theorem withPop_of {s : State} {k : Word → State → Result} (h : s.CanPop) : withPop s k = k s.second s.popped :=
  if_pos h

theorem withPop_fault {s : State} {k : Word → State → Result} (h : ¬ s.CanPop) :
    withPop s k = .fault (.undef .dataPop) := if_neg h

theorem withRPush_of {v : Word} {s : State} {k : State → Result} (h : s.CanRPush) :
    withRPush v s k = k (s.rpushed v) := if_pos h

theorem withRPush_fault {v : Word} {s : State} {k : State → Result} (h : ¬ s.CanRPush) :
    withRPush v s k = .fault (.undef .returnPush) := if_neg h

theorem withRPop_of {s : State} {k : Word → State → Result} (h : s.CanRPop) : withRPop s k = k s.rtop s.rpopped :=
  if_pos h

theorem withRPop_fault {s : State} {k : Word → State → Result} (h : ¬ s.CanRPop) :
    withRPop s k = .fault (.undef .returnPop) := if_neg h

/-- A step that goes on after `DPush` had room for it and went on from `pushed`. -/
theorem withPush_next {v : Word} {s t : State} {k : State → Result} (h : withPush v s k = .next t) :
    s.CanPush ∧ k (s.pushed v) = .next t := by
  unfold withPush at h
  split at h
  · exact ⟨‹_›, h⟩
  · cases h

theorem withPop_next {s t : State} {k : Word → State → Result} (h : withPop s k = .next t) :
    s.CanPop ∧ k s.second s.popped = .next t := by
  unfold withPop at h
  split at h
  · exact ⟨‹_›, h⟩
  · cases h

theorem withRPush_next {v : Word} {s t : State} {k : State → Result} (h : withRPush v s k = .next t) :
    s.CanRPush ∧ k (s.rpushed v) = .next t := by
  unfold withRPush at h
  split at h
  · exact ⟨‹_›, h⟩
  · cases h

theorem withRPop_next {s t : State} {k : Word → State → Result} (h : withRPop s k = .next t) :
    s.CanRPop ∧ k s.rtop s.rpopped = .next t := by
  unfold withRPop at h
  split at h
  · exact ⟨‹_›, h⟩
  · cases h

/-- `S` stays in its range across a push and across a pop (60_exceptions.md R137). -/
theorem State.pushed_S_range {s : State} (v : Word) (h : s.CanPush) :
    Config.dstkLo ≤ (s.pushed v).S.toNat ∧ (s.pushed v).S.toNat ≤ Config.dstkTop := by
  simp only [State.CanPush, Config.dstkLo, Config.dstkTop, State.pushed_S] at *
  bv_omega

theorem State.popped_S_range {s : State} (h : s.CanPop) :
    Config.dstkLo ≤ s.popped.S.toNat ∧ s.popped.S.toNat ≤ Config.dstkTop := by
  simp only [State.CanPop, Config.dstkLo, Config.dstkTop, State.popped_S] at *
  bv_omega

end Sys2Proof.Machine
end

