-- ==== Sys2Proof/Laws/Block.lean ====
section
/-! SUPPORT. The law of BlockIO: what a request can change, and that it keeps the canonical forms. -/

namespace Sys2Proof.Machine

theorem takeWriteAnswer_frame (s : State) :
    (takeWriteAnswer s).2 =
      { s with writeAnswers := (takeWriteAnswer s).2.writeAnswers, draws := (takeWriteAnswer s).2.draws } := by
  unfold takeWriteAnswer
  split <;> rfl

theorem leaveFile_wf (left : FailedFile) (name : FileName) (data : List Byte) {st : Store} (h : Store.wf st = true) :
    Store.wf (leaveFile left name data st) = true := by
  cases left with
  | absent => exact eraseFile_wf h name
  | old => exact h
  | prefixOf n => exact putFile_wf h name _

/-- A valid write changes the file of that name, the host's answers and the draw counter, and sends at most the one
diagnostic. -/
theorem blockWrite_cases (off id : Word) (s : State) :
    (∃ wa dr, blockWrite off id s = (0#16, { s with
        writeAnswers := wa, draws := dr,
        store := putFile (blockName id) (readBytes s.mem off.toNat 1024) s.store })) ∨
    ∃ wa dr left, blockWrite off id s = (0xFFFF#16, { s with
        writeAnswers := wa, draws := dr,
        store := leaveFile left (blockName id) (readBytes s.mem off.toNat 1024) s.store,
        errors := s.errors ++ [.diag (.blockTransfer off id .write)] }) := by
  have hf := takeWriteAnswer_frame s
  unfold blockWrite
  simp only
  split
  · exact .inl ⟨_, _, by rw [hf]⟩
  · next left _ => exact .inr ⟨_, _, left, by rw [hf]; rfl⟩

/-- A valid read finds no file, fills the block, or draws the block's bytes. -/
theorem blockRead_cases (off id : Word) (s : State) :
    (lookup (blockName id) s.store = none ∧
      blockRead off id s = (0xFFFF#16, s.diag (.blockTransfer off id .read))) ∨
    (∃ data, lookup (blockName id) s.store = some data ∧ 1024 ≤ data.length ∧
      blockRead off id s = (0#16, { s with mem := writeBytes s.mem off.toNat (data.take 1024) })) ∨
    ∃ data, lookup (blockName id) s.store = some data ∧ data.length < 1024 ∧
      blockRead off id s = (0xFFFF#16,
        ({ s with mem := writeBytes s.mem off.toNat (shortReadBytes s.draws), draws := s.draws + 1 } : State).diag
          (.blockTransfer off id .read)) := by
  unfold blockRead
  split
  · next h => exact .inl ⟨h, rfl⟩
  · next data h =>
    split
    · next hl => exact .inr (.inl ⟨data, h, hl, rfl⟩)
    · next hl => exact .inr (.inr ⟨data, h, by simpa using hl, rfl⟩)

@[simp] theorem shortReadBytes_length (n : Nat) : (shortReadBytes n).length = 1024 := by simp [shortReadBytes]

/-- Every request is rejected with its diagnostic, or is a valid write, or a valid read. -/
theorem blockIO_cases (off id : Word) (mode : BlockMode) (s : State) :
    blockIO off id mode s = (0xFFFF#16, s.diag (.blockRequest off id mode)) ∨
    (off.toNat + 1024 ≤ 65536 ∧ mode = .write ∧ blockIO off id mode s = blockWrite off id s) ∨
    (off.toNat + 1024 ≤ 65536 ∧ mode = .read ∧ blockIO off id mode s = blockRead off id s) := by
  unfold blockIO
  cases mode with
  | write => simp only; split <;> simp_all
  | read => simp only; split <;> simp_all
  | other code => exact .inl rfl

theorem blockIO_write (off id : Word) (s : State) (h : off.toNat + 1024 ≤ 65536) :
    blockIO off id .write s = blockWrite off id s := by
  unfold blockIO; simp only; rw [if_pos h]

theorem blockIO_read (off id : Word) (s : State) (h : off.toNat + 1024 ≤ 65536) :
    blockIO off id .read s = blockRead off id s := by
  unfold blockIO; simp only; rw [if_pos h]

/-- A request changes only memory, the store, the host's answers, the draw counter and the error channel. -/
theorem blockIO_frame (off id : Word) (mode : BlockMode) (s : State) :
    (blockIO off id mode s).2 = { s with
      mem := (blockIO off id mode s).2.mem, store := (blockIO off id mode s).2.store,
      writeAnswers := (blockIO off id mode s).2.writeAnswers, draws := (blockIO off id mode s).2.draws,
      errors := (blockIO off id mode s).2.errors } := by
  rcases blockIO_cases off id mode s with h | ⟨-, -, h⟩ | ⟨-, -, h⟩ <;> rewrite [h]
  · rfl
  · rcases blockWrite_cases off id s with ⟨_, _, h⟩ | ⟨_, _, _, h⟩ <;> rewrite [h] <;> rfl
  · rcases blockRead_cases off id s with ⟨-, h⟩ | ⟨_, -, -, h⟩ | ⟨_, -, -, h⟩ <;> rewrite [h] <;> simp only [State.diag]

@[simp] theorem blockIO_I (off id : Word) (mode : BlockMode) (s : State) : (blockIO off id mode s).2.I = s.I := by rw [blockIO_frame]
@[simp] theorem blockIO_f (off id : Word) (mode : BlockMode) (s : State) : (blockIO off id mode s).2.f = s.f := by rw [blockIO_frame]
@[simp] theorem blockIO_S (off id : Word) (mode : BlockMode) (s : State) : (blockIO off id mode s).2.S = s.S := by rw [blockIO_frame]
@[simp] theorem blockIO_LATEST (off id : Word) (mode : BlockMode) (s : State) : (blockIO off id mode s).2.LATEST = s.LATEST := by rw [blockIO_frame]
@[simp] theorem blockIO_STRP (off id : Word) (mode : BlockMode) (s : State) : (blockIO off id mode s).2.STRP = s.STRP := by rw [blockIO_frame]
@[simp] theorem blockIO_NXT (off id : Word) (mode : BlockMode) (s : State) : (blockIO off id mode s).2.NXT = s.NXT := by rw [blockIO_frame]
@[simp] theorem blockIO_INVALID (off id : Word) (mode : BlockMode) (s : State) : (blockIO off id mode s).2.INVALID = s.INVALID := by rw [blockIO_frame]
@[simp] theorem blockIO_mode (off id : Word) (mode : BlockMode) (s : State) : (blockIO off id mode s).2.mode = s.mode := by rw [blockIO_frame]
@[simp] theorem blockIO_input (off id : Word) (mode : BlockMode) (s : State) : (blockIO off id mode s).2.input = s.input := by rw [blockIO_frame]
@[simp] theorem blockIO_output (off id : Word) (mode : BlockMode) (s : State) : (blockIO off id mode s).2.output = s.output := by rw [blockIO_frame]
@[simp] theorem blockIO_calls (off id : Word) (mode : BlockMode) (s : State) : (blockIO off id mode s).2.calls = s.calls := by rw [blockIO_frame]
@[simp] theorem blockIO_replies (off id : Word) (mode : BlockMode) (s : State) : (blockIO off id mode s).2.replies = s.replies := by rw [blockIO_frame]


/-- A request keeps memory canonical. -/
theorem blockIO_wf (off id : Word) (mode : BlockMode) {s : State} (h : s.mem.wf = true) :
    (blockIO off id mode s).2.mem.wf = true := by
  rcases blockIO_cases off id mode s with e | ⟨-, -, e⟩ | ⟨hb, -, e⟩ <;> rewrite [e]
  · exact h
  · rcases blockWrite_cases off id s with ⟨_, _, e⟩ | ⟨_, _, _, e⟩ <;> rewrite [e] <;> simp only <;> exact h
  · rcases blockRead_cases off id s with ⟨-, e⟩ | ⟨data, -, hl, e⟩ | ⟨_, -, -, e⟩ <;> rewrite [e]
    · exact h
    · simp only
      exact writeBytes_wf h _ _ (by simp only [List.length_take]; omega)
    · simp only [State.diag]
      exact writeBytes_wf h _ _ (by rw [shortReadBytes_length]; omega)

/-- A request keeps the store canonical. -/
theorem blockIO_store_wf (off id : Word) (mode : BlockMode) {s : State} (h : Store.wf s.store = true) :
    Store.wf (blockIO off id mode s).2.store = true := by
  rcases blockIO_cases off id mode s with e | ⟨-, -, e⟩ | ⟨-, -, e⟩ <;> rewrite [e]
  · exact h
  · rcases blockWrite_cases off id s with ⟨_, _, e⟩ | ⟨_, _, _, e⟩ <;> rewrite [e]
    · simp only
      exact putFile_wf h _ _
    · simp only
      exact leaveFile_wf _ _ _ h
  · rcases blockRead_cases off id s with ⟨-, e⟩ | ⟨_, -, -, e⟩ | ⟨_, -, -, e⟩ <;> rewrite [e] <;> simp only [State.diag] <;> exact h

/-- A request sends at most one event. -/
theorem blockIO_errors (off id : Word) (mode : BlockMode) (s : State) :
    (blockIO off id mode s).2.errors = s.errors ∨ ∃ e, (blockIO off id mode s).2.errors = s.errors ++ [e] := by
  rcases blockIO_cases off id mode s with h | ⟨-, -, h⟩ | ⟨-, -, h⟩ <;> rewrite [h]
  · exact .inr ⟨_, rfl⟩
  · rcases blockWrite_cases off id s with ⟨_, _, h⟩ | ⟨_, _, _, h⟩ <;> rewrite [h]
    · exact .inl (by simp only)
    · exact .inr ⟨_, rfl⟩
  · rcases blockRead_cases off id s with ⟨-, h⟩ | ⟨_, -, -, h⟩ | ⟨_, -, -, h⟩ <;> rewrite [h]
    · exact .inr ⟨_, rfl⟩
    · exact .inl (by simp only)
    · exact .inr ⟨_, rfl⟩

end Sys2Proof.Machine
end

