-- ==== Sys2Proof/Laws/Dictionary.lean ====
section
/-! SUPPORT. Laws of the dictionary helpers: storing a string and making an entry change memory (and `STRP` and `LATEST`)
and nothing else, keep the canonical form, and write only the cells they name. -/

namespace Sys2Proof.Machine

/-! ### storeString -/

/-- Storing a string changes memory only. -/
theorem storeString_frame (a : Addr) (bs : List Byte) (s : State) :
    storeString a bs s = { s with mem := (storeString a bs s).mem } := by
  induction bs generalizing a s with
  | nil => rfl
  | cons b bs ih => simp only [storeString]; rw [ih]; rfl

@[simp] theorem storeString_I (a : Addr) (bs : List Byte) (s : State) : (storeString a bs s).I = s.I := by rw [storeString_frame]
@[simp] theorem storeString_f (a : Addr) (bs : List Byte) (s : State) : (storeString a bs s).f = s.f := by rw [storeString_frame]
@[simp] theorem storeString_S (a : Addr) (bs : List Byte) (s : State) : (storeString a bs s).S = s.S := by rw [storeString_frame]
@[simp] theorem storeString_LATEST (a : Addr) (bs : List Byte) (s : State) : (storeString a bs s).LATEST = s.LATEST := by rw [storeString_frame]
@[simp] theorem storeString_STRP (a : Addr) (bs : List Byte) (s : State) : (storeString a bs s).STRP = s.STRP := by rw [storeString_frame]
@[simp] theorem storeString_NXT (a : Addr) (bs : List Byte) (s : State) : (storeString a bs s).NXT = s.NXT := by rw [storeString_frame]
@[simp] theorem storeString_INVALID (a : Addr) (bs : List Byte) (s : State) : (storeString a bs s).INVALID = s.INVALID := by rw [storeString_frame]
@[simp] theorem storeString_mode (a : Addr) (bs : List Byte) (s : State) : (storeString a bs s).mode = s.mode := by rw [storeString_frame]
@[simp] theorem storeString_input (a : Addr) (bs : List Byte) (s : State) : (storeString a bs s).input = s.input := by rw [storeString_frame]
@[simp] theorem storeString_output (a : Addr) (bs : List Byte) (s : State) : (storeString a bs s).output = s.output := by rw [storeString_frame]
@[simp] theorem storeString_errors (a : Addr) (bs : List Byte) (s : State) : (storeString a bs s).errors = s.errors := by rw [storeString_frame]
@[simp] theorem storeString_store (a : Addr) (bs : List Byte) (s : State) : (storeString a bs s).store = s.store := by rw [storeString_frame]
@[simp] theorem storeString_writeAnswers (a : Addr) (bs : List Byte) (s : State) : (storeString a bs s).writeAnswers = s.writeAnswers := by rw [storeString_frame]
@[simp] theorem storeString_calls (a : Addr) (bs : List Byte) (s : State) : (storeString a bs s).calls = s.calls := by rw [storeString_frame]
@[simp] theorem storeString_replies (a : Addr) (bs : List Byte) (s : State) : (storeString a bs s).replies = s.replies := by rw [storeString_frame]
@[simp] theorem storeString_draws (a : Addr) (bs : List Byte) (s : State) : (storeString a bs s).draws = s.draws := by rw [storeString_frame]

theorem storeString_wf (a : Addr) (bs : List Byte) {s : State} (h : s.mem.wf = true) :
    (storeString a bs s).mem.wf = true := by
  induction bs generalizing a s with
  | nil => exact State.setCell_wf h a _
  | cons b bs ih => exact ih _ (State.setCell_wf h a _)

/-- What memory a string leaves depends on memory alone. -/
theorem storeString_mem_congr (a : Addr) (bs : List Byte) {s t : State} (h : s.mem = t.mem) :
    (storeString a bs s).mem = (storeString a bs t).mem := by
  induction bs generalizing a s t with
  | nil => simp [storeString, h]
  | cons b bs ih => exact ih _ (by simp [h])

/-- A cell that is none of the string's reads as before. -/
theorem storeString_cell_other (a : Addr) (bs : List Byte) {s : State} (h : s.mem.wf = true) (c : Addr)
    (hc : ∀ i ≤ bs.length, c ≠ a + BitVec.ofNat 15 i) : (storeString a bs s).cell c = s.cell c := by
  induction bs generalizing a s with
  | nil =>
    have h0 := hc 0 (Nat.le_refl _)
    simp only [BitVec.add_zero] at h0
    simp only [storeString]
    rw [State.setCell_cell h, if_neg h0]
  | cons b bs ih =>
    have h0 := hc 0 (Nat.zero_le _)
    simp only [BitVec.add_zero] at h0
    simp only [storeString]
    rw [ih (a + 1#15) (State.setCell_wf h _ _), State.setCell_cell h, if_neg h0]
    intro i hi
    have := hc (i + 1) (by simp only [List.length_cons]; omega)
    intro e
    apply this
    rw [e]
    have : BitVec.ofNat 15 (i + 1) = BitVec.ofNat 15 i + 1#15 := by
      apply BitVec.eq_of_toNat_eq; simp
    rw [this]
    ac_rfl

/-- The cells of a string of at most 31 characters read as the string, ended by a NUL. -/
theorem storeString_cell_self (a : Addr) (bs : List Byte) {s : State} (h : s.mem.wf = true) (hl : bs.length < 32768)
    (i : Nat) (hi : i ≤ bs.length) :
    (storeString a bs s).cell (a + BitVec.ofNat 15 i) = if i < bs.length then zextByte (bs.getD i 0#8) else 0#16 := by
  induction bs generalizing a s i with
  | nil =>
    have : i = 0 := by simpa using hi
    subst this
    simp only [storeString, BitVec.add_zero]
    rw [State.setCell_cell h]
    simp
  | cons b bs ih =>
    simp only [List.length_cons] at hl hi
    simp only [storeString]
    cases i with
    | zero =>
      simp only [BitVec.add_zero, List.length_cons]
      rw [storeString_cell_other _ _ (State.setCell_wf h _ _), State.setCell_cell h]
      · simp
      · intro j hj e
        have he := congrArg BitVec.toNat e
        simp only [BitVec.toNat_add, BitVec.toNat_ofNat] at he
        omega
    | succ i =>
      have e : a + BitVec.ofNat 15 (i + 1) = a + 1#15 + BitVec.ofNat 15 i := by
        have : BitVec.ofNat 15 (i + 1) = 1#15 + BitVec.ofNat 15 i := by
          apply BitVec.eq_of_toNat_eq; simp [Nat.add_comm]
        rw [this]; ac_rfl
      rw [e, ih (a + 1#15) (State.setCell_wf h _ _) (by omega) i (by omega)]
      simp

/-! ### makeEntry -/

/-- Making an entry changes memory, `STRP` and `LATEST` only. -/
theorem makeEntry_frame (tok : List Byte) (s : State) :
    makeEntry tok s = { s with
      mem := (makeEntry tok s).mem, STRP := (makeEntry tok s).STRP, LATEST := (makeEntry tok s).LATEST } := by
  have hs := storeString_frame (nameCell s.STRP) tok s
  simp only [makeEntry]
  generalize storeString (nameCell s.STRP) tok s = s1 at hs ⊢
  rw [hs]
  rfl

@[simp] theorem makeEntry_I (tok : List Byte) (s : State) : (makeEntry tok s).I = s.I := by rw [makeEntry_frame]
@[simp] theorem makeEntry_f (tok : List Byte) (s : State) : (makeEntry tok s).f = s.f := by rw [makeEntry_frame]
@[simp] theorem makeEntry_S (tok : List Byte) (s : State) : (makeEntry tok s).S = s.S := by rw [makeEntry_frame]
@[simp] theorem makeEntry_NXT (tok : List Byte) (s : State) : (makeEntry tok s).NXT = s.NXT := by rw [makeEntry_frame]
@[simp] theorem makeEntry_INVALID (tok : List Byte) (s : State) : (makeEntry tok s).INVALID = s.INVALID := by rw [makeEntry_frame]
@[simp] theorem makeEntry_mode (tok : List Byte) (s : State) : (makeEntry tok s).mode = s.mode := by rw [makeEntry_frame]
@[simp] theorem makeEntry_input (tok : List Byte) (s : State) : (makeEntry tok s).input = s.input := by rw [makeEntry_frame]
@[simp] theorem makeEntry_output (tok : List Byte) (s : State) : (makeEntry tok s).output = s.output := by rw [makeEntry_frame]
@[simp] theorem makeEntry_errors (tok : List Byte) (s : State) : (makeEntry tok s).errors = s.errors := by rw [makeEntry_frame]
@[simp] theorem makeEntry_store (tok : List Byte) (s : State) : (makeEntry tok s).store = s.store := by rw [makeEntry_frame]
@[simp] theorem makeEntry_writeAnswers (tok : List Byte) (s : State) : (makeEntry tok s).writeAnswers = s.writeAnswers := by rw [makeEntry_frame]
@[simp] theorem makeEntry_calls (tok : List Byte) (s : State) : (makeEntry tok s).calls = s.calls := by rw [makeEntry_frame]
@[simp] theorem makeEntry_replies (tok : List Byte) (s : State) : (makeEntry tok s).replies = s.replies := by rw [makeEntry_frame]
@[simp] theorem makeEntry_draws (tok : List Byte) (s : State) : (makeEntry tok s).draws = s.draws := by rw [makeEntry_frame]

theorem makeEntry_STRP (tok : List Byte) (s : State) :
    (makeEntry tok s).STRP = s.STRP + BitVec.ofNat 16 (tok.length + 1) := rfl

theorem makeEntry_LATEST (tok : List Byte) (s : State) :
    (makeEntry tok s).LATEST = mask (storeString (nameCell s.STRP) tok s).DP := rfl

/-- The memory of a new entry: the name, then the two header cells appended. -/
theorem makeEntry_mem (tok : List Byte) (s : State) :
    (makeEntry tok s).mem =
      (((storeString (nameCell s.STRP) tok s).append (zext s.LATEST)).append s.STRP).mem := by
  have h : (storeString (nameCell s.STRP) tok s).LATEST = s.LATEST := storeString_LATEST _ _ _
  rw [← h]
  rfl

theorem makeEntry_wf (tok : List Byte) {s : State} (h : s.mem.wf = true) : (makeEntry tok s).mem.wf = true := by
  rw [makeEntry_mem]
  exact State.append_wf (State.append_wf (storeString_wf _ _ h) _) _

end Sys2Proof.Machine
end

