-- ==== Sys2Proof/Laws/Reader.lean ====
section
/-! SUPPORT. Laws of the readers: each leaves a suffix of the stream, and each gives the same answer with the waits
taken out. -/

namespace Sys2Proof.Machine

@[simp] theorem streamBytes_nil : streamBytes [] = [] := rfl
@[simp] theorem streamBytes_wait (r : List InputSlot) : streamBytes (.wait :: r) = streamBytes r := rfl
@[simp] theorem streamBytes_byte (b : Byte) (r : List InputSlot) : streamBytes (.byte b :: r) = b :: streamBytes r := rfl
@[simp] theorem dropWaits_nil : dropWaits [] = [] := rfl
@[simp] theorem dropWaits_wait (r : List InputSlot) : dropWaits (.wait :: r) = dropWaits r := rfl
@[simp] theorem dropWaits_byte (b : Byte) (r : List InputSlot) : dropWaits (.byte b :: r) = .byte b :: dropWaits r := rfl

theorem readChar_suffix (inp : List InputSlot) : (readChar inp).2 <:+ inp := by
  induction inp with
  | nil => exact List.suffix_refl _
  | cons x r ih =>
    cases x with
    | byte b => exact List.suffix_cons _ _
    | wait => exact ih.trans (List.suffix_cons _ _)

theorem skipSpace_suffix (inp : List InputSlot) : skipSpace inp <:+ inp := by
  induction inp with
  | nil => exact List.suffix_refl _
  | cons x r ih =>
    cases x with
    | byte b =>
      simp only [skipSpace]
      split
      · exact ih.trans (List.suffix_cons _ _)
      · exact List.suffix_refl _
    | wait => exact ih.trans (List.suffix_cons _ _)

theorem takeToken_suffix (room : Nat) (inp : List InputSlot) : (takeToken room inp).2 <:+ inp := by
  induction inp generalizing room with
  | nil => cases room <;> exact List.suffix_refl _
  | cons x r ih =>
    cases room with
    | zero => exact List.suffix_refl _
    | succ room =>
      cases x with
      | byte b =>
        simp only [takeToken]
        split
        · exact List.suffix_refl _
        · exact (ih room).trans (List.suffix_cons _ _)
      | wait => exact (ih (room + 1)).trans (List.suffix_cons _ _)

theorem readToken_suffix (inp : List InputSlot) : (readToken inp).2 <:+ inp := by
  have h := skipSpace_suffix inp
  unfold readToken
  split
  · exact List.nil_suffix
  · next x r e => rw [e] at h; exact (takeToken_suffix _ _).trans h

theorem skipLine_suffix (inp : List InputSlot) : skipLine inp <:+ inp := by
  induction inp with
  | nil => exact List.suffix_refl _
  | cons x r ih =>
    cases x with
    | byte b =>
      simp only [skipLine]
      split
      · exact List.suffix_cons _ _
      · exact ih.trans (List.suffix_cons _ _)
    | wait => exact ih.trans (List.suffix_cons _ _)

theorem readChar_dropWaits (inp : List InputSlot) :
    readChar (dropWaits inp) = ((readChar inp).1, dropWaits (readChar inp).2) := by
  induction inp with
  | nil => rfl
  | cons x r ih => cases x with
    | byte b => rfl
    | wait => exact ih

theorem skipSpace_dropWaits (inp : List InputSlot) : skipSpace (dropWaits inp) = dropWaits (skipSpace inp) := by
  induction inp with
  | nil => rfl
  | cons x r ih => cases x with
    | byte b =>
      simp only [dropWaits_byte, skipSpace]
      split
      · exact ih
      · rfl
    | wait => exact ih

theorem takeToken_dropWaits (room : Nat) (inp : List InputSlot) :
    takeToken room (dropWaits inp) = ((takeToken room inp).1, dropWaits (takeToken room inp).2) := by
  induction inp generalizing room with
  | nil => cases room <;> rfl
  | cons x r ih =>
    cases room with
    | zero => cases x <;> simp [takeToken]
    | succ room =>
      cases x with
      | byte b =>
        simp only [dropWaits_byte, takeToken]
        split
        · rfl
        · simp [ih]
      | wait => exact ih _

/-- The first loop of the token reader ends at a byte that is not whitespace, or at end of stream. -/
theorem skipSpace_head (inp : List InputSlot) :
    skipSpace inp = [] ∨ ∃ b r, skipSpace inp = .byte b :: r ∧ isSpace b = false := by
  induction inp with
  | nil => exact .inl rfl
  | cons x r ih =>
    cases x with
    | byte b =>
      simp only [skipSpace]
      split
      · exact ih
      · next h => exact .inr ⟨b, r, rfl, by simpa using h⟩
    | wait => exact ih

theorem readToken_dropWaits (inp : List InputSlot) :
    readToken (dropWaits inp) = ((readToken inp).1, dropWaits (readToken inp).2) := by
  rcases skipSpace_head inp with h | ⟨b, r, h, -⟩
  · simp [readToken, skipSpace_dropWaits, h]
  · simp only [readToken, skipSpace_dropWaits, h, dropWaits_byte]
    rw [← dropWaits_byte, takeToken_dropWaits]

theorem skipLine_dropWaits (inp : List InputSlot) : skipLine (dropWaits inp) = dropWaits (skipLine inp) := by
  induction inp with
  | nil => rfl
  | cons x r ih => cases x with
    | byte b =>
      simp only [dropWaits_byte, skipLine]
      split
      · rfl
      · exact ih
    | wait => exact ih

end Sys2Proof.Machine
end

