-- ==== Sys2Proof/Laws/Meanings.lean ====
section
/-! SUPPORT. For each meaning, one lemma that says once what it can do when it answers a next state: under which
conditions, and exactly which state, in the named updates of Machine/Ops.lean. -/

namespace Sys2Proof.Machine

theorem next_inj {s t : State} (h : (Host.Outcome.next s : Result) = .next t) : t = s := by cases h; rfl

theorem execPush_next {lit : Word} {s t : State} (h : execPush lit s = .next t) :
    (skipInline s).CanPush ∧ t = (skipInline s).pushed lit := by
  obtain ⟨hp, h⟩ := withPush_next h
  exact ⟨hp, next_inj h⟩

theorem execCompile_next {x : Addr} {s t : State} (h : execCompile x s = .next t) :
    (s.STATE = 0#16 ∧ t = s.dispatch x) ∨ (s.STATE ≠ 0#16 ∧ t = s.append (zext x)) := by
  unfold execCompile at h
  split at h
  · exact .inl ⟨‹_›, next_inj h⟩
  · exact .inr ⟨‹_›, next_inj h⟩

theorem execRun_next {x : Addr} {s t : State} (h : execRun x s = .next t) :
    s.CanRPush ∧ t = (s.rpushed (zext s.I)).setI x := by
  obtain ⟨hp, h⟩ := withRPush_next h
  exact ⟨hp, next_inj h⟩

theorem execExit_next {s t : State} (h : execExit s = .next t) : s.CanRPop ∧ t = s.rpopped.setI (mask s.rtop) := by
  obtain ⟨hp, h⟩ := withRPop_next h
  exact ⟨hp, next_inj h⟩

theorem binary_next {op : Word → Word → Word} {s t : State} (h : binary op s = .next t) :
    s.CanPop ∧ t = s.popped.setF (op s.second s.f) := by
  obtain ⟨hp, h⟩ := withPop_next h
  exact ⟨hp, next_inj h⟩

theorem execSub_next {s t : State} (h : execSub s = .next t) :
    s.CanPop ∧ t = s.popped.setF (s.second - s.f) := binary_next (op := fun a b => a - b) h
theorem execAdd_next {s t : State} (h : execAdd s = .next t) :
    s.CanPop ∧ t = s.popped.setF (s.second + s.f) := binary_next (op := fun a b => a + b) h
theorem execMul_next {s t : State} (h : execMul s = .next t) :
    s.CanPop ∧ t = s.popped.setF (s.second * s.f) := binary_next (op := fun a b => a * b) h
theorem execUless_next {s t : State} (h : execUless s = .next t) :
    s.CanPop ∧ t = s.popped.setF (truthCell (unsignedLess s.second s.f)) :=
  binary_next (op := fun a b => truthCell (unsignedLess a b)) h
theorem execEqual_next {s t : State} (h : execEqual s = .next t) :
    s.CanPop ∧ t = s.popped.setF (truthCell (sameCell s.second s.f)) :=
  binary_next (op := fun a b => truthCell (sameCell a b)) h

theorem execDiv_next {s t : State} (h : execDiv s = .next t) :
    s.CanPop ∧ ((s.f = 0#16 ∧ t = (s.popped.diag .divZero).setF 0#16) ∨
      (s.f ≠ 0#16 ∧ t = s.popped.setF (s.second.udiv s.f))) := by
  obtain ⟨hp, h⟩ := withPop_next h
  refine ⟨hp, ?_⟩
  split at h
  · exact .inl ⟨‹_›, next_inj h⟩
  · exact .inr ⟨‹_›, next_inj h⟩

theorem execLoad_next {s t : State} (h : execLoad s = .next t) : t = s.setF (s.cell (absoluteAddr s)) := next_inj h

theorem execStore_next {s t : State} (h : execStore s = .next t) :
    s.CanPop ∧ s.popped.CanPop ∧
      t = (s.popped.setCell (absoluteAddr s) s.second).popped.setF
        (s.popped.setCell (absoluteAddr s) s.second).second := by
  obtain ⟨hp, h⟩ := withPop_next h
  obtain ⟨hq, h⟩ := withPop_next h
  exact ⟨hp, hq, next_inj h⟩

theorem execSwap_next {s t : State} (h : execSwap s = .next t) :
    s.CanPop ∧ t = (s.setCell s.S s.f).setF s.second := by
  unfold execSwap at h
  split at h
  · exact ⟨‹_›, next_inj h⟩
  · cases h

theorem execDup_next {s t : State} (h : execDup s = .next t) : s.CanPush ∧ t = s.pushed s.f := by
  obtain ⟨hp, h⟩ := withPush_next h
  exact ⟨hp, next_inj h⟩

theorem execDrop_next {s t : State} (h : execDrop s = .next t) : s.CanPop ∧ t = s.popped.setF s.second := by
  obtain ⟨hp, h⟩ := withPop_next h
  exact ⟨hp, next_inj h⟩

theorem execTor_next {s t : State} (h : execTor s = .next t) :
    s.CanRPush ∧ s.CanPop ∧ t = (s.rpushed s.f).popped.setF (s.rpushed s.f).second := by
  obtain ⟨hp, h⟩ := withRPush_next h
  obtain ⟨hq, h⟩ := withPop_next h
  exact ⟨hp, hq, next_inj h⟩

theorem execFromr_next {s t : State} (h : execFromr s = .next t) :
    s.CanRPop ∧ s.CanPush ∧ t = s.rpopped.pushed s.rtop := by
  obtain ⟨hp, h⟩ := withRPop_next h
  obtain ⟨hq, h⟩ := withPush_next h
  exact ⟨hp, hq, next_inj h⟩

theorem execJmp_next {off : Word} {s t : State} (h : execJmp off s = .next t) :
    t = s.setI (jumpTarget s.I off) := next_inj h

theorem execJmpz_next {off : Word} {s t : State} (h : execJmpz off s = .next t) :
    s.CanPop ∧ ((s.f = 0#16 ∧ t = (s.setI (jumpTarget s.I off)).popped.setF s.second) ∨
      (s.f ≠ 0#16 ∧ t = (s.setI (s.I + 1#15)).popped.setF s.second)) := by
  obtain ⟨hp, h⟩ := withPop_next h
  by_cases hf : s.f = 0#16
  · simp only [isZero, hf, decide_true, if_true] at hp h
    exact ⟨hp, .inl ⟨hf, next_inj h⟩⟩
  · simp only [isZero, hf, decide_false, Bool.false_eq_true, if_false] at hp h
    exact ⟨hp, .inr ⟨hf, next_inj h⟩⟩

theorem execPnum_next {s t : State} (h : execPnum s = .next t) :
    s.CanPop ∧ t = (s.out (numberText s.radix s.f ++ [0x20#8])).popped.setF s.second := by
  obtain ⟨hp, h⟩ := withPop_next h
  exact ⟨hp, next_inj h⟩

theorem execEmit_next {s t : State} (h : execEmit s = .next t) :
    s.CanPop ∧ t = (s.out [loByte s.f]).popped.setF s.second := by
  obtain ⟨hp, h⟩ := withPop_next h
  exact ⟨hp, next_inj h⟩

theorem execKey_next {s t : State} (h : execKey s = .next t) :
    s.CanPush ∧ t = (s.setInput (readChar s.input).2).pushed (keyCell (readChar s.input).1) := by
  obtain ⟨hp, h⟩ := withPush_next h
  exact ⟨hp, next_inj h⟩

theorem execDefine_next {s t : State} (h : execDefine s = .next t) :
    (∃ rest, readToken s.input = (none, rest) ∧
      t = ((s.setCell stateCell 1#16).setInput rest).fatal .nameRead) ∨
    ∃ tok rest, readToken s.input = (some tok, rest) ∧
      t = ((makeEntry tok ((s.setCell stateCell 1#16).setInput rest)).append compileCell).append runCell := by
  unfold execDefine at h
  simp only [State.setCell_input] at h
  split at h
  · next rest e => exact .inl ⟨rest, e, next_inj h⟩
  · next tok rest e => exact .inr ⟨tok, rest, e, next_inj h⟩

theorem execImmediate_next {s t : State} (h : execImmediate s = .next t) :
    t = (s.setCell dpCell (s.DP - 2#16)).append runCell := next_inj h

theorem execComment_next {s t : State} (h : execComment s = .next t) : t = s.setInput (skipLine s.input) := next_inj h

theorem execComma_next {s t : State} (h : execComma s = .next t) :
    s.CanPop ∧ t = (s.append s.f).popped.setF (s.append s.f).second := by
  obtain ⟨hp, h⟩ := withPop_next h
  exact ⟨hp, next_inj h⟩

theorem blockOp_next {mode : BlockMode} {s t : State} (h : blockOp mode s = .next t) :
    s.CanPop ∧ t = (blockIO s.second s.f mode s.popped).2.setF (blockIO s.second s.f mode s.popped).1 := by
  obtain ⟨hp, h⟩ := withPop_next h
  exact ⟨hp, next_inj h⟩

theorem execBsave_next {s t : State} (h : execBsave s = .next t) :
    s.CanPop ∧ t = (blockIO s.second s.f .write s.popped).2.setF (blockIO s.second s.f .write s.popped).1 :=
  blockOp_next h
theorem execBload_next {s t : State} (h : execBload s = .next t) :
    s.CanPop ∧ t = (blockIO s.second s.f .read s.popped).2.setF (blockIO s.second s.f .read s.popped).1 :=
  blockOp_next h

/-- The state READ looks a token up in: one return address dropped, the token read and in the token buffer. -/
def tokenStored (tok : List Byte) (rest : List InputSlot) (s : State) : State :=
  storeString Config.tokBuf tok (s.rpopped.setInput rest)

/-- READ halts at end of input, or hands a found word over, or diagnoses, pushes or compiles what is no word. -/
theorem execRead_next {s t : State} (h : execRead s = .next t) :
    s.CanRPop ∧
    ((∃ rest, readToken s.input = (none, rest) ∧ t = (s.rpopped.setInput rest).endRun 0#16) ∨
    ∃ tok rest, readToken s.input = (some tok, rest) ∧
      ((∃ w, find (tokenStored tok rest s) = some w ∧ w ≠ Config.sent ∧
          t = (tokenStored tok rest s).dispatch (w + 2#15)) ∨
        (find (tokenStored tok rest s) = some Config.sent ∧
          (t = (tokenStored tok rest s).diag (.undefinedWord tok) ∨
          ∃ n, ((tokenStored tok rest s).STATE = 0#16 ∧ (tokenStored tok rest s).CanPush ∧
              t = (tokenStored tok rest s).pushed n) ∨
            ((tokenStored tok rest s).STATE ≠ 0#16 ∧
              t = ((tokenStored tok rest s).append Config.litXt).append n))))) := by
  obtain ⟨hp, h⟩ := withRPop_next h
  refine ⟨hp, ?_⟩
  simp only [State.rpopped_input] at h
  split at h
  · next rest e => exact .inl ⟨rest, e, next_inj h⟩
  · next tok rest e =>
    refine .inr ⟨tok, rest, e, ?_⟩
    unfold readWord at h
    simp only at h
    change (match find (tokenStored tok rest s) with
      | none => (Host.Outcome.fault (Fault.hung HangReason.findCycle) : Result)
      | some w => if w = Config.sent then readNumber tok (tokenStored tok rest s)
          else Host.Outcome.next ((tokenStored tok rest s).dispatch (w + 2#15))) = _ at h
    generalize tokenStored tok rest s = u at h ⊢
    split at h
    · cases h
    · next w ew =>
      split at h
      · next hw =>
        subst hw
        refine .inr ⟨ew, ?_⟩
        unfold readNumber at h
        split at h
        · exact .inl (next_inj h)
        · next n en =>
          split at h
          · obtain ⟨hq, h⟩ := withPush_next h
            exact .inr ⟨n, .inl ⟨‹_›, hq, next_inj h⟩⟩
          · exact .inr ⟨n, .inr ⟨‹_›, next_inj h⟩⟩
      · next hw => exact .inl ⟨w, ew, hw, next_inj h⟩

end Sys2Proof.Machine
end

