-- ==== Sys2Proof/Laws/Completes.lean ====
section
/-! SUPPORT. For each instruction, the equations of `exec`: from where it completes, and in which state; and where it is
undefined. The converse direction is Laws/Meanings.lean. -/

namespace Sys2Proof.Machine

variable {s : State}

theorem exec_push (lit : Word) (h : s.CanPush) : exec (.push lit) s = .next ((skipInline s).pushed lit) := by
  show execPush lit s = _; exact withPush_of (s := skipInline s) h
theorem exec_push_fault (lit : Word) (h : ¬ s.CanPush) : exec (.push lit) s = .fault (.undef .dataPush) := by
  show execPush lit s = _; exact withPush_fault (s := skipInline s) h

theorem exec_compile_interpreting (x : Addr) (h : s.STATE = 0#16) : exec (.compile x) s = .next (s.dispatch x) := by
  show execCompile x s = _; exact if_pos h
theorem exec_compile_compiling (x : Addr) (h : s.STATE ≠ 0#16) : exec (.compile x) s = .next (s.append (zext x)) := by
  show execCompile x s = _; exact if_neg h

theorem exec_run (x : Addr) (h : s.CanRPush) : exec (.run x) s = .next ((s.rpushed (zext s.I)).setI x) := by
  show execRun x s = _; exact withRPush_of h
theorem exec_run_fault (x : Addr) (h : ¬ s.CanRPush) : exec (.run x) s = .fault (.undef .returnPush) := by
  show execRun x s = _; exact withRPush_fault h

theorem exec_exit (h : s.CanRPop) : exec .exit s = .next (s.rpopped.setI (mask s.rtop)) := by
  show execExit s = _; exact withRPop_of h
theorem exec_exit_fault (h : ¬ s.CanRPop) : exec .exit s = .fault (.undef .returnPop) := by
  show execExit s = _; exact withRPop_fault h

theorem binary_of (op : Word → Word → Word) (h : s.CanPop) :
    binary op s = .next (s.popped.setF (op s.second s.f)) := by
  unfold binary; exact withPop_of h
theorem binary_fault (op : Word → Word → Word) (h : ¬ s.CanPop) : binary op s = .fault (.undef .dataPop) := by
  unfold binary; exact withPop_fault h

theorem exec_sub (h : s.CanPop) : exec .sub s = .next (s.popped.setF (s.second - s.f)) := binary_of _ h
theorem exec_add (h : s.CanPop) : exec .add s = .next (s.popped.setF (s.second + s.f)) := binary_of _ h
theorem exec_mul (h : s.CanPop) : exec .mul s = .next (s.popped.setF (s.second * s.f)) := binary_of _ h
theorem exec_uless (h : s.CanPop) : exec .uless s = .next (s.popped.setF (truthCell (unsignedLess s.second s.f))) :=
  binary_of (fun a b => truthCell (unsignedLess a b)) h
theorem exec_equal (h : s.CanPop) : exec .equal s = .next (s.popped.setF (truthCell (sameCell s.second s.f))) :=
  binary_of (fun a b => truthCell (sameCell a b)) h
theorem exec_sub_fault (h : ¬ s.CanPop) : exec .sub s = .fault (.undef .dataPop) := binary_fault (fun a b => a - b) h
theorem exec_add_fault (h : ¬ s.CanPop) : exec .add s = .fault (.undef .dataPop) := binary_fault (fun a b => a + b) h
theorem exec_mul_fault (h : ¬ s.CanPop) : exec .mul s = .fault (.undef .dataPop) := binary_fault (fun a b => a * b) h
theorem exec_uless_fault (h : ¬ s.CanPop) : exec .uless s = .fault (.undef .dataPop) :=
  binary_fault (fun a b => truthCell (unsignedLess a b)) h
theorem exec_equal_fault (h : ¬ s.CanPop) : exec .equal s = .fault (.undef .dataPop) :=
  binary_fault (fun a b => truthCell (sameCell a b)) h

theorem exec_div (h : s.CanPop) (hf : s.f ≠ 0#16) : exec .div s = .next (s.popped.setF (s.second.udiv s.f)) := by
  show execDiv s = _; unfold execDiv; rw [withPop_of h]; exact if_neg hf
theorem exec_div_zero (h : s.CanPop) (hf : s.f = 0#16) : exec .div s = .next ((s.popped.diag .divZero).setF 0#16) := by
  show execDiv s = _; unfold execDiv; rw [withPop_of h]; exact if_pos hf
theorem exec_div_fault (h : ¬ s.CanPop) : exec .div s = .fault (.undef .dataPop) := by
  show execDiv s = _; exact withPop_fault h

theorem exec_load : exec .load s = .next (s.setF (s.cell (absoluteAddr s))) := rfl

theorem exec_store (h : s.CanPop) (h2 : s.popped.CanPop) :
    exec .store s = .next ((s.popped.setCell (absoluteAddr s) s.second).popped.setF
      (s.popped.setCell (absoluteAddr s) s.second).second) := by
  show execStore s = _; unfold execStore
  rw [withPop_of h, withPop_of (s := s.popped.setCell (absoluteAddr s) s.second) h2]
theorem exec_store_fault (h : ¬ (s.CanPop ∧ s.popped.CanPop)) : exec .store s = .fault (.undef .dataPop) := by
  show execStore s = _; unfold execStore
  by_cases hp : s.CanPop
  · rw [withPop_of hp]
    exact withPop_fault (s := s.popped.setCell (absoluteAddr s) s.second) fun h2 => h ⟨hp, h2⟩
  · exact withPop_fault hp

theorem exec_swap (h : s.CanPop) : exec .swap s = .next ((s.setCell s.S s.f).setF s.second) := by
  show execSwap s = _; exact if_pos h
theorem exec_swap_fault (h : ¬ s.CanPop) : exec .swap s = .fault (.undef .dataPop) := by
  show execSwap s = _; exact if_neg h

theorem exec_dup (h : s.CanPush) : exec .dup s = .next (s.pushed s.f) := by
  show execDup s = _; exact withPush_of h
theorem exec_dup_fault (h : ¬ s.CanPush) : exec .dup s = .fault (.undef .dataPush) := by
  show execDup s = _; exact withPush_fault h

theorem exec_drop (h : s.CanPop) : exec .drop s = .next (s.popped.setF s.second) := by
  show execDrop s = _; exact withPop_of h
theorem exec_drop_fault (h : ¬ s.CanPop) : exec .drop s = .fault (.undef .dataPop) := by
  show execDrop s = _; exact withPop_fault h

theorem exec_tor (h : s.CanRPush) (h2 : s.CanPop) :
    exec .tor s = .next ((s.rpushed s.f).popped.setF (s.rpushed s.f).second) := by
  show execTor s = _; unfold execTor; rw [withRPush_of h]; exact withPop_of (s := s.rpushed s.f) h2
theorem exec_tor_rfault (h : ¬ s.CanRPush) : exec .tor s = .fault (.undef .returnPush) := by
  show execTor s = _; exact withRPush_fault h
theorem exec_tor_fault (h : s.CanRPush) (h2 : ¬ s.CanPop) : exec .tor s = .fault (.undef .dataPop) := by
  show execTor s = _; unfold execTor; rw [withRPush_of h]; exact withPop_fault (s := s.rpushed s.f) h2

theorem exec_fromr (h : s.CanRPop) (h2 : s.CanPush) : exec .fromr s = .next (s.rpopped.pushed s.rtop) := by
  show execFromr s = _; unfold execFromr; rw [withRPop_of h]; exact withPush_of (s := s.rpopped) h2
theorem exec_fromr_rfault (h : ¬ s.CanRPop) : exec .fromr s = .fault (.undef .returnPop) := by
  show execFromr s = _; exact withRPop_fault h
theorem exec_fromr_fault (h : s.CanRPop) (h2 : ¬ s.CanPush) : exec .fromr s = .fault (.undef .dataPush) := by
  show execFromr s = _; unfold execFromr; rw [withRPop_of h]; exact withPush_fault (s := s.rpopped) h2

theorem exec_jmp (off : Word) : exec (.jmp off) s = .next (s.setI (jumpTarget s.I off)) := rfl

theorem exec_jmpz_taken (off : Word) (h : s.CanPop) (hf : s.f = 0#16) :
    exec (.jmpz off) s = .next ((s.setI (jumpTarget s.I off)).popped.setF s.second) := by
  show execJmpz off s = _
  simp only [execJmpz, isZero, hf, decide_true, if_true]
  exact withPop_of (s := s.setI (jumpTarget s.I off)) h
theorem exec_jmpz_through (off : Word) (h : s.CanPop) (hf : s.f ≠ 0#16) :
    exec (.jmpz off) s = .next ((skipInline s).popped.setF s.second) := by
  show execJmpz off s = _
  simp only [execJmpz, isZero, hf, decide_false, Bool.false_eq_true, if_false]
  exact withPop_of (s := skipInline s) h
theorem exec_jmpz_fault (off : Word) (h : ¬ s.CanPop) : exec (.jmpz off) s = .fault (.undef .dataPop) := by
  show execJmpz off s = _
  simp only [execJmpz]
  split
  · exact withPop_fault (s := s.setI (jumpTarget s.I off)) h
  · exact withPop_fault (s := skipInline s) h

theorem exec_pnum (h : s.CanPop) :
    exec .pnum s = .next ((s.out (numberText s.radix s.f ++ [0x20#8])).popped.setF s.second) := by
  show execPnum s = _; exact withPop_of (s := s.out (numberText s.radix s.f ++ [0x20#8])) h
theorem exec_pnum_fault (h : ¬ s.CanPop) : exec .pnum s = .fault (.undef .dataPop) := by
  show execPnum s = _; exact withPop_fault (s := s.out (numberText s.radix s.f ++ [0x20#8])) h

theorem exec_emit (h : s.CanPop) : exec .emit s = .next ((s.out [loByte s.f]).popped.setF s.second) := by
  show execEmit s = _; exact withPop_of (s := s.out [loByte s.f]) h
theorem exec_emit_fault (h : ¬ s.CanPop) : exec .emit s = .fault (.undef .dataPop) := by
  show execEmit s = _; exact withPop_fault (s := s.out [loByte s.f]) h

theorem exec_key (h : s.CanPush) :
    exec .key s = .next ((s.setInput (readChar s.input).2).pushed (keyCell (readChar s.input).1)) := by
  show execKey s = _; exact withPush_of (s := s.setInput (readChar s.input).2) h
theorem exec_key_fault (h : ¬ s.CanPush) : exec .key s = .fault (.undef .dataPush) := by
  show execKey s = _; exact withPush_fault (s := s.setInput (readChar s.input).2) h

theorem exec_define_eof {rest : List InputSlot} (h : readToken s.input = (none, rest)) :
    exec .define s = .next (((s.setCell stateCell 1#16).setInput rest).fatal .nameRead) := by
  show execDefine s = _; unfold execDefine; simp only [State.setCell_input, h]; rfl
theorem exec_define {tok : List Byte} {rest : List InputSlot} (h : readToken s.input = (some tok, rest)) :
    exec .define s = .next
      (((makeEntry tok ((s.setCell stateCell 1#16).setInput rest)).append compileCell).append runCell) := by
  show execDefine s = _; unfold execDefine; simp only [State.setCell_input, h]

theorem exec_immediate : exec .immediate s = .next ((s.setCell dpCell (s.DP - 2#16)).append runCell) := rfl

theorem exec_comment : exec .comment s = .next (s.setInput (skipLine s.input)) := rfl

theorem exec_comma (h : s.CanPop) : exec .comma s = .next ((s.append s.f).popped.setF (s.append s.f).second) := by
  show execComma s = _; exact withPop_of (s := s.append s.f) h
theorem exec_comma_fault (h : ¬ s.CanPop) : exec .comma s = .fault (.undef .dataPop) := by
  show execComma s = _; exact withPop_fault (s := s.append s.f) h

theorem blockOp_of (mode : BlockMode) (h : s.CanPop) :
    blockOp mode s = .next ((blockIO s.second s.f mode s.popped).2.setF (blockIO s.second s.f mode s.popped).1) := by
  unfold blockOp; rw [withPop_of h]; rfl
theorem exec_bsave (h : s.CanPop) :
    exec .bsave s = .next ((blockIO s.second s.f .write s.popped).2.setF (blockIO s.second s.f .write s.popped).1) :=
  blockOp_of .write h
theorem exec_bload (h : s.CanPop) :
    exec .bload s = .next ((blockIO s.second s.f .read s.popped).2.setF (blockIO s.second s.f .read s.popped).1) :=
  blockOp_of .read h
theorem exec_bsave_fault (h : ¬ s.CanPop) : exec .bsave s = .fault (.undef .dataPop) := by
  show blockOp .write s = _; exact withPop_fault h
theorem exec_bload_fault (h : ¬ s.CanPop) : exec .bload s = .fault (.undef .dataPop) := by
  show blockOp .read s = _; exact withPop_fault h

theorem exec_read_fault (h : ¬ s.CanRPop) : exec .read s = .fault (.undef .returnPop) := by
  show execRead s = _; exact withRPop_fault h
theorem exec_read_eof {rest : List InputSlot} (h : s.CanRPop) (e : readToken s.input = (none, rest)) :
    exec .read s = .next ((s.rpopped.setInput rest).endRun 0#16) := by
  show execRead s = _; unfold execRead; rw [withRPop_of h]; simp only [State.rpopped_input, e]; rfl
theorem exec_read_token {tok : List Byte} {rest : List InputSlot} (h : s.CanRPop)
    (e : readToken s.input = (some tok, rest)) : exec .read s = readWord tok (s.rpopped.setInput rest) := by
  show execRead s = _; unfold execRead; rw [withRPop_of h]; simp only [State.rpopped_input, e]

/-! What READ does with its token, by what Find answers. -/

theorem readWord_none {tok : List Byte} (h : find (storeString Config.tokBuf tok s) = none) :
    readWord tok s = .fault (.hung .findCycle) := by
  unfold readWord; simp only [h]
theorem readWord_found {tok : List Byte} {w : Addr} (h : find (storeString Config.tokBuf tok s) = some w)
    (hw : w ≠ Config.sent) : readWord tok s = .next ((storeString Config.tokBuf tok s).dispatch (w + 2#15)) := by
  unfold readWord; simp only [h]; exact if_neg hw
theorem readWord_sentinel {tok : List Byte} (h : find (storeString Config.tokBuf tok s) = some Config.sent) :
    readWord tok s = readNumber tok (storeString Config.tokBuf tok s) := by
  unfold readWord; simp only [h, if_true]

end Sys2Proof.Machine
end

