-- ==== Sys2Proof/Laws/PerInstr.lean ====
section
/-! SUPPORT. Per-instruction laws: the cells an instruction encodes to are well formed. -/

namespace Sys2Proof.Laws.Words

/-- The encoding of an instruction is a well-formed list of cells (30_encoding.md R69, R75). -/
def Statement (i : Instr) : Prop := wellFormedWords (encode i) = true

theorem push (lit : Word) : Statement (.push lit) := rfl
theorem compile (x : Addr) : Statement (.compile x) := rfl
theorem run (x : Addr) : Statement (.run x) := rfl
theorem exit : Statement .exit := rfl
theorem sub : Statement .sub := rfl
theorem add : Statement .add := rfl
theorem mul : Statement .mul := rfl
theorem div : Statement .div := rfl
theorem uless : Statement .uless := rfl
theorem equal : Statement .equal := rfl
theorem load : Statement .load := rfl
theorem store : Statement .store := rfl
theorem swap : Statement .swap := rfl
theorem dup : Statement .dup := rfl
theorem drop : Statement .drop := rfl
theorem tor : Statement .tor := rfl
theorem fromr : Statement .fromr := rfl
theorem jmp (off : Word) : Statement (.jmp off) := rfl
theorem jmpz (off : Word) : Statement (.jmpz off) := rfl
theorem pnum : Statement .pnum := rfl
theorem emit : Statement .emit := rfl
theorem key : Statement .key := rfl
theorem define : Statement .define := rfl
theorem immediate : Statement .immediate := rfl
theorem comment : Statement .comment := rfl
theorem comma : Statement .comma := rfl
theorem bsave : Statement .bsave := rfl
theorem bload : Statement .bload := rfl
theorem read : Statement .read := rfl

end Sys2Proof.Laws.Words
end

