-- ==== Sys2Proof/Laws/Step.lean ====
section
/-! SUPPORT. Laws of the step: which of its two halves it is, what the token fetch does, and what the fetched token
leads to. -/

namespace Sys2Proof.Machine

theorem step_running {s : State} (h : s.mode = .running) : step s = stepRunning s := by
  unfold step; split
  · next e => rw [h] at e; cases e
  · rfl

theorem step_idle {s : State} (h : s.mode = .idle) : step s = serveHost s := by
  unfold step; split
  · rfl
  · next e => rw [h] at e; cases e

theorem fetchToken_some {s : State} {xt : Addr} (h : s.NXT = some xt) : fetchToken s = (xt, { s with NXT := none }) := by
  unfold fetchToken; rw [h]

theorem fetchToken_none {s : State} (h : s.NXT = none) : fetchToken s = (mask (s.cell s.I), s.setI (s.I + 1#15)) := by
  unfold fetchToken; rw [h]

/-- The fetch leaves the latch empty and changes `I` and the latch only. -/
theorem fetchToken_NXT (s : State) : (fetchToken s).2.NXT = none := by
  unfold fetchToken; split
  · rfl
  · assumption

theorem fetchToken_frame (s : State) : { (fetchToken s).2 with I := s.I, NXT := s.NXT } = s := by
  unfold fetchToken; split <;> rfl

theorem stepRunning_ok {s : State} {i : Instr} (h : decodeAt (fetchToken s).1 (fetchToken s).2 = .ok i) :
    stepRunning s = exec i (fetchToken s).2 := by
  unfold stepRunning; simp only [h]

theorem stepRunning_error {s : State} {e : Reject} (h : decodeAt (fetchToken s).1 (fetchToken s).2 = .error e) :
    stepRunning s = .next ((fetchToken s).2.fatal
      (.unknownOpcode ((fetchToken s).2.cell (fetchToken s).1) (fetchToken s).1)) := by
  unfold stepRunning; simp only [h]; rfl

/-- A running step that goes on performed an instruction from the state after the fetch, or met an unknown opcode. -/
theorem stepRunning_cases {s t : State} (h : stepRunning s = .next t) :
    (∃ i, exec i (fetchToken s).2 = .next t) ∨ ∃ op xt, t = (fetchToken s).2.fatal (.unknownOpcode op xt) := by
  cases hd : decodeAt (fetchToken s).1 (fetchToken s).2 with
  | ok i => exact .inl ⟨i, by rw [← stepRunning_ok hd]; exact h⟩
  | error e => exact .inr ⟨_, _, next_inj ((stepRunning_error hd).symm.trans h)⟩

end Sys2Proof.Machine
end

