-- ==== Sys2Proof/Tests/Slice0.lean ====
section
/-! SUPPORT. The model's own tests: ill-formed words refused, a word of every constructor decoded, one step of every
opcode against spec/95_test_vectors.md (the vector is named in each comment), and a witness for the hypotheses of every
statement, clause by clause. -/

namespace Sys2Proof.Tests

open Sys2Proof Sys2Proof.Machine

/-! ### Helpers -/

/-- What `g` shows of the next state, if there is one. -/
def got {α : Type} (r : Result) (g : State → α) : Option α :=
  match r with
  | .next t => some (g t)
  | .fault _ => none
  | .refused _ => none

/-- The fault of a step that stops. -/
def stop (r : Result) : Option Fault :=
  match r with
  | .next _ => none
  | .fault e => some e
  | .refused _ => none

/-- The step goes on. -/
def runs (r : Result) : Bool := (got r fun _ => ()).isSome

/-- The start state of 95_test_vectors.md section 0: the values pushed from reset, deepest first, `I` = 1000. -/
def vec (vals : List Word) : State :=
  vals.foldl (fun s v => s.pushed v) { State.reset with I := 1000#15, mode := .running }

/-- One step that takes the token `xt` from the latch. -/
def dispatched (xt : Addr) (s : State) : Result := step { s with NXT := some xt }

/-- The input of a text given as byte values. -/
def text (bs : List Nat) : List InputSlot := bs.map fun b => .byte (BitVec.ofNat 8 b)

/-- `f`, `S` and `I`, as the vectors show them. -/
def regs (t : State) : Nat × Nat × Nat := (t.f.toNat, t.S.toNat, t.I.toNat)

/-- A state in Idle with calls pending. -/
def calling (cs : List HostCall) : State := { State.reset with calls := cs }

/-! ### Well-formedness: each check refuses an ill-formed term (30_encoding.md R67, R69, R76) -/

theorem test_wf_no_cells : wellFormedWords [] = false := by decide
theorem test_wf_unknown_opcode : wellFormedWords [29#16] = false ∧ wellFormedWords [0xFFFF#16, 0#16] = false := by decide
theorem test_wf_literal_missing : wellFormedWords [0#16] = false ∧ wellFormedWords [0#16, 1#16, 2#16] = false := by decide
theorem test_wf_offset_missing : wellFormedWords [17#16] = false ∧ wellFormedWords [18#16] = false := by decide
theorem test_wf_operand_too_many : wellFormedWords [5#16, 0#16] = false := by decide
theorem test_wf_accepts : wellFormedWords [28#16] = true ∧ wellFormedWords [0#16, 0xFFFF#16] = true := by decide

/-! ### Decoding: the opcode cell of every row of the opcode map (30_encoding.md R75), its 16 bits written out -/

theorem test_decode_push : decode 7#15 0b0000000000000000#16 0xABCD#16 = .ok (.push 0xABCD#16) := by decide
theorem test_decode_compile : decode 7#15 0b0000000000000001#16 0xABCD#16 = .ok (.compile 7#15) := by decide
theorem test_decode_run : decode 7#15 0b0000000000000010#16 0xABCD#16 = .ok (.run 7#15) := by decide
theorem test_decode_exit : decode 7#15 0b0000000000000011#16 0xABCD#16 = .ok .exit := by decide
theorem test_decode_sub : decode 7#15 0b0000000000000100#16 0xABCD#16 = .ok .sub := by decide
theorem test_decode_add : decode 7#15 0b0000000000000101#16 0xABCD#16 = .ok .add := by decide
theorem test_decode_mul : decode 7#15 0b0000000000000110#16 0xABCD#16 = .ok .mul := by decide
theorem test_decode_div : decode 7#15 0b0000000000000111#16 0xABCD#16 = .ok .div := by decide
theorem test_decode_uless : decode 7#15 0b0000000000001000#16 0xABCD#16 = .ok .uless := by decide
theorem test_decode_equal : decode 7#15 0b0000000000001001#16 0xABCD#16 = .ok .equal := by decide
theorem test_decode_load : decode 7#15 0b0000000000001010#16 0xABCD#16 = .ok .load := by decide
theorem test_decode_store : decode 7#15 0b0000000000001011#16 0xABCD#16 = .ok .store := by decide
theorem test_decode_swap : decode 7#15 0b0000000000001100#16 0xABCD#16 = .ok .swap := by decide
theorem test_decode_dup : decode 7#15 0b0000000000001101#16 0xABCD#16 = .ok .dup := by decide
theorem test_decode_drop : decode 7#15 0b0000000000001110#16 0xABCD#16 = .ok .drop := by decide
theorem test_decode_tor : decode 7#15 0b0000000000001111#16 0xABCD#16 = .ok .tor := by decide
theorem test_decode_fromr : decode 7#15 0b0000000000010000#16 0xABCD#16 = .ok .fromr := by decide
theorem test_decode_jmp : decode 7#15 0b0000000000010001#16 0xABCD#16 = .ok (.jmp 0xABCD#16) := by decide
theorem test_decode_jmpz : decode 7#15 0b0000000000010010#16 0xABCD#16 = .ok (.jmpz 0xABCD#16) := by decide
theorem test_decode_pnum : decode 7#15 0b0000000000010011#16 0xABCD#16 = .ok .pnum := by decide
theorem test_decode_emit : decode 7#15 0b0000000000010100#16 0xABCD#16 = .ok .emit := by decide
theorem test_decode_key : decode 7#15 0b0000000000010101#16 0xABCD#16 = .ok .key := by decide
theorem test_decode_define : decode 7#15 0b0000000000010110#16 0xABCD#16 = .ok .define := by decide
theorem test_decode_immediate : decode 7#15 0b0000000000010111#16 0xABCD#16 = .ok .immediate := by decide
theorem test_decode_comment : decode 7#15 0b0000000000011000#16 0xABCD#16 = .ok .comment := by decide
theorem test_decode_comma : decode 7#15 0b0000000000011001#16 0xABCD#16 = .ok .comma := by decide
theorem test_decode_bsave : decode 7#15 0b0000000000011010#16 0xABCD#16 = .ok .bsave := by decide
theorem test_decode_bload : decode 7#15 0b0000000000011011#16 0xABCD#16 = .ok .bload := by decide
theorem test_decode_read : decode 7#15 0b0000000000011100#16 0xABCD#16 = .ok .read := by decide
theorem test_decode_unknown : decode 7#15 0b0000000000011101#16 0#16 = .error (.unknownOpcode 29#16) := by decide

/-- The numbering of spec/opcode_table.json: the first cell in bits 15..0, an operand cell in bits 31..16. -/
theorem test_decode_table_word :
    decodeTableWord 16 5 = some .add ∧ decodeTableWord 32 0x12340000 = some (.push 0x1234#16) ∧
    decodeTableWord 32 0xFFFC0012 = some (.jmpz 0xFFFC#16) ∧ decodeTableWord 16 29 = none := by decide

/-- The word placed for the next step is the one it decodes and runs. -/
theorem test_fetch_word :
    got (step (State.reset.withFetchWord 32 0x12340000)) (fun t => (regs t)) = some (0x1234, 31745, 39) ∧
    got (step (State.reset.withFetchWord 16 10)) (fun t => (regs t)) = some (144, 31744, 38) ∧
    stop (step (State.reset.withFetchWord 16 5)) = some (.undef .dataPop) := by decide

/-! ### One step of every opcode (95_test_vectors.md section 2) -/

/-- V48 -/
theorem test_push :
    got (dispatched 2#15 ((vec [7#16]).setCell 1000#15 0x1234#16)) (fun t => (regs t, t.cell 31746#15)) =
      some ((4660, 31746, 1001), 7#16) := by decide
/-- V49 -/
theorem test_compile_compiling :
    got (dispatched 52#15 (((vec [1#16, 2#16]).setCell 8#15 1#16).setCell 0#15 300#16))
      (fun t => (regs t, t.NXT, t.cell 300#15, t.DP)) = some ((2, 31746, 1000), none, 53#16, 301#16) := by decide
/-- V51 -/
theorem test_compile_interpreting :
    got (dispatched 52#15 (vec [1#16, 2#16])) (fun t => (regs t, t.NXT, t.DP)) =
      some ((2, 31746, 1000), some 53#15, 144#16) := by decide
/-- V52 -/
theorem test_run :
    got (dispatched 500#15 ({ vec [] with I := 400#15 }.setCell 500#15 2#16))
      (fun t => (regs t, t.RSP, t.cell 32257#15)) = some ((0, 31744, 501), 32257#16, 400#16) := by decide
/-- V55 -/
theorem test_exit :
    got (dispatched 45#15 (((vec []).setCell 1#15 32257#16).setCell 32257#15 0x8190#16)) (fun t => (regs t, t.RSP)) =
      some ((0, 31744, 400), 32256#16) := by decide
/-- V56 -/
theorem test_exit_empty : stop (dispatched 45#15 (vec [])) = some (.undef .returnPop) := by decide
/-- V2 -/
theorem test_sub : got (dispatched 49#15 (vec [3#16, 5#16])) regs = some (65534, 31745, 1000) := by decide
/-- V5 -/
theorem test_add : got (dispatched 53#15 (vec [65535#16, 1#16])) regs = some (0, 31745, 1000) := by decide
/-- V26, V27 -/
theorem test_add_depth :
    stop (dispatched 53#15 (vec [])) = some (.undef .dataPop) ∧
    got (dispatched 53#15 (vec [4#16])) regs = some (4, 31744, 1000) := by decide
/-- V9, V10 -/
theorem test_mul :
    got (dispatched 57#15 (vec [65535#16, 65535#16])) regs = some (1, 31745, 1000) ∧
    got (dispatched 57#15 (vec [65535#16, 5#16])) regs = some (65531, 31745, 1000) := by decide
/-- V14 -/
theorem test_div : got (dispatched 61#15 (vec [65530#16, 2#16])) regs = some (32765, 31745, 1000) := by decide
/-- V12 -/
theorem test_div_zero :
    got (dispatched 61#15 (vec [7#16, 0#16])) (fun t => (regs t, t.errors, t.INVALID)) =
      some ((0, 31745, 1000), [.diag .divZero], false) := by decide
/-- V18, V21 -/
theorem test_uless :
    got (dispatched 65#15 (vec [2#16, 1#16])) regs = some (0, 31745, 1000) ∧
    got (dispatched 65#15 (vec [0#16, 65535#16])) regs = some (1, 31745, 1000) := by decide
/-- V23, V24 -/
theorem test_equal :
    got (dispatched 69#15 (vec [7#16, 8#16])) regs = some (0, 31745, 1000) ∧
    got (dispatched 69#15 (vec [65535#16, 65535#16])) regs = some (1, 31745, 1000) := by decide
/-- V29, V31 -/
theorem test_load :
    got (dispatched 73#15 (vec [32768#16])) regs = some (144, 31745, 1000) ∧
    got (dispatched 73#15 (vec [])) regs = some (144, 31744, 1000) := by decide
/-- V33 -/
theorem test_store :
    got (dispatched 77#15 (vec [4#16, 7#16, 33768#16])) (fun t => (regs t, t.cell 1000#15)) =
      some ((4, 31745, 1000), 7#16) := by decide
/-- V34 -/
theorem test_store_depth : stop (dispatched 77#15 (vec [1000#16])) = some (.undef .dataPop) := by decide
/-- V37 -/
theorem test_swap :
    got (dispatched 81#15 (vec [9#16])) (fun t => (regs t, t.cell 31745#15)) = some ((0, 31745, 1000), 9#16) := by decide
/-- V39 -/
theorem test_dup :
    got (dispatched 85#15 (vec [9#16])) (fun t => (regs t, t.cell 31746#15)) = some ((9, 31746, 1000), 9#16) := by decide
/-- V41, V42 -/
theorem test_drop :
    got (dispatched 89#15 (vec [4#16, 9#16])) regs = some (4, 31745, 1000) ∧
    stop (dispatched 89#15 (vec [])) = some (.undef .dataPop) := by decide
/-- V43 -/
theorem test_tor :
    got (dispatched 93#15 ((vec [3#16, 5#16]).setCell 1#15 32257#16)) (fun t => (regs t, t.RSP, t.cell 32258#15)) =
      some ((3, 31745, 1000), 32258#16, 5#16) := by decide
/-- V44 -/
theorem test_tor_full :
    stop (dispatched 93#15 ((vec [3#16, 5#16]).setCell 1#15 32767#16)) = some (.undef .returnPush) := by decide
/-- V45 -/
theorem test_fromr :
    got (dispatched 97#15 (((vec []).setCell 1#15 32258#16).setCell 32258#15 5#16)) (fun t => (regs t, t.RSP)) =
      some ((5, 31745, 1000), 32257#16) := by decide
/-- V47 -/
theorem test_fromr_out_of_range :
    stop (dispatched 97#15 ((vec []).setCell 1#15 100#16)) = some (.undef .returnPop) := by decide
/-- V63, V64 -/
theorem test_jmp :
    got (dispatched 101#15 ({ vec [] with I := 10#15 }.setCell 10#15 65516#16)) regs = some (0, 31744, 32758) ∧
    got (dispatched 101#15 ({ vec [] with I := 32767#15 }.setCell 32767#15 5#16)) regs = some (0, 31744, 4) := by decide
/-- V65, V67 -/
theorem test_jmpz :
    got (dispatched 105#15 ({ vec [8#16, 0#16] with I := 601#15 }.setCell 601#15 65532#16)) regs =
      some (8, 31745, 597) ∧
    got (dispatched 105#15 ({ vec [8#16, 32768#16] with I := 601#15 }.setCell 601#15 65532#16)) regs =
      some (8, 31745, 602) := by decide
/-- V71, V74 -/
theorem test_pnum :
    got (dispatched 109#15 (vec [1#16, 65535#16])) (fun t => (regs t, t.output.map BitVec.toNat)) =
      some ((1, 31745, 1000), [54, 53, 53, 51, 53, 32]) ∧
    got (dispatched 109#15 ((vec [1#16, 2748#16]).setCell 9#15 1#16)) (fun t => t.output.map BitVec.toNat) =
      some [97, 98, 99, 32] := by decide
/-- V76 -/
theorem test_emit :
    got (dispatched 113#15 (vec [1#16, 321#16])) (fun t => (regs t, t.output)) =
      some ((1, 31745, 1000), [65#8]) := by decide
/-- V79; and with no byte there yet the read waits for it (44_char_io.md R107) -/
theorem test_key :
    got (dispatched 117#15 { vec [1#16] with input := text [255] }) regs = some (255, 31746, 1000) ∧
    got (dispatched 117#15 { vec [1#16] with input := .wait :: text [90] }) regs = some (90, 31746, 1000) := by decide
/-- V78 -/
theorem test_key_end : got (dispatched 117#15 (vec [1#16])) regs = some (65535, 31746, 1000) := by decide
/-- V84 -/
theorem test_define :
    got (dispatched 121#15 { vec [] with input := text [32, 100, 111, 117, 98, 108, 101, 32, 50] })
      (fun t => (t.DP.toNat, t.LATEST.toNat, t.STRP.toNat, t.STATE.toNat, t.input)) =
      some (148, 144, 134, 1, text [32, 50]) ∧
    got (dispatched 121#15 { vec [] with input := text [32, 100, 111, 117, 98, 108, 101, 32, 50] })
      (fun t => [144, 145, 146, 147, 16511, 16516, 16517].map fun a => (t.cell (BitVec.ofNat 15 a)).toNat) =
      some [140, 127, 1, 2, 100, 101, 0] := by decide
/-- V85 -/
theorem test_define_end :
    got (dispatched 121#15 { vec [] with input := text [32, 32, 32] })
      (fun t => (t.DP.toNat, t.STATE.toNat, t.INVALID, t.errors, t.replies)) =
      some (144, 1, true, [.fatal .nameRead], [.runStatus 1#16]) := by decide
/-- V81 -/
theorem test_immediate :
    got (dispatched 124#15 ((vec []).setCell 0#15 148#16)) (fun t => (regs t, t.DP, t.cell 146#15)) =
      some ((0, 31744, 1000), 147#16, 2#16) := by decide
/-- V82 (shortened), V83 -/
theorem test_comment :
    got (dispatched 127#15 { vec [] with input := text [32, 114, 10, 110] }) (fun t => t.input) = some (text [110]) ∧
    got (dispatched 127#15 { vec [] with input := text [32, 110] }) (fun t => t.input) = some [] := by decide
/-- V80 -/
theorem test_comma :
    got (dispatched 131#15 ((vec [7#16, 45#16]).setCell 0#15 300#16)) (fun t => (regs t, t.DP, t.cell 300#15)) =
      some ((7, 31745, 1000), 301#16, 45#16) := by decide
/-- V86, with a host that answers ok -/
theorem test_bsave :
    got (dispatched 135#15
        ({ vec [9#16, 40000#16, 7#16] with writeAnswers := [.ok] }.setCell 20000#15 12345#16))
      (fun t => (regs t, t.store.map fun e => (e.1.map BitVec.toNat, e.2.take 3))) =
      some ((0, 31746, 1000), [([48, 48, 48, 55, 46, 98, 108, 107], [57#8, 48#8, 0#8])]) := by decide +kernel
/-- V89 -/
theorem test_bsave_past_end :
    got (dispatched 135#15 (vec [9#16, 64513#16, 7#16])) (fun t => (regs t, t.store, t.errors)) =
      some ((65535, 31746, 1000), [], [.diag (.blockRequest 64513#16 7#16 .write)]) := by decide
/-- V91 -/
theorem test_bload_missing :
    got (dispatched 139#15 (vec [9#16, 0#16, 4#16])) (fun t => (regs t, t.errors, t.DP)) =
      some ((65535, 31746, 1000), [.diag (.blockTransfer 0#16 4#16 .read)], 144#16) := by decide
/-- The example of 45_compiler.md R119, V94 -/
theorem test_read_number :
    got (dispatched 34#15 ({ vec [] with input := text [50, 49, 32] }.setCell 1#15 32257#16))
      (fun t => (regs t, t.RSP, t.cell 16384#15, t.cell 16386#15, t.input)) =
      some ((21, 31745, 1000), 32256#16, 50#16, 0#16, text [32]) := by decide
/-- 95_test_vectors.md section 1.2, step 6 -/
theorem test_read_word :
    got (dispatched 34#15 ({ vec [] with input := text [43] }.setCell 1#15 32257#16)) (fun t => t.NXT) =
      some (some 52#15) := by decide
/-- V57 -/
theorem test_unknown_opcode :
    got (dispatched 600#15 ((vec []).setCell 600#15 29#16)) (fun t => (t.INVALID, t.mode, t.errors, t.replies)) =
      some (true, .idle, [.fatal (.unknownOpcode 29#16 600#15)], [.runStatus 1#16]) := by decide
/-- L1.9 to L1.13 -/
theorem test_reset_image :
    ([0, 1, 2, 8, 9, 32, 35, 37, 50, 53, 124, 127, 16425, 16426].map fun a => (State.reset.cell (BitVec.ofNat 15 a)).toNat) =
      [144, 32256, 0, 0, 0, 32, 2, 35, 46, 5, 23, 24, 43, 0] := by decide
/-- L1.14 -/
theorem test_snapshot_header :
    ((headerWords State.reset).flatMap wordBytes).map BitVec.toNat = [37, 0, 0, 0, 0, 124, 140, 0, 127, 0, 0, 0] := by decide

/-! ### Witnesses: for each statement, states and operands that meet its hypotheses, clause by clause -/

theorem test_witness_decode_encode :
    Instr.implicitOperand .add = none ∧ (Instr.compile 7#15).implicitOperand = some 7#15 ∧
    decodeBytes 7#15 [0x00#8, 0x00#8, 0xFF#8, 0xFF#8, 0x05#8] = .ok (.push 0xFFFF#16, [0x05#8]) := by decide
theorem test_witness_unknown_boundary :
    decode 0#15 28#16 0#16 = .ok .read ∧ decode 0#15 29#16 0#16 = .error (.unknownOpcode 29#16) ∧
    decode 0#15 0xFFFF#16 0#16 = .error (.unknownOpcode 0xFFFF#16) := by decide
theorem test_witness_running_step :
    ({ vec [] with NXT := some 53#15 }).mode = .running ∧
    decode (53#15 + 1#15) ((vec []).cell 53#15) ((vec []).cell 1000#15) = .ok .add ∧
    (vec []).NXT = none ∧
    decode (mask ((vec []).cell 1000#15) + 1#15) ((vec []).cell (mask ((vec []).cell 1000#15)))
      ((vec []).cell 1001#15) = .error (.unknownOpcode 144#16) ∧
    decode (mask (State.reset.cell 37#15) + 1#15) (State.reset.cell (mask (State.reset.cell 37#15)))
      (State.reset.cell 38#15) = .ok (.run 36#15) := by decide
theorem test_witness_unknown_step :
    29 ≤ (((vec []).setCell 600#15 29#16).cell 600#15).toNat ∧ (vec []).NXT = none ∧
    29 ≤ ((vec []).cell (mask ((vec []).cell (vec []).I))).toNat ∧
    { calling [.run] with INVALID := true }.calls = [.run] := by decide
theorem test_witness_push_bounds :
    State.reset.mem.wf = true ∧ State.reset.cell 2#15 = 0#16 ∧ State.reset.CanPush ∧
    (State.reset.setS 32254#15).CanPush ∧ ¬ (State.reset.setS 32255#15).CanPush ∧
    ¬ (State.reset.setS 31743#15).CanPush := by decide
theorem test_witness_pop_bounds :
    (State.reset.setS 31745#15).CanPop ∧ (State.reset.setS 32255#15).CanPop ∧ ¬ State.reset.CanPop ∧
    ¬ (State.reset.setS 32256#15).CanPop := by decide
theorem test_witness_rpush_bounds :
    State.reset.CanRPush ∧ (State.reset.setCell 1#15 32766#16).CanRPush ∧
    ¬ (State.reset.setCell 1#15 32767#16).CanRPush ∧ ¬ (State.reset.setCell 1#15 32255#16).CanRPush := by decide
theorem test_witness_rpop_bounds :
    (State.reset.setCell 1#15 32257#16).CanRPop ∧ (State.reset.setCell 1#15 32767#16).CanRPop ∧
    ¬ State.reset.CanRPop ∧ ¬ (State.reset.setCell 1#15 32768#16).CanRPop := by decide
theorem test_witness_compile :
    State.reset.cell 40#15 = 1#16 ∧ State.reset.mem.wf = true ∧ State.reset.cell 8#15 = 0#16 ∧
    (State.reset.setCell 8#15 0xFFFF#16).cell 8#15 ≠ 0#16 ∧ (State.reset.setCell 8#15 0xFFFF#16).mem.wf = true := by decide
theorem test_witness_run_exit : State.reset.cell 35#15 = 2#16 := by decide
theorem test_witness_div :
    (vec [7#16, 1#16]).CanPop ∧ (vec [7#16, 1#16]).f ≠ 0#16 ∧ (vec [7#16, 0#16]).CanPop ∧
    (vec [7#16, 0#16]).f = 0#16 := by decide
theorem test_witness_store :
    (vec [7#16, 8#16]).mem.wf = true ∧ (vec [7#16, 8#16]).CanPop ∧ 31744 < ((vec [7#16, 8#16]).S - 1#15).toNat ∧
    ¬ ((vec [7#16]).CanPop ∧ 31744 < ((vec [7#16]).S - 1#15).toNat) := by decide
theorem test_witness_transfers :
    (vec [7#16]).CanRPush ∧ (vec [7#16]).CanPop ∧ (vec []).CanRPush ∧ ¬ (vec []).CanPop ∧
    ((vec []).setCell 1#15 32257#16).CanRPop ∧ ((vec []).setCell 1#15 32257#16).CanPush ∧
    ((vec []).setCell 1#15 32257#16).mem.wf = true ∧
    (((vec []).setCell 1#15 32257#16).setS 32255#15).CanRPop ∧
    ¬ (((vec []).setCell 1#15 32257#16).setS 32255#15).CanPush := by decide
theorem test_witness_jumps :
    (State.reset.setCell 300#15 17#16).cell 300#15 = 17#16 ∧ State.reset.cell 105#15 = 18#16 ∧
    (vec [0#16]).CanPop ∧ (vec [0#16]).f = 0#16 ∧ (vec [1#16]).CanPop ∧ (vec [1#16]).f ≠ 0#16 := by decide
theorem test_witness_key :
    streamBytes [.wait] = [] ∧ streamBytes [.wait, .byte 90#8] = 90#8 :: [] ∧ (vec []).CanPush := by decide
theorem test_witness_comment :
    0x0A#8 ∉ streamBytes (text [32]) ∧ streamBytes (text [10]) = [] ++ 0x0A#8 :: [] ∧
    0x0A#8 ∉ ([] : List Byte) := by decide
theorem test_witness_read_token :
    readToken [.wait, .byte 32#8] = (none, []) ∧ readToken (text [32, 97, 32]) = (some [97#8], text [32]) ∧
    readToken (text (List.replicate 32 97)) = (some (List.replicate 31 97#8), text [97]) := by decide
theorem test_witness_parse :
    parseNum [0x2D#8] 10 = none ∧ parseNum [] 16 = none ∧ parseNum [0x2D#8, 53#8] 10 = some 65531#16 ∧
    parseNum [70#8, 102#8] 16 = some 255#16 ∧ [70#8].head? ≠ some 0x2D#8 := by decide
theorem test_witness_strings :
    EndsAfter State.reset.mem 16384#15 0 ∧ EndsAfter State.reset.mem 16418#15 4 := by
  refine ⟨⟨by decide, fun i hi => absurd hi (Nat.not_lt_zero i)⟩, by decide, ?_⟩
  decide
theorem test_witness_sentinel :
    State.reset.cell 33#15 = 0#16 ∧
    EndsAfter (storeString 16384#15 (List.replicate 31 97#8) State.reset).mem 16384#15 31 := by
  refine ⟨by decide, by decide, ?_⟩
  decide
theorem test_witness_find :
    find (storeString 16384#15 [43#8] State.reset) = some 50#15 ∧
    find (storeString 16384#15 [97#8] State.reset) = some 32#15 := by decide

/-- A chain of one entry that names itself and does not match is never left. -/
theorem test_find_loops {m : Memory} {w : Addr} (h : nameMatches m w = false) (hw : mask (cellRead m w) = w) (n : Nat) :
    findFrom m n w = none := by
  induction n with
  | zero => rfl
  | succ n ih => simp only [findFrom, h, hw, ih, Bool.false_eq_true, if_false]

/-- READ's start state with the newest entry at 200, its own link, its name empty. -/
def looping : State :=
  { (((vec []).setCell 1#15 32257#16).setCell 200#15 200#16).setCell 201#15 500#16 with
    LATEST := 200#15, input := text [97] }

theorem test_witness_find_never_ends :
    find (storeString 16384#15 [97#8] { looping.setCell 1#15 32256#16 with input := [] }) = none :=
  test_find_loops (by decide) (by decide) _
theorem test_witness_read :
    (looping.CanRPop ∧ readToken looping.input = (some [97#8], [])) ∧
    (((vec []).setCell 1#15 32257#16).CanRPop ∧ readToken (vec []).input = (none, [])) ∧
    parseNum [50#8, 49#8] 10 = some 21#16 ∧ parseNum [97#8] 10 = none := by decide
theorem test_witness_read_pushes :
    find (storeString 16384#15 [50#8] ((vec []).setCell 1#15 32256#16)) = some 32#15 ∧
    (storeString 16384#15 [50#8] ((vec []).setCell 1#15 32256#16)).cell 8#15 = 0#16 ∧
    (storeString 16384#15 [50#8] ((vec []).setCell 1#15 32256#16)).CanPush ∧
    ¬ (storeString 16384#15 [50#8] (((vec []).setS 32255#15).setCell 1#15 32256#16)).CanPush := by decide
theorem test_witness_new_entry :
    1 ≤ [97#8].length ∧ [97#8].length ≤ 31 ∧ (∀ c ∈ [97#8], c ≠ 0#8) ∧ 32 ≤ State.reset.STRP.toNat ∧
    State.reset.STRP.toNat + [97#8].length < 15360 ∧ 32 ≤ (State.reset.cell 0#15).toNat ∧
    (State.reset.cell 0#15).toNat + 2 ≤ 16384 := by decide
/-- The lowest and the highest places a new entry can take. -/
theorem test_witness_new_entry_bounds :
    (State.reset.setCell 0#15 32#16).mem.wf = true ∧ 32 ≤ ((State.reset.setCell 0#15 32#16).cell 0#15).toNat ∧
    ((State.reset.setCell 0#15 16382#16).cell 0#15).toNat + 2 ≤ 16384 ∧ (List.replicate 31 97#8).length ≤ 31 ∧
    (15328#16 : Word).toNat + (List.replicate 31 97#8).length < 15360 := by decide
theorem test_witness_define :
    readToken (text [32, 97]) = (some [97#8], []) ∧ readToken (text [32]) = (none, []) := by decide
theorem test_witness_block_requests :
    65536 < (64513#16 : Word).toNat + 1024 ∧ (64512#16 : Word).toNat + 1024 ≤ 65536 ∧
    (BlockMode.other 9) ≠ .read := by decide
theorem test_witness_block_write :
    Store.wf State.reset.store = true ∧ { State.reset with writeAnswers := [.ok] }.writeAnswers = .ok :: [] ∧
    (blockIO 64512#16 7#16 .write { State.reset with writeAnswers := [.ok] }).1 = 0#16 := by decide
theorem test_witness_block_read :
    State.reset.mem.wf = true ∧ lookup (blockName 7#16) State.reset.store = none ∧
    lookup (blockName 7#16) (putFile (blockName 7#16) [1#8] []) = some [1#8] ∧ ([1#8] : List Byte).length < 1024 ∧
    lookup (blockName 7#16) (putFile (blockName 7#16) (List.replicate 1024 1#8) []) = some (List.replicate 1024 1#8) ∧
    1024 ≤ (List.replicate 1024 1#8).length :=
  ⟨by decide, by decide, by decide, by decide, rfl, by rw [List.length_replicate]⟩
theorem test_witness_inv : Inv State.reset := by constructor <;> decide
theorem test_witness_byte_view : Memory.wf [] = true ∧ 65535 < 65536 ∧ 65535 % 2 ≠ 0 := by decide

/-- Every opcode completes in some state: the frames and the rules of registers, `S` and events speak of something. -/
theorem test_witness_next_plain :
    (([.sub, .add, .mul, .div, .uless, .equal, .load, .swap, .dup, .drop, .jmp 3#16, .jmpz 3#16, .pnum, .emit, .comment] :
      List Instr).all fun i => runs (exec i (vec [7#16, 3#16]))) = true := by decide
theorem test_witness_next_storing :
    (([.push 9#16, .store, .run 36#15, .tor, .key, .immediate, .comma, .define, .compile 36#15] : List Instr).all
      fun i => runs (exec i { vec [7#16, 3#16] with input := text [97] })) = true := by decide
theorem test_witness_next_return :
    (([.exit, .fromr, .read] : List Instr).all fun i => runs (exec i ((vec [7#16]).setCell 1#15 32257#16))) = true := by
  decide
theorem test_witness_next_compiling :
    runs (exec (.compile 36#15) ((vec []).setCell 8#15 1#16)) = true ∧
    runs (exec .read (({ vec [] with input := text [50] }.setCell 8#15 1#16).setCell 1#15 32257#16)) = true := by decide
theorem test_witness_next_block :
    runs (exec .bsave { vec [0#16, 7#16] with writeAnswers := [.fail .old] }) = true ∧
    runs (exec .bload (vec [0#16, 7#16])) = true := by decide
theorem test_witness_define_end : runs (exec .define (vec [])) = true ∧ readToken (vec []).input = (none, []) := by decide
theorem test_witness_step_next :
    runs (step State.reset) = true ∧ runs (step { State.reset with mode := .running }) = true := by decide
theorem test_witness_invalidates :
    (vec []).INVALID = false ∧ got (step (vec [])) (fun t => t.INVALID) = some true := by decide
theorem test_witness_stuck :
    stop (exec .read (vec [])) = some (.undef .returnPop) ∧
    stop (exec .tor ((vec []).setCell 1#15 32767#16)) = some (.undef .returnPush) ∧
    stop (exec .swap (vec [])) = some (.undef .dataPop) ∧ stop (exec .store (vec [1#16])) = some (.undef .dataPop) ∧
    stop (exec .key ((vec []).setS 32255#15)) = some (.undef .dataPush) := by decide
theorem test_witness_hung : exec .read looping = .fault (.hung .findCycle) := by
  have h : find (storeString Config.tokBuf [97#8] ((looping.rpopped).setInput [])) = none :=
    test_find_loops (by decide) (by decide) _
  rw [exec_read_token (s := looping) (tok := [97#8]) (rest := []) (by decide) (by decide)]
  exact readWord_none h
theorem test_witness_arrival :
    runs (exec .key { vec [] with input := [.wait, .byte 90#8] }) = true ∧ dropWaits [.wait, .byte 90#8] = text [90] := by
  decide
theorem test_witness_reset_cells :
    2 ≤ (2#15 : Addr).toNat ∧ (31#15 : Addr).toNat < 32 ∧ 144 ≤ (144#15 : Addr).toNat ∧
    (16415#15 : Addr).toNat < 16416 ∧ 16511 ≤ (16511#15 : Addr).toNat := by decide
theorem test_witness_calls :
    (calling [.run]).mode = .idle ∧ (calling [.run]).INVALID = false ∧ (calling []).calls = [] ∧
    { calling [.run] with INVALID := true }.INVALID = true ∧
    (calling [.blockIO 0#16 7#16 .read]).calls = .blockIO 0#16 7#16 .read :: [] := by decide
theorem test_witness_boot :
    State.reset.NXT = none ∧ State.reset.I = 37#15 ∧ State.reset.cell 1#15 = 32256#16 ∧
    State.reset.cell 34#15 = 28#16 ∧ State.reset.cell 35#15 = 2#16 ∧ State.reset.cell 36#15 = 34#16 ∧
    State.reset.cell 37#15 = 35#16 ∧ { State.reset with mode := .running }.mode = .running := by decide
theorem test_witness_bad_image : restore [] { calling [.restore []] with calls := [] } = none := rfl

end Sys2Proof.Tests
end

/-! SUPPORT. The invariant of Safety.lean: each shared operation of Machine/Ops.lean keeps it under the condition that
operation has, so every opcode, every host call and the token fetch do. Settles O45 and O46. -/

namespace Sys2Proof.Machine

/-! ### The invariant across one shared operation -/

section Operations

variable {s : State} (h : Inv s)
include h

theorem Inv.setI (a : Addr) : Inv (s.setI a) := { h with }
theorem Inv.setF (v : Word) : Inv (s.setF v) := { h with }
theorem Inv.setInput (inp : List InputSlot) : Inv (s.setInput inp) := { h with }
theorem Inv.out (bs : List Byte) : Inv (s.out bs) := { h with }
theorem Inv.diag (d : Diag) : Inv (s.diag d) := { h with }
theorem Inv.reply (r : HostReply) : Inv (s.reply r) := { h with }

theorem Inv.setCell (a : Addr) (v : Word) : Inv (s.setCell a v) :=
  { h with memCanonical := State.setCell_wf h.memCanonical a v }

theorem Inv.pushed (hp : s.CanPush) (v : Word) : Inv (s.pushed v) :=
  { h with
    memCanonical := State.pushed_wf h.memCanonical v
    stackLow := (State.pushed_S_range v hp).1
    stackHigh := (State.pushed_S_range v hp).2 }

theorem Inv.popped (hp : s.CanPop) : Inv s.popped :=
  { h with
    stackLow := (State.popped_S_range hp).1
    stackHigh := (State.popped_S_range hp).2 }

theorem Inv.rpushed (v : Word) : Inv (s.rpushed v) := (h.setCell _ _).setCell _ _
theorem Inv.rpopped : Inv s.rpopped := h.setCell _ _
theorem Inv.append (v : Word) : Inv (s.append v) := (h.setCell _ _).setCell _ _

/-- Only a running engine may fill the latch (10_state.md R27). -/
theorem Inv.dispatch (hr : s.mode = .running) (a : Addr) : Inv (s.dispatch a) :=
  { h with idleEmpty := fun hi => nomatch hr.symm.trans hi }

theorem Inv.endRun (status : Word) : Inv (s.endRun status) :=
  { h with idleEmpty := fun _ => rfl, runningValid := nofun }

/-- The fatal fault sets `INVALID` and stops the run, so no invalidated engine runs (60_exceptions.md R136). -/
theorem Inv.fatal (r : FatalReason) : Inv (s.fatal r) :=
  { h with idleEmpty := fun _ => rfl, runningValid := nofun }

theorem Inv.storeString (a : Addr) (bs : List Byte) : Inv (storeString a bs s) := by
  rw [storeString_frame]
  exact { h with memCanonical := storeString_wf a bs h.memCanonical }

theorem Inv.makeEntry (tok : List Byte) : Inv (makeEntry tok s) := by
  rw [makeEntry_frame]
  exact { h with memCanonical := makeEntry_wf tok h.memCanonical }

theorem Inv.blockIO (off id : Word) (mode : BlockMode) : Inv (blockIO off id mode s).2 := by
  rw [blockIO_frame]
  exact { h with
    memCanonical := blockIO_wf off id mode h.memCanonical
    storeCanonical := blockIO_store_wf off id mode h.storeCanonical }

theorem Inv.tokenStored (tok : List Byte) (rest : List InputSlot) : Inv (tokenStored tok rest s) :=
  (h.rpopped.setInput rest).storeString _ _

theorem Inv.fetchToken : Inv (fetchToken s).2 := by
  unfold Machine.fetchToken
  split
  · exact { h with idleEmpty := fun _ => rfl }
  · exact h.setI _

end Operations

@[simp] theorem tokenStored_mode (tok : List Byte) (rest : List InputSlot) (s : State) :
    (tokenStored tok rest s).mode = s.mode := by simp [tokenStored]

@[simp] theorem fetchToken_mode (s : State) : (fetchToken s).2.mode = s.mode := by
  unfold fetchToken; split <;> rfl

/-! ### Opcodes -/

theorem binary_keepsInv {op : Word → Word → Word} {s t : State} (h : Inv s) (e : binary op s = .next t) : Inv t := by
  obtain ⟨hp, rfl⟩ := binary_next e
  exact (h.popped hp).setF _

theorem blockOp_keepsInv {mode : BlockMode} {s t : State} (h : Inv s) (e : blockOp mode s = .next t) : Inv t := by
  obtain ⟨hp, rfl⟩ := blockOp_next e
  exact ((h.popped hp).blockIO _ _ _).setF _

theorem execRead_keepsInv {s t : State} (h : Inv s) (hr : s.mode = .running) (e : execRead s = .next t) : Inv t := by
  obtain ⟨-, ⟨rest, -, rfl⟩ | ⟨tok, rest, -, ⟨w, -, -, rfl⟩ | ⟨-, rfl | ⟨n, ⟨-, hp, rfl⟩ | ⟨-, rfl⟩⟩⟩⟩⟩ :=
    execRead_next e
  · exact (h.rpopped.setInput rest).endRun _
  · exact (h.tokenStored tok rest).dispatch (by simpa using hr) _
  · exact (h.tokenStored tok rest).diag _
  · exact (h.tokenStored tok rest).pushed hp n
  · exact ((h.tokenStored tok rest).append _).append n

/-- Every opcode of a running engine keeps the invariant. -/
theorem exec_keepsInv {i : Instr} {s t : State} (h : Inv s) (hr : s.mode = .running) (e : exec i s = .next t) :
    Inv t := by
  cases i with
  | push lit => obtain ⟨hp, rfl⟩ := execPush_next e; exact (h.setI _).pushed hp lit
  | compile x =>
    obtain ⟨-, rfl⟩ | ⟨-, rfl⟩ := execCompile_next e
    · exact h.dispatch hr x
    · exact h.append _
  | run x => obtain ⟨-, rfl⟩ := execRun_next e; exact (h.rpushed _).setI x
  | exit => obtain ⟨-, rfl⟩ := execExit_next e; exact h.rpopped.setI _
  | sub => exact binary_keepsInv h e
  | add => exact binary_keepsInv h e
  | mul => exact binary_keepsInv h e
  | uless => obtain ⟨hp, rfl⟩ := execUless_next e; exact (h.popped hp).setF _
  | equal => obtain ⟨hp, rfl⟩ := execEqual_next e; exact (h.popped hp).setF _
  | div =>
    obtain ⟨hp, ⟨-, rfl⟩ | ⟨-, rfl⟩⟩ := execDiv_next e
    · exact ((h.popped hp).diag _).setF _
    · exact (h.popped hp).setF _
  | load => obtain rfl := execLoad_next e; exact h.setF _
  | store =>
    obtain ⟨hp, hq, rfl⟩ := execStore_next e
    exact (((h.popped hp).setCell _ _).popped hq).setF _
  | swap => obtain ⟨-, rfl⟩ := execSwap_next e; exact (h.setCell _ _).setF _
  | dup => obtain ⟨hp, rfl⟩ := execDup_next e; exact h.pushed hp _
  | drop => obtain ⟨hp, rfl⟩ := execDrop_next e; exact (h.popped hp).setF _
  | tor => obtain ⟨-, hp, rfl⟩ := execTor_next e; exact ((h.rpushed _).popped hp).setF _
  | fromr => obtain ⟨-, hp, rfl⟩ := execFromr_next e; exact h.rpopped.pushed hp _
  | jmp off => obtain rfl := execJmp_next e; exact h.setI _
  | jmpz off =>
    obtain ⟨hp, ⟨-, rfl⟩ | ⟨-, rfl⟩⟩ := execJmpz_next e
    · exact ((h.setI (jumpTarget s.I off)).popped hp).setF _
    · exact ((h.setI (s.I + 1#15)).popped hp).setF _
  | pnum => obtain ⟨hp, rfl⟩ := execPnum_next e; exact ((h.out _).popped hp).setF _
  | emit => obtain ⟨hp, rfl⟩ := execEmit_next e; exact ((h.out _).popped hp).setF _
  | key => obtain ⟨hp, rfl⟩ := execKey_next e; exact (h.setInput (readChar s.input).2).pushed hp _
  | define =>
    obtain ⟨rest, -, rfl⟩ | ⟨tok, rest, -, rfl⟩ := execDefine_next e
    · exact ((h.setCell _ _).setInput rest).fatal _
    · exact ((((h.setCell _ _).setInput rest).makeEntry tok).append _).append _
  | immediate => obtain rfl := execImmediate_next e; exact (h.setCell _ _).append _
  | comment => obtain rfl := execComment_next e; exact h.setInput _
  | comma => obtain ⟨hp, rfl⟩ := execComma_next e; exact ((h.append _).popped hp).setF _
  | bsave => exact blockOp_keepsInv h e
  | bload => exact blockOp_keepsInv h e
  | read => exact execRead_keepsInv h hr e

theorem stepRunning_keepsInv {s t : State} (h : Inv s) (hr : s.mode = .running) (e : stepRunning s = .next t) :
    Inv t := by
  obtain ⟨i, e⟩ | ⟨op, xt, rfl⟩ := stepRunning_cases e
  · exact exec_keepsInv h.fetchToken (by simpa using hr) e
  · exact h.fetchToken.fatal _

/-! ### Host calls -/

theorem changeFile_wf (name : FileName) (contents : Option (List Byte)) {st : Store} (h : Store.wf st = true) :
    Store.wf (changeFile name contents st) = true := by
  cases contents with
  | none => exact eraseFile_wf h name
  | some data => exact putFile_wf h name data

/-- The start of a run is refused on an invalidated engine, so a run it starts is valid (70_reset_and_hazards.md
R154). -/
theorem Inv.beginRun {s : State} (h : Inv s) : Inv (beginRun s) := by
  unfold Machine.beginRun
  split
  · exact { h with }
  · next hv => exact { h with idleEmpty := nofun, runningValid := fun _ => by simpa using hv }

/-- The checks of `restore` bound the arena's bytes and `S` (70_reset_and_hazards.md R158). -/
theorem imageValid_bounds {image : List Byte} (h : imageValid image = true) :
    image.length = 65548 ∧ 31744 ≤ (imageWord image 2).toNat ∧ (imageWord image 2).toNat ≤ 32255 := by
  simp only [imageValid, Bool.and_eq_true, beq_iff_eq, decide_eq_true_eq] at h
  obtain ⟨⟨⟨⟨hlen, -⟩, -⟩, hS⟩, -⟩ := h
  exact ⟨hlen, hS⟩

theorem mask_toNat (v : Word) : (mask v).toNat = v.toNat % 32768 := by simp [mask]

theorem Inv.restore {s t : State} {image : List Byte} (h : Inv s) (hi : s.mode = .idle)
    (e : restore image s = some t) : Inv t := by
  unfold Machine.restore at e
  split at e
  · next hv =>
    obtain ⟨hlen, hlow, hhigh⟩ := imageValid_bounds hv
    have hS : (mask (imageWord image 2)).toNat = (imageWord image 2).toNat := by rw [mask_toNat]; omega
    cases e
    exact { h with
      memCanonical := memoryOfBytes_wf _ (by rw [List.length_drop]; omega)
      stackLow := hS ▸ hlow
      stackHigh := hS ▸ hhigh
      idleEmpty := fun _ => rfl
      runningValid := fun hr => nomatch hi.symm.trans hr }
  · cases e

theorem serveCall_keepsInv {c : HostCall} {s t : State} (h : Inv s) (hi : s.mode = .idle)
    (e : serveCall c s = .next t) : Inv t := by
  cases c with
  | run => obtain rfl := next_inj e; exact h.beginRun
  | replaceInput stream => obtain rfl := next_inj e; exact h.setInput stream
  | changeFile name contents =>
    obtain rfl := next_inj e
    exact { h with storeCanonical := changeFile_wf name contents h.storeCanonical }
  | snapshot => obtain rfl := next_inj e; exact h.reply _
  | restore image =>
    simp only [serveCall] at e
    split at e
    · obtain rfl := next_inj e; exact h.reply _
    · next u hu => obtain rfl := next_inj e; exact (h.restore hi hu).reply _
  | blockIO off id mode => obtain rfl := next_inj e; exact (h.blockIO off id mode).reply _
  | teardown => cases e

theorem serveHost_keepsInv {s t : State} (h : Inv s) (hi : s.mode = .idle) (e : serveHost s = .next t) : Inv t := by
  unfold serveHost at e
  split at e
  · obtain rfl := next_inj e; exact h
  · next c rest _ => exact serveCall_keepsInv (s := { s with calls := rest }) { h with } hi e

/-- Settles O45: an Idle step serves the host and a Running one performs an opcode, and both keep the invariant. -/
theorem everyStepKeepsInvariant : Obligations.EveryStepKeepsInvariant := by
  intro s t h e
  cases hm : s.mode with
  | idle => exact serveHost_keepsInv h hm (step_idle hm ▸ e)
  | running => exact stepRunning_keepsInv h hm (step_running hm ▸ e)

/-- Settles O46: at reset memory and store list nothing, and `S` stands at its lowest value. -/
theorem invariantHoldsAtReset : Obligations.InvariantHoldsAtReset where
  memCanonical := memory_nil_wf
  storeCanonical := rfl
  stackLow := by decide
  stackHigh := by decide
  idleEmpty _ := rfl
  runningValid := nofun

end Sys2Proof.Machine

/-! SUPPORT. Which opcodes may change each register, channel and host-side list, and what follows for a running step:
the channels are used in order, and only a fatal fault sets `INVALID`. Settles O43, O48 and O49. -/

namespace Sys2Proof.Machine

/-! ### Which fields an opcode may change -/

/-- A read request leaves the block store and the host's coming answers alone (46_block.md R127). -/
theorem blockIO_read_store (off id : Word) (s : State) :
    (blockIO off id .read s).2.store = s.store ∧ (blockIO off id .read s).2.writeAnswers = s.writeAnswers := by
  rcases blockIO_cases off id .read s with e | ⟨-, hm, -⟩ | ⟨-, -, e⟩
  · simp [e]
  · cases hm
  · rcases blockRead_cases off id s with ⟨-, e'⟩ | ⟨_, -, -, e'⟩ | ⟨_, -, -, e'⟩ <;> simp [e, e']

/-- Settles O43, by the one state each opcode completes in (Laws/Meanings.lean). -/
theorem registersChangeOnlyWhereNamed : Obligations.RegistersChangeOnlyWhereNamed := by
  intro i s t hn h
  cases i with
  | push lit => obtain ⟨-, rfl⟩ := execPush_next h; simp [hn]
  | compile x => obtain ⟨-, rfl⟩ | ⟨-, rfl⟩ := execCompile_next h <;> simp
  | run x => obtain ⟨-, rfl⟩ := execRun_next h; simp [hn]
  | exit => obtain ⟨-, rfl⟩ := execExit_next h; simp [hn]
  | sub => obtain ⟨-, rfl⟩ := execSub_next h; simp [hn]
  | add => obtain ⟨-, rfl⟩ := execAdd_next h; simp [hn]
  | mul => obtain ⟨-, rfl⟩ := execMul_next h; simp [hn]
  | div => obtain ⟨-, ⟨-, rfl⟩ | ⟨-, rfl⟩⟩ := execDiv_next h <;> simp [hn]
  | uless => obtain ⟨-, rfl⟩ := execUless_next h; simp [hn]
  | equal => obtain ⟨-, rfl⟩ := execEqual_next h; simp [hn]
  | load => obtain rfl := execLoad_next h; simp [hn]
  | store => obtain ⟨-, -, rfl⟩ := execStore_next h; simp [hn]
  | swap => obtain ⟨-, rfl⟩ := execSwap_next h; simp [hn]
  | dup => obtain ⟨-, rfl⟩ := execDup_next h; simp [hn]
  | drop => obtain ⟨-, rfl⟩ := execDrop_next h; simp [hn]
  | tor => obtain ⟨-, -, rfl⟩ := execTor_next h; simp [hn]
  | fromr => obtain ⟨-, -, rfl⟩ := execFromr_next h; simp [hn]
  | jmp off => obtain rfl := execJmp_next h; simp [hn]
  | jmpz off => obtain ⟨-, ⟨-, rfl⟩ | ⟨-, rfl⟩⟩ := execJmpz_next h <;> simp [hn]
  | pnum => obtain ⟨-, rfl⟩ := execPnum_next h; simp [hn]
  | emit => obtain ⟨-, rfl⟩ := execEmit_next h; simp [hn]
  | key => obtain ⟨-, rfl⟩ := execKey_next h; simp [hn]
  | define => obtain ⟨rest, -, rfl⟩ | ⟨tok, rest, -, rfl⟩ := execDefine_next h <;> simp [hn]
  | immediate => obtain rfl := execImmediate_next h; simp [hn]
  | comment => obtain rfl := execComment_next h; simp [hn]
  | comma => obtain ⟨-, rfl⟩ := execComma_next h; simp [hn]
  | bsave => obtain ⟨-, rfl⟩ := execBsave_next h; simp [hn]
  | bload => obtain ⟨-, rfl⟩ := execBload_next h; simp [hn, blockIO_read_store]
  | read =>
    obtain ⟨-, ⟨rest, -, rfl⟩ | ⟨tok, rest, -, ⟨w, -, -, rfl⟩ | ⟨-, rfl | ⟨n, ⟨-, -, rfl⟩ | ⟨-, rfl⟩⟩⟩⟩⟩ :=
      execRead_next h <;> simp [tokenStored]

/-- `t` is left by a fatal fault, raised where nothing had been sent to the error channel or given back since `s`. -/
def FatalFrom (s t : State) : Prop :=
  ∃ (u : State) (r : FatalReason), u.errors = s.errors ∧ u.replies = s.replies ∧ t = u.fatal r

/-! ### The channels and `INVALID` -/

section Channels

variable {i : Instr} {s t : State} (hn : s.NXT = none) (h : exec i s = .next t)
include hn h

/-- An opcode leaves a suffix of the input (44_char_io.md R107). -/
theorem exec_input_suffix : t.input <:+ s.input := by
  obtain ⟨-, -, -, -, -, -, hi, -⟩ := registersChangeOnlyWhereNamed i s t hn h
  rcases hi with e | rfl | rfl | rfl | rfl
  · rw [e]
  · obtain ⟨-, rfl⟩ := execKey_next h
    exact readChar_suffix _
  · obtain ⟨-, ⟨rest, e, rfl⟩ | ⟨tok, rest, e, ht⟩⟩ := execRead_next h
    · simpa [e] using readToken_suffix s.input
    · have hr : t.input = rest := by
        obtain ⟨w, -, -, rfl⟩ | ⟨-, rfl | ⟨n, ⟨-, -, rfl⟩ | ⟨-, rfl⟩⟩⟩ := ht <;> simp [tokenStored]
      simpa [e, hr] using readToken_suffix s.input
  · obtain ⟨rest, e, rfl⟩ | ⟨tok, rest, e, rfl⟩ := execDefine_next h <;>
      simpa [e] using readToken_suffix s.input
  · obtain rfl := execComment_next h
    exact skipLine_suffix _

/-- An opcode only appends to the output (44_char_io.md R108). -/
theorem exec_output_appends : ∃ bs, t.output = s.output ++ bs := by
  obtain ⟨-, -, -, -, -, -, -, ho, -⟩ := registersChangeOnlyWhereNamed i s t hn h
  rcases ho with e | rfl | rfl
  · exact ⟨[], by simp [e]⟩
  · obtain ⟨-, rfl⟩ := execPnum_next h
    exact ⟨_, rfl⟩
  · obtain ⟨-, rfl⟩ := execEmit_next h
    exact ⟨_, rfl⟩

/-- An opcode appends at most one event to the error channel (60_exceptions.md R139). -/
theorem exec_errors_atMostOne : t.errors = s.errors ∨ ∃ ev, t.errors = s.errors ++ [ev] := by
  obtain ⟨-, -, -, -, -, -, -, -, he, -⟩ := registersChangeOnlyWhereNamed i s t hn h
  rcases he with e | rfl | rfl | rfl | rfl | rfl
  · exact .inl e
  · obtain ⟨-, ⟨-, rfl⟩ | ⟨-, rfl⟩⟩ := execDiv_next h
    · exact .inr ⟨_, rfl⟩
    · exact .inl rfl
  · obtain ⟨-, ⟨rest, -, rfl⟩ | ⟨tok, rest, -, ⟨w, -, -, rfl⟩ | ⟨-, rfl | ⟨n, ⟨-, -, rfl⟩ | ⟨-, rfl⟩⟩⟩⟩⟩ :=
      execRead_next h <;> simp [tokenStored]
  · obtain ⟨rest, -, rfl⟩ | ⟨tok, rest, -, rfl⟩ := execDefine_next h <;> simp
  · obtain ⟨-, rfl⟩ := execBsave_next h
    simpa using blockIO_errors s.second s.f .write s.popped
  · obtain ⟨-, rfl⟩ := execBload_next h
    simpa using blockIO_errors s.second s.f .read s.popped

/-- An opcode leaves `INVALID` as it is, or ends the run by a fatal fault (60_exceptions.md R136). -/
theorem exec_invalid_cases : t.INVALID = s.INVALID ∨ FatalFrom s t := by
  obtain ⟨-, -, -, -, hv, -⟩ := registersChangeOnlyWhereNamed i s t hn h
  rcases hv with e | rfl
  · exact .inl e
  · obtain ⟨rest, -, rfl⟩ | ⟨tok, rest, -, rfl⟩ := execDefine_next h
    · exact .inr ⟨(s.setCell stateCell 1#16).setInput rest, .nameRead, rfl, rfl, rfl⟩
    · exact .inl (by simp)

end Channels

/-! ### The running step -/

@[simp] theorem fetchToken_input (s : State) : (fetchToken s).2.input = s.input := by
  unfold fetchToken; split <;> rfl
@[simp] theorem fetchToken_output (s : State) : (fetchToken s).2.output = s.output := by
  unfold fetchToken; split <;> rfl
@[simp] theorem fetchToken_errors (s : State) : (fetchToken s).2.errors = s.errors := by
  unfold fetchToken; split <;> rfl
@[simp] theorem fetchToken_replies (s : State) : (fetchToken s).2.replies = s.replies := by
  unfold fetchToken; split <;> rfl
@[simp] theorem fetchToken_INVALID (s : State) : (fetchToken s).2.INVALID = s.INVALID := by
  unfold fetchToken; split <;> rfl

/-- Settles O48: the fetch touches no channel, an opcode uses each in order, and an unknown opcode sends one event. -/
theorem channelsAreConsumedAndExtendedInOrder : Obligations.ChannelsAreConsumedAndExtendedInOrder := by
  intro s t hr h
  rw [step_running hr] at h
  obtain ⟨i, h⟩ | ⟨op, xt, rfl⟩ := stepRunning_cases h
  · have hn := fetchToken_NXT s
    obtain ⟨used, hi⟩ := exec_input_suffix hn h
    obtain ⟨bs, ho⟩ := exec_output_appends hn h
    have he : ∃ es, t.errors = (fetchToken s).2.errors ++ es := by
      obtain e | ⟨ev, e⟩ := exec_errors_atMostOne hn h
      · exact ⟨[], by simp [e]⟩
      · exact ⟨[ev], e⟩
    simp only [fetchToken_input, fetchToken_output, fetchToken_errors] at hi ho he
    exact ⟨⟨used, hi.symm⟩, ⟨bs, ho⟩, he⟩
  · exact ⟨⟨[], by simp⟩, ⟨[], by simp⟩, ⟨[.fatal (.unknownOpcode op xt)], by simp⟩⟩

/-- A running step leaves `INVALID` as it is, or ends the run by a fatal fault. -/
theorem stepRunning_invalid_cases {s t : State} (h : stepRunning s = .next t) :
    t.INVALID = s.INVALID ∨ FatalFrom s t := by
  obtain ⟨i, h⟩ | ⟨op, xt, rfl⟩ := stepRunning_cases h
  · simpa [FatalFrom] using exec_invalid_cases (fetchToken_NXT s) h
  · exact .inr ⟨_, _, fetchToken_errors s, fetchToken_replies s, rfl⟩

/-- Settles O49: what a fatal fault leaves is what the statement lists, and every other step keeps `INVALID`. -/
theorem onlyFatalFaultInvalidates : Obligations.OnlyFatalFaultInvalidates := by
  intro s t hr h
  rw [step_running hr] at h
  obtain hv | ⟨u, r, he, hrep, rfl⟩ := stepRunning_invalid_cases h
  · rw [hv]
    exact ⟨id, fun h0 h1 => nomatch h0.symm.trans h1⟩
  · exact ⟨fun _ => rfl, fun _ _ => ⟨rfl, rfl, by simp [hrep], r, by simp [he]⟩⟩

end Sys2Proof.Machine

/-! SUPPORT. What an opcode leaves of the arena, byte by byte, from what it leaves of the cells: one frame per stack
primitive, for a stored string and for a run of appends. Settles O39 and O40. -/

namespace Sys2Proof.Machine

/-! ### From cells to bytes -/

/-- A byte below 65536 is half of the cell at half its address (20_memory.md R57). -/
theorem exists_byteAddr {b : Nat} (hb : b < 65536) : ∃ a : Addr, b = byteAddr a ∨ b = byteAddr a + 1 :=
  ⟨BitVec.ofNat 15 (b / 2), by simp only [byteAddr, BitVec.toNat_ofNat]; omega⟩

/-- Canonical memories that agree on every cell outside a list agree on every byte outside its cells. -/
theorem sameOutside_of_cells {cells : List Addr} {s t : State} (hs : s.mem.wf = true) (ht : t.mem.wf = true)
    (h : ∀ c, c ∉ cells → t.cell c = s.cell c) : SameOutside cells s t := by
  intro b hb
  by_cases hlt : b < 65536
  · obtain ⟨a, ha⟩ := exists_byteAddr hlt
    have hc : cellRead t.mem a = cellRead s.mem a := h a fun hm => by
      obtain ⟨h0, h1⟩ := hb a hm
      exact ha.elim h0 h1
    rcases ha with rfl | rfl
    · rw [byteRead_even, byteRead_even, hc]
    · rw [byteRead_odd, byteRead_odd, hc]
  · rw [byteRead_of_ge hs (by omega), byteRead_of_ge ht (by omega)]

theorem SameOutside.refl (s : State) : SameOutside [] s s := fun _ _ => rfl

theorem SameOutside.trans {cells cells' : List Addr} {s t u : State} (h : SameOutside cells s t)
    (h' : SameOutside cells' t u) : SameOutside (cells ++ cells') s u := fun b hb =>
  (h' b fun a ha => hb a (List.mem_append_right _ ha)).trans (h b fun a ha => hb a (List.mem_append_left _ ha))

theorem SameOutside.mono {cells cells' : List Addr} {s t : State} (h : SameOutside cells s t)
    (hc : cells ⊆ cells') : SameOutside cells' s t := fun b hb => h b fun a ha => hb a (hc ha)

theorem SameOutside.of_mem_eq {cells : List Addr} {s t u : State} (h : SameOutside cells s t)
    (e : u.mem = t.mem) : SameOutside cells s u := fun b hb => e ▸ h b hb

/-! ### The stack primitives -/

section Primitives

variable {s : State} (hs : s.mem.wf = true)
include hs

theorem sameOutside_setCell (a : Addr) (v : Word) : SameOutside [a] s (s.setCell a v) :=
  sameOutside_of_cells hs (State.setCell_wf hs a v) fun c hc => by
    rw [State.setCell_cell hs, if_neg (by simpa using hc)]

theorem sameOutside_pushed (v : Word) : SameOutside [s.S + 1#15] s (s.pushed v) :=
  sameOutside_setCell hs (s.S + 1#15) s.f

theorem sameOutside_rpushed (v : Word) : SameOutside [rspCell, mask (s.RSP + 1#16)] s (s.rpushed v) :=
  (sameOutside_setCell hs rspCell _).trans (sameOutside_setCell (State.setCell_wf hs _ _) _ v)

theorem sameOutside_rpopped : SameOutside [rspCell] s s.rpopped := sameOutside_setCell hs rspCell _

theorem sameOutside_append (v : Word) : SameOutside [mask s.DP, dpCell] s (s.append v) :=
  (sameOutside_setCell hs (mask s.DP) v).trans (sameOutside_setCell (State.setCell_wf hs _ _) dpCell _)

end Primitives

/-- Settles O39: the opcodes write through `DPush`, `RPush`, `RPop` or one cell write, and through nothing else. -/
theorem stackOpcodesKeepOtherBytes : Obligations.StackOpcodesKeepOtherBytes := by
  intro s t hs
  refine ⟨fun lit h => ?push, fun h => ?dup, fun h => ?key, fun h => ?swap, fun h => ?store, fun x h => ?run,
    fun h => ?exit, fun h => ?tor, fun h => ?fromr⟩
  case push => obtain ⟨-, rfl⟩ := execPush_next h; exact sameOutside_pushed (s := skipInline s) hs lit
  case dup => obtain ⟨-, rfl⟩ := execDup_next h; exact sameOutside_pushed hs s.f
  case key => obtain ⟨-, rfl⟩ := execKey_next h; exact sameOutside_pushed (s := s.setInput (readChar s.input).2) hs _
  case swap => obtain ⟨-, rfl⟩ := execSwap_next h; exact sameOutside_setCell hs s.S s.f
  case store => obtain ⟨-, -, rfl⟩ := execStore_next h; exact sameOutside_setCell hs (absoluteAddr s) s.second
  case run => obtain ⟨-, rfl⟩ := execRun_next h; exact sameOutside_rpushed hs (zext s.I)
  case exit => obtain ⟨-, rfl⟩ := execExit_next h; exact sameOutside_rpopped hs
  case tor => obtain ⟨-, -, rfl⟩ := execTor_next h; exact sameOutside_rpushed hs s.f
  case fromr =>
    obtain ⟨-, -, rfl⟩ := execFromr_next h
    exact (sameOutside_rpopped hs).trans (sameOutside_pushed (State.rpopped_wf hs) s.rtop)

/-! ### Strings and appends -/

theorem mem_stringCells {a c : Addr} {n : Nat} : c ∈ stringCells a n ↔ ∃ i ≤ n, a + BitVec.ofNat 15 i = c := by
  simp only [stringCells, List.mem_map, List.mem_range, Nat.lt_succ_iff]

theorem mem_appendCells {d : Word} {c : Addr} {n : Nat} :
    c ∈ appendCells d n ↔ c = dpCell ∨ ∃ i < n, mask (d + BitVec.ofNat 16 i) = c := by
  simp only [appendCells, List.mem_cons, List.mem_map, List.mem_range]

theorem sameOutside_storeString {s : State} (hs : s.mem.wf = true) (a : Addr) (bs : List Byte) :
    SameOutside (stringCells a bs.length) s (storeString a bs s) :=
  sameOutside_of_cells hs (storeString_wf a bs hs) fun c hc =>
    storeString_cell_other a bs hs c fun i hi e => hc (mem_stringCells.mpr ⟨i, hi, e.symm⟩)

theorem State.append_DP {s : State} (hs : s.mem.wf = true) (v : Word) : (s.append v).DP = s.DP + 1#16 := by
  rw [State.DP, State.append_cell hs, if_pos rfl]

/-- What memory an append leaves depends on memory alone. -/
theorem State.append_mem_congr {s t : State} (h : s.mem = t.mem) (v : Word) : (s.append v).mem = (t.append v).mem := by
  simp [State.DP, State.cell, h]

/-- One append, and the appends that follow it from the next cell, write the cells of them all. -/
theorem appendCells_succ_subset (d : Word) (n : Nat) :
    [mask d, dpCell] ++ appendCells (d + 1#16) n ⊆ appendCells d (n + 1) := by
  intro c hc
  simp only [List.cons_append, List.nil_append, List.mem_cons, mem_appendCells] at hc
  rw [mem_appendCells]
  rcases hc with rfl | rfl | rfl | ⟨i, hi, rfl⟩
  · exact .inr ⟨0, by omega, by simp⟩
  · exact .inl rfl
  · exact .inl rfl
  · exact .inr ⟨i + 1, by omega, by rw [Nat.add_comm i 1, BitVec.ofNat_add, BitVec.add_assoc]⟩

/-- Appending values in order writes the cells from `DP` upward, and `DP` (10_state.md R42). -/
theorem sameOutside_appends {s : State} (hs : s.mem.wf = true) (vs : List Word) :
    SameOutside (appendCells s.DP vs.length) s (vs.foldl State.append s) := by
  induction vs generalizing s with
  | nil => exact (SameOutside.refl s).mono (List.nil_subset _)
  | cons v vs ih =>
    have hrest := ih (State.append_wf hs v)
    rw [State.append_DP hs] at hrest
    exact ((sameOutside_append hs v).trans hrest).mono (appendCells_succ_subset _ _)

/-! ### Dictionary opcodes -/

theorem sameOutside_immediate {s : State} (hs : s.mem.wf = true) :
    SameOutside (appendCells (s.DP - 2#16) 1) s ((s.setCell dpCell (s.DP - 2#16)).append runCell) := by
  have hd : (s.setCell dpCell (s.DP - 2#16)).DP = s.DP - 2#16 := by
    rw [State.DP, State.setCell_cell hs, if_pos rfl]
  have happ := sameOutside_appends (State.setCell_wf hs dpCell (s.DP - 2#16)) [runCell]
  rw [hd] at happ
  refine ((sameOutside_setCell hs dpCell _).trans happ).mono ?_
  simp [appendCells]

/-- The four cells of a new definition are appended after its name is stored (45_compiler.md R115, R120). -/
theorem define_mem (tok : List Byte) (s : State) :
    (((makeEntry tok s).append compileCell).append runCell).mem =
      ([zext s.LATEST, s.STRP, compileCell, runCell].foldl State.append
        (storeString (nameCell s.STRP) tok s)).mem :=
  State.append_mem_congr (State.append_mem_congr (makeEntry_mem tok s) _) _

theorem sameOutside_define {s : State} (hs : s.mem.wf = true) (tok : List Byte) :
    SameOutside (stringCells (nameCell s.STRP) tok.length ++
      appendCells (storeString (nameCell s.STRP) tok s).DP 4) s
      (((makeEntry tok s).append compileCell).append runCell) :=
  ((sameOutside_storeString hs _ tok).trans
    (sameOutside_appends (storeString_wf _ _ hs) [zext s.LATEST, s.STRP, compileCell, runCell])).of_mem_eq
    (define_mem tok s)

/-- Settles O40: each of these opcodes is a run of appends, after what it writes before them. -/
theorem dictionaryOpcodesKeepOtherBytes : Obligations.DictionaryOpcodesKeepOtherBytes := by
  intro s t hs
  refine ⟨fun x hst h => ?compile, fun h => ?comma, fun h => ?immediate, fun h => ⟨fun rest he => ?eof,
    fun tok rest he => ?define⟩⟩
  case compile =>
    obtain ⟨h0, -⟩ | ⟨-, rfl⟩ := execCompile_next h
    · exact absurd h0 hst
    · exact sameOutside_appends hs [zext x]
  case comma => obtain ⟨-, rfl⟩ := execComma_next h; exact sameOutside_appends hs [s.f]
  case immediate => obtain rfl := execImmediate_next h; exact sameOutside_immediate hs
  case eof =>
    obtain rfl := next_inj ((exec_define_eof he).symm.trans h)
    exact sameOutside_setCell hs stateCell 1#16
  case define =>
    obtain rfl := next_inj ((exec_define he).symm.trans h)
    have hname : ∀ inp, (storeString (nameCell s.STRP) tok ((s.setCell stateCell 1#16).setInput inp)).DP =
        (storeString (nameCell s.STRP) tok (s.setCell stateCell 1#16)).DP := fun inp =>
      congrArg (cellRead · dpCell) (storeString_mem_congr _ tok rfl)
    rw [← hname rest]
    exact (sameOutside_setCell hs stateCell 1#16).trans
      (sameOutside_define (s := (s.setCell stateCell 1#16).setInput rest) (State.setCell_wf hs stateCell 1#16) tok)

end Sys2Proof.Machine

/-! SUPPORT. The reset image, cell by cell. Settles O52. -/

namespace Sys2Proof.Machine

/-- After reset a cell holds what the image holds there (70_reset_and_hazards.md R152). -/
theorem reset_cell (a : Addr) : State.reset.cell a = resetCell a.toNat := by
  have h0 : 2 * a.toNat % 2 = 0 := by omega
  have h1 : ¬ (2 * a.toNat + 1) % 2 = 0 := by omega
  have h2 : 2 * a.toNat / 2 = a.toNat := by omega
  have h3 : (2 * a.toNat + 1) / 2 = a.toNat := by omega
  show joinBytes (resetByte (2 * a.toNat)) (resetByte (2 * a.toNat + 1)) = _
  rw [resetByte, resetByte, if_pos h0, if_neg h1, h2, h3, joinBytes_lo_hi]

theorem resetNames_length : resetNames.length = 95 := rfl

theorem resetCell_low {a : Nat} (h2 : 2 ≤ a) (h32 : a < 32) : resetCell a = 0#16 := by
  rw [resetCell, if_pos h32, if_neg (by omega), if_neg (by omega)]

theorem resetCell_free {a : Nat} (hlo : 144 ≤ a) (hhi : a < 16416) : resetCell a = 0#16 := by
  rw [resetCell, if_neg (by omega), if_neg (by omega), if_pos hhi]

theorem resetCell_above_names {a : Nat} (h : 16511 ≤ a) : resetCell a = 0#16 := by
  rw [resetCell, if_neg (by omega), if_neg (by omega), if_neg (by omega),
    List.getD_eq_default _ _ (by rw [resetNames_length]; omega)]

/-- Settles O52: the registers by their definition, the cells by the image. -/
theorem resetValuesAsListed : Obligations.ResetValuesAsListed :=
  ⟨rfl, rfl, rfl, rfl, rfl, rfl, rfl, rfl, reset_cell 0#15, reset_cell 1#15,
    fun a h2 h32 => (reset_cell a).trans (resetCell_low h2 h32),
    fun a hlo hhi => (reset_cell a).trans (resetCell_free hlo hhi),
    fun a h => (reset_cell a).trans (resetCell_above_names h)⟩

end Sys2Proof.Machine

/-! SUPPORT. The two halves of a cell as the byte view shows and replaces them, and the addresses that bit 15 is dropped
from. Settles O36 and O37. -/

namespace Sys2Proof.Machine

/-! ### A byte address names a cell and one of its halves (20_memory.md R57) -/

@[simp] theorem byteAddr_div_two (a : Addr) : byteAddr a / 2 = a.toNat := by simp only [byteAddr]; omega
@[simp] theorem byteAddr_succ_div_two (a : Addr) : (byteAddr a + 1) / 2 = a.toNat := by simp only [byteAddr]; omega
@[simp] theorem byteAddr_mod_two (a : Addr) : byteAddr a % 2 = 0 := by simp only [byteAddr]; omega
@[simp] theorem byteAddr_succ_mod_two (a : Addr) : (byteAddr a + 1) % 2 = 1 := by simp only [byteAddr]; omega

theorem byteAddr_ne_succ (a c : Addr) : byteAddr c ≠ byteAddr a + 1 := by simp only [byteAddr]; omega

/-! ### Replacing one half of a cell -/

theorem loByte_eq_setWidth (c : Word) : loByte c = c.setWidth 8 := rfl
theorem hiByte_eq_setWidth (c : Word) : hiByte c = (c >>> 8).setWidth 8 := rfl

theorem setWidth_eq_joinBytes (v : Byte) : v.setWidth 16 = joinBytes v 0#8 :=
  BitVec.setWidth_eq_append (by decide)

theorem setWidth_shiftLeft_eq_joinBytes (v : Byte) : v.setWidth 16 <<< 8 = joinBytes 0#8 v := by
  rw [BitVec.shiftLeft_eq_concat_of_lt (by decide), setWidth_eq_joinBytes]
  exact congrArg (· ++ 0#8) (loByte_joinBytes v 0#8)

theorem joinBytes_and_or (lo hi lo' hi' lo'' hi'' : Byte) :
    (joinBytes lo hi &&& joinBytes lo' hi') ||| joinBytes lo'' hi'' =
      joinBytes (lo &&& lo' ||| lo'') (hi &&& hi' ||| hi'') :=
  (congrArg (· ||| joinBytes lo'' hi'') BitVec.and_append).trans BitVec.or_append

theorem joinBytes_hiByte_eq_and_or (c : Word) (v : Byte) :
    joinBytes v (hiByte c) = (c &&& 0xFF00#16) ||| v.setWidth 16 := by
  conv_rhs => rw [← joinBytes_lo_hi c, setWidth_eq_joinBytes]
  rw [show 0xFF00#16 = joinBytes 0x00#8 0xFF#8 from rfl, joinBytes_and_or]
  have hkeep : hiByte c &&& 0xFF#8 = hiByte c := BitVec.and_allOnes
  simp [hkeep]

theorem joinBytes_loByte_eq_and_or (c : Word) (v : Byte) :
    joinBytes (loByte c) v = (c &&& 0x00FF#16) ||| (v.setWidth 16 <<< 8) := by
  conv_rhs => rw [← joinBytes_lo_hi c, setWidth_shiftLeft_eq_joinBytes]
  rw [show 0x00FF#16 = joinBytes 0xFF#8 0x00#8 from rfl, joinBytes_and_or]
  have hkeep : loByte c &&& 0xFF#8 = loByte c := BitVec.and_allOnes
  simp [hkeep]

/-- A byte write at an even address replaces bits 7:0 of one cell (20_memory.md R57). -/
theorem cellRead_byteWrite_even {m : Memory} (h : m.wf = true) (a c : Addr) (v : Byte) :
    cellRead (byteWrite m (byteAddr a) v) c = if c = a then joinBytes v (hiByte (cellRead m c)) else cellRead m c := by
  have hodd : byteAddr c + 1 ≠ byteAddr a := (byteAddr_ne_succ c a).symm
  rw [← byteRead_odd]
  simp only [cellRead, byteRead_byteWrite h, hodd, if_false]
  by_cases hc : c = a
  · simp [hc]
  · simp [hc, mt byteAddr_inj hc]

/-- A byte write at an odd address replaces bits 15:8 of one cell (20_memory.md R57). -/
theorem cellRead_byteWrite_odd {m : Memory} (h : m.wf = true) (a c : Addr) (v : Byte) :
    cellRead (byteWrite m (byteAddr a + 1) v) c =
      if c = a then joinBytes (loByte (cellRead m c)) v else cellRead m c := by
  rw [← byteRead_even]
  simp only [cellRead, byteRead_byteWrite h, byteAddr_ne_succ a c, if_false, Nat.add_right_cancel_iff]
  by_cases hc : c = a
  · simp [hc]
  · simp [hc, mt byteAddr_inj hc]

/-- Settles O36: a byte address is the low or the high half of one cell, and a byte write replaces that half. -/
theorem byteViewIsLittleEndian : Obligations.ByteViewIsLittleEndian := by
  intro m h b hb v
  obtain ⟨a, rfl | rfl⟩ := exists_byteAddr hb
  · refine ⟨by simp [byteRead_even, loByte_eq_setWidth], fun c => ?_⟩
    rw [cellRead_byteWrite_even h, joinBytes_hiByte_eq_and_or]
    simp [BitVec.toNat_inj]
  · refine ⟨by simp [byteRead_odd, hiByte_eq_setWidth], fun c => ?_⟩
    rw [cellRead_byteWrite_odd h, joinBytes_loByte_eq_and_or]
    simp [BitVec.toNat_inj]

/-! ### Bit 15 of an address (20_memory.md R50) -/

theorem mask_xor_bit15 (v : Word) : mask (v ^^^ 0x8000#16) = mask v := by simp [mask]

/-- LOAD uses `f` as an address only (42_memory_stack.md R95). -/
theorem exec_load_setF (w : Word) (s : State) : exec .load (s.setF w) = .next (s.setF (s.cell (mask w))) := rfl

/-- STORE uses `f` as an address only (42_memory_stack.md R96). -/
theorem exec_store_setF (w : Word) (s : State) : exec .store (s.setF w) =
    withPop s fun v t => withPop (t.setCell (mask w) v) fun x u => .next (u.setF x) := rfl

/-- Settles O37: all three see the address through `mask`, which drops bit 15. -/
theorem addressBit15IsIgnored : Obligations.AddressBit15IsIgnored := by
  intro v s
  refine ⟨?load, ?store, mask_xor_bit15 v⟩
  case load =>
    change exec .load (s.setF _) = exec .load (s.setF v)
    rw [exec_load_setF, exec_load_setF, mask_xor_bit15]
  case store =>
    change exec .store (s.setF _) = exec .store (s.setF v)
    rw [exec_store_setF, exec_store_setF, mask_xor_bit15]

end Sys2Proof.Machine

/-! SUPPORT. `decode` and `encode` agree on the two cells of an instruction, and `decodeBytes` reads those cells from
bytes. Settles O1, O2 and O3. -/

namespace Sys2Proof

open Machine (joinBytes wordBytes joinBytes_lo_hi)

/-! ### The opcode cell (30_encoding.md R67, R76) -/

theorem decode_ok_of_lt (x : Addr) {op : Word} (inl : Word) (h : op.toNat < 29) : ∃ i, decode x op inl = .ok i := by
  unfold decode
  interval_cases op.toNat <;> exact ⟨_, rfl⟩

theorem decode_unknown (x : Addr) {op : Word} (inl : Word) (h : 29 ≤ op.toNat) :
    decode x op inl = .error (.unknownOpcode op) := by
  unfold decode
  split
  case h_30 => rfl
  all_goals omega

/-- Settles O2: an opcode cell below 29 decodes to an instruction, and any other is unknown. -/
theorem unknownOpcodesAreExactly29AndAbove : Obligations.UnknownOpcodesAreExactly29AndAbove := by
  intro x op inl
  refine ⟨fun h => ?_, decode_unknown x inl⟩
  by_contra hlt
  obtain ⟨i, hi⟩ := decode_ok_of_lt x inl (Nat.lt_of_not_le hlt)
  exact nomatch h.symm.trans hi

/-! ### Two cells and an instruction (30_encoding.md R68, R69, R75) -/

/-- The cells of an instruction of a format, from its opcode cell and the inline operand cell that formats T1 and T2
have (30_encoding.md R69). -/
def Format.cells : Format → Word → Word → List Word
  | .t0, op, _ => [op]
  | .t1, op, inl => [op, inl]
  | .t2, op, inl => [op, inl]

/-- What `decode` accepts is an opcode of some format, and the instruction encodes to the cells of that format. -/
theorem cells_of_decode {x : Addr} {op inl : Word} {i : Instr} (h : decode x op inl = .ok i) :
    (formatOf op).map (·.cells op inl) = some (encode i) := by
  unfold decode at h
  split at h
  case h_30 => cases h
  all_goals
    rename_i hop
    obtain ⟨-, rfl⟩ := BitVec.toNat_eq_nat.mp hop
    cases h
    rfl

/-- The implicit operand of a decoded instruction is the one `decode` was given. -/
theorem implicitOperand_of_decode {x : Addr} {op inl : Word} {i : Instr} (h : decode x op inl = .ok i) :
    i.implicitOperand = none ∨ i.implicitOperand = some x := by
  unfold decode at h
  split at h
  case h_30 => cases h
  all_goals
    cases h
    simp [Instr.implicitOperand]

/-- The cells of an instruction decode to it, at the place its implicit operand names. -/
theorem decode_encode {x : Addr} {i : Instr} (hx : i.implicitOperand = none ∨ i.implicitOperand = some x) :
    decode x ((encode i).getD 0 0#16) ((encode i).getD 1 0#16) = .ok i := by
  cases i with
  | compile y => obtain h | h := hx <;> cases h; rfl
  | run y => obtain h | h := hx <;> cases h; rfl
  | _ => rfl

/-! ### Cells as bytes (20_memory.md R57) -/

theorem wordBytes_joinBytes (lo hi : Byte) : wordBytes (joinBytes lo hi) = [lo, hi] := by simp [wordBytes]

/-- On the bytes of one instruction `decodeBytes` is `decode` on its cells; where the format has no inline operand,
`decode` is given 0. -/
theorem decodeBytes_cells {fmt : Format} {op inl : Word} (x : Addr) (rest : List Byte) (hf : formatOf op = some fmt)
    (h0 : fmt = .t0 → inl = 0#16) :
    decodeBytes x ((fmt.cells op inl).flatMap wordBytes ++ rest) = (decode x op inl).map (·, rest) := by
  cases fmt with
  | t0 => simp [Format.cells, wordBytes, decodeBytes, joinBytes_lo_hi, hf, h0]
  | t1 => simp [Format.cells, wordBytes, decodeBytes, joinBytes_lo_hi, hf]
  | t2 => simp [Format.cells, wordBytes, decodeBytes, joinBytes_lo_hi, hf]

theorem map_pair_eq_ok {e : Except Reject Instr} {rest rest' : List Byte} {i : Instr}
    (h : e.map (·, rest) = .ok (i, rest')) : e = .ok i ∧ rest = rest' := by
  cases e with
  | error r => cases h
  | ok j => cases h; exact ⟨rfl, rfl⟩

/-- Bytes that `decodeBytes` accepts are the cells of one instruction, which `decode` accepts, and the rest. -/
theorem cells_of_decodeBytes {x : Addr} {bs rest : List Byte} {i : Instr} (h : decodeBytes x bs = .ok (i, rest)) :
    ∃ fmt op inl, formatOf op = some fmt ∧ decode x op inl = .ok i ∧
      bs = (fmt.cells op inl).flatMap wordBytes ++ rest := by
  unfold decodeBytes at h
  split at h
  case h_2 => cases h
  case h_1 lo hi tail =>
    dsimp only at h
    split at h
    case h_1 => cases h
    case h_2 hf =>
      obtain ⟨hd, rfl⟩ := map_pair_eq_ok h
      exact ⟨_, _, _, hf, hd, by simp [Format.cells, wordBytes_joinBytes]⟩
    case h_3 fmt hf0 hf =>
      split at h
      case h_2 => cases h
      case h_1 lo' hi' tail' =>
        obtain ⟨hd, rfl⟩ := map_pair_eq_ok h
        refine ⟨_, _, _, hf, hd, ?_⟩
        cases fmt with
        | t0 => exact absurd rfl hf0
        | t1 => simp [Format.cells, wordBytes_joinBytes]
        | t2 => simp [Format.cells, wordBytes_joinBytes]

theorem decodeBytes_encodeBytes {x : Addr} {i : Instr} (rest : List Byte)
    (hx : i.implicitOperand = none ∨ i.implicitOperand = some x) :
    decodeBytes x (encodeBytes i ++ rest) = .ok (i, rest) := by
  have hd := decode_encode hx
  obtain ⟨fmt, hf, hc⟩ := Option.map_eq_some_iff.mp (cells_of_decode hd)
  have h0 : fmt = .t0 → (encode i).getD 1 0#16 = 0#16 := by
    rintro rfl
    rw [← hc]
    rfl
  rw [encodeBytes, ← hc, decodeBytes_cells x rest hf h0, hd]
  rfl

theorem encodeBytes_of_decodeBytes {x : Addr} {bs rest : List Byte} {i : Instr}
    (h : decodeBytes x bs = .ok (i, rest)) :
    bs = encodeBytes i ++ rest ∧ (i.implicitOperand = none ∨ i.implicitOperand = some x) := by
  obtain ⟨fmt, op, inl, hf, hd, rfl⟩ := cells_of_decodeBytes h
  have hc : fmt.cells op inl = encode i := by simpa [hf] using cells_of_decode hd
  exact ⟨by rw [hc, encodeBytes], implicitOperand_of_decode hd⟩

/-- Settles O1: bytes are cells, and `decode` and `encode` agree on the two cells of an instruction. -/
theorem decodeAndEncodeAgree : Obligations.DecodeAndEncodeAgree :=
  ⟨fun _ _ rest hx => decodeBytes_encodeBytes rest hx, fun _ _ _ _ h => encodeBytes_of_decodeBytes h⟩

/-- Settles O3, by running the decoder on each of the nine byte strings. -/
theorem opcodeMapWordsDecode : Obligations.OpcodeMapWordsDecode := by
  unfold Obligations.OpcodeMapWordsDecode
  decide

end Sys2Proof

/-! SUPPORT. Where each opcode that completes leaves `S` (30_encoding.md R75, 10_state.md R24). Settles O44. -/

namespace Sys2Proof.Machine

/-- A pop moves `S` by the minus one of the stack effect column. -/
theorem State.popped_S_eq_add (s : State) : s.popped.S = s.S + -1#15 := BitVec.sub_eq_add_neg _ _

theorem binary_S {op : Word → Word → Word} {s t : State} (h : binary op s = .next t) : t.S = s.S + -1#15 := by
  obtain ⟨-, rfl⟩ := binary_next h
  exact s.popped_S_eq_add

theorem blockOp_S {mode : BlockMode} {s t : State} (h : blockOp mode s = .next t) : t.S = s.S + -1#15 := by
  obtain ⟨-, rfl⟩ := blockOp_next h
  rw [State.setF_S, blockIO_S, State.popped_S_eq_add]

theorem execStore_S {s t : State} (h : execStore s = .next t) : t.S = s.S + -2#15 := by
  obtain ⟨-, -, rfl⟩ := execStore_next h
  rw [State.setF_S, State.popped_S_eq_add, State.setCell_S, State.popped_S_eq_add, BitVec.add_assoc]
  rfl

/-- Of the opcodes whose stack effect is fixed, each moves `S` by it (Laws/Meanings.lean). -/
theorem exec_S {i : Instr} {s t : State} (hi : i ≠ .read) (h : exec i s = .next t) :
    t.S = s.S + (stackMove i).getD 0#15 := by
  have unmoved : s.S = s.S + 0#15 := (BitVec.add_zero _).symm
  cases i with
  | push lit => obtain ⟨-, rfl⟩ := execPush_next h; rfl
  | compile x => obtain ⟨-, rfl⟩ | ⟨-, rfl⟩ := execCompile_next h <;> exact unmoved
  | run x => obtain ⟨-, rfl⟩ := execRun_next h; exact unmoved
  | exit => obtain ⟨-, rfl⟩ := execExit_next h; exact unmoved
  | sub => exact binary_S h
  | add => exact binary_S h
  | mul => exact binary_S h
  | div => obtain ⟨-, ⟨-, rfl⟩ | ⟨-, rfl⟩⟩ := execDiv_next h <;> exact s.popped_S_eq_add
  | uless => obtain ⟨-, rfl⟩ := execUless_next h; exact s.popped_S_eq_add
  | equal => obtain ⟨-, rfl⟩ := execEqual_next h; exact s.popped_S_eq_add
  | load => obtain rfl := execLoad_next h; exact unmoved
  | store => exact execStore_S h
  | swap => obtain ⟨-, rfl⟩ := execSwap_next h; exact unmoved
  | dup => obtain ⟨-, rfl⟩ := execDup_next h; rfl
  | drop => obtain ⟨-, rfl⟩ := execDrop_next h; exact s.popped_S_eq_add
  | tor => obtain ⟨-, -, rfl⟩ := execTor_next h; exact s.popped_S_eq_add
  | fromr => obtain ⟨-, -, rfl⟩ := execFromr_next h; rfl
  | jmp off => obtain rfl := execJmp_next h; exact unmoved
  | jmpz off => obtain ⟨-, ⟨-, rfl⟩ | ⟨-, rfl⟩⟩ := execJmpz_next h <;> exact s.popped_S_eq_add
  | pnum => obtain ⟨-, rfl⟩ := execPnum_next h; exact s.popped_S_eq_add
  | emit => obtain ⟨-, rfl⟩ := execEmit_next h; exact s.popped_S_eq_add
  | key => obtain ⟨-, rfl⟩ := execKey_next h; rfl
  | define =>
    obtain ⟨rest, -, rfl⟩ | ⟨tok, rest, -, rfl⟩ := execDefine_next h
    · exact unmoved
    · rw [State.append_S, State.append_S, makeEntry_S]; exact unmoved
  | immediate => obtain rfl := execImmediate_next h; exact unmoved
  | comment => obtain rfl := execComment_next h; exact unmoved
  | comma => obtain ⟨-, rfl⟩ := execComma_next h; exact s.popped_S_eq_add
  | bsave => exact blockOp_S h
  | bload => exact blockOp_S h
  | read => exact absurd rfl hi

@[simp] theorem tokenStored_S (tok : List Byte) (rest : List InputSlot) (s : State) :
    (tokenStored tok rest s).S = s.S := by simp [tokenStored]

theorem execRead_S {s t : State} (h : execRead s = .next t) : t.S = s.S ∨ t.S = s.S + 1#15 := by
  obtain ⟨-, ⟨rest, -, rfl⟩ | ⟨tok, rest, -, ⟨w, -, -, rfl⟩ | ⟨-, rfl | ⟨n, ⟨-, -, rfl⟩ | ⟨-, rfl⟩⟩⟩⟩⟩ :=
    execRead_next h
  · exact .inl rfl
  · exact .inl (tokenStored_S tok rest s)
  · exact .inl (tokenStored_S tok rest s)
  · exact .inr (congrArg (· + 1#15) (tokenStored_S tok rest s))
  · exact .inl (tokenStored_S tok rest s)

/-- Settles O44: the opcode map's stack effects are where the meanings leave `S`; READ pushes a number or nothing. -/
theorem stackPointerMovesByStackEffect : Obligations.StackPointerMovesByStackEffect := by
  intro i s t h
  refine ⟨fun d hd => ?fixed, ?read⟩
  case fixed =>
    have hi : i ≠ .read := by rintro rfl; cases hd
    simpa [hd] using exec_S hi h
  case read =>
    rintro rfl
    exact execRead_S h

end Sys2Proof.Machine

/-! SUPPORT. The running step from the token it takes, and the threading opcodes PUSH, COMPILE, RUN and EXIT
(40_threading.md). Settles O4, O5, O6, O7 and O8. -/

namespace Sys2Proof.Machine

/-! ### The step (40_threading.md R80 to R82) -/

/-- A known opcode cell decodes with the address after it as `x` and the cell at `I` as the inline operand
(30_encoding.md R68, R69). -/
theorem decodeAt_of_cell {xt : Addr} {s : State} {op : Word} (h : s.cell xt = op) :
    decodeAt xt s = decode (xt + 1#15) op (s.cell s.I) := h ▸ rfl

section Fetched

variable {s u : State} {xt : Addr} (hr : s.mode = .running) (hf : fetchToken s = (xt, u))
include hr hf

theorem step_of_decodeAt {i : Instr} (hd : decodeAt xt u = .ok i) : step s = exec i u := by
  rw [step_running hr, stepRunning_ok (i := i) (by rwa [hf]), hf]

theorem step_of_unknownOpcode (h : 29 ≤ (u.cell xt).toNat) :
    step s = .next (u.fatal (.unknownOpcode (u.cell xt) xt)) := by
  have hd : decodeAt xt u = .error (.unknownOpcode (u.cell xt)) := decode_unknown _ _ h
  rw [step_running hr, stepRunning_error (e := .unknownOpcode (u.cell xt)) (by rwa [hf]), hf]

end Fetched

/-- A run called on an invalidated engine is refused with status 1 (70_reset_and_hazards.md R154). -/
theorem beginRun_of_invalid {s : State} (h : s.INVALID = true) : beginRun s = s.reply (.runStatus 1#16) := if_pos h

theorem step_of_call {s : State} {c : HostCall} {rest : List HostCall} (hi : s.mode = .idle)
    (hc : s.calls = c :: rest) : step s = serveCall c { s with calls := rest } := by
  rw [step_idle hi, serveHost, hc]

/-- Settles O4: the two clauses are the two ways a token is fetched. -/
theorem runningStepPerformsDecodedOpcode : Obligations.RunningStepPerformsDecodedOpcode :=
  ⟨fun _ _ _ hr hn hd => step_of_decodeAt hr (fetchToken_some hn) hd,
    fun _ _ hr hn hd => step_of_decodeAt hr (fetchToken_none hn) hd⟩

/-- Settles O5: an opcode cell of 29 or more is unknown however the token is fetched, and a later run is refused. -/
theorem unknownOpcodeInvalidatesEngine : Obligations.UnknownOpcodeInvalidatesEngine := by
  refine ⟨fun s xt hr hn h => ?latch, fun s hr hn h => ?fetch, fun s rest hi hv hc => ?laterRun⟩
  case latch => exact step_of_unknownOpcode (u := { s with NXT := none }) hr (fetchToken_some hn) h
  case fetch => exact step_of_unknownOpcode (u := s.setI (s.I + 1#15)) hr (fetchToken_none hn) h
  case laterRun =>
    rw [step_of_call hi hc]
    exact congrArg _ (beginRun_of_invalid (s := { s with calls := rest }) hv)

/-! ### The threading opcodes (40_threading.md R83 to R86) -/

/-- Settles O6: PUSH is one push from the state past the inline cell. -/
theorem pushPushesInlineLiteral : Obligations.PushPushesInlineLiteral := by
  refine ⟨fun _ => rfl, fun _ _ h => decodeAt_of_cell h, fun lit s hw => ⟨fun hp => ?room, exec_push_fault lit⟩⟩
  case room =>
    have hcell := State.pushed_cell (s := skipInline s) hw lit
    exact ⟨_, exec_push lit hp, rfl, rfl, rfl, hcell, rfl⟩

/-- Settles O7: COMPILE is a dispatch or one append, by the cell `STATE`. -/
theorem compileExecutesOrAppends : Obligations.CompileExecutesOrAppends := by
  refine ⟨fun _ => rfl, fun _ _ h => decodeAt_of_cell h, fun x s hw =>
    ⟨exec_compile_interpreting x, fun hs => ?compiling⟩⟩
  case compiling => exact ⟨_, exec_compile_compiling x hs, State.append_cell hw (zext x), rfl⟩

/-- Settles O8: RUN is one return-stack push and EXIT one return-stack pop, each before `I` is set. -/
theorem runCallsAndExitReturns : Obligations.RunCallsAndExitReturns := by
  refine ⟨fun _ => rfl, rfl, fun _ _ h => decodeAt_of_cell h, fun s hw => ⟨fun x hp => ?run, exec_run_fault,
    fun hp => ?exit, exec_exit_fault⟩⟩
  case run => exact ⟨_, exec_run x hp, rfl, State.rpushed_cell hw (zext s.I), rfl⟩
  case exit => exact ⟨_, exec_exit hp, rfl, State.rpopped_cell hw, rfl⟩

end Sys2Proof.Machine

/-! SUPPORT. The binary opcodes SUB, ADD, MUL, DIV, ULESS and EQUAL (41_arith.md R88 to R93). Settles O9, O10 and
O11. -/

namespace Sys2Proof.Machine

/-! ### The values a binary opcode leaves -/

theorem truthCell_unsignedLess (a b : Word) :
    truthCell (unsignedLess a b) = if a.toNat < b.toNat then 1#16 else 0#16 := by simp [truthCell, unsignedLess]

theorem truthCell_sameCell (a b : Word) : truthCell (sameCell a b) = if a = b then 1#16 else 0#16 := by
  simp [truthCell, sameCell]

/-- Subtraction of cells is subtraction modulo 65536 (41_arith.md R88). -/
theorem word_sub_toNat (a b : Word) : (a - b).toNat = (a.toNat + 65536 - b.toNat) % 65536 := by
  have hb : b.toNat < 65536 := b.isLt
  rw [BitVec.toNat_sub]
  omega

/-! ### The opcodes -/

/-- Settles O9: each is one pop, and cell arithmetic is arithmetic modulo 65536. -/
theorem subAddMulLeaveWrappedResult : Obligations.SubAddMulLeaveWrappedResult := by
  refine ⟨rfl, rfl, rfl, fun s => ⟨fun hp => ⟨?sub, ?add, ?mul⟩, fun hp => ?fault⟩⟩
  case sub => exact ⟨_, exec_sub hp, word_sub_toNat s.second s.f⟩
  case add => exact ⟨_, exec_add hp, BitVec.toNat_add s.second s.f⟩
  case mul => exact ⟨_, exec_mul hp, BitVec.toNat_mul s.second s.f⟩
  case fault => exact ⟨exec_sub_fault hp, exec_add_fault hp, exec_mul_fault hp⟩

/-- Settles O10: the pop comes first, then the divisor decides between the quotient and the diagnostic. -/
theorem divTruncatesOrDiagnosesZero : Obligations.DivTruncatesOrDiagnosesZero := by
  refine ⟨rfl, fun s => ⟨fun hp hf => ?quotient, exec_div_zero, exec_div_fault⟩⟩
  case quotient => exact ⟨_, exec_div hp hf, BitVec.toNat_udiv⟩

/-- Settles O11: the truth cell of a comparison is 1 where it holds and 0 elsewhere. -/
theorem comparisonsLeaveZeroOrOne : Obligations.ComparisonsLeaveZeroOrOne := by
  refine ⟨rfl, rfl, fun s => ⟨fun hp => ⟨?uless, ?equal⟩, fun hp => ⟨exec_uless_fault hp, exec_equal_fault hp⟩⟩⟩
  case uless => rw [exec_uless hp, truthCell_unsignedLess]; rfl
  case equal => rw [exec_equal hp, truthCell_sameCell]; rfl

end Sys2Proof.Machine

/-! SUPPORT. LOAD, STORE, the stack shuffles and the transfers between the stacks (42_memory_stack.md R94 to R103), and
the opcodes that store nothing. Settles O12, O13, O14, O15 and O38. -/

namespace Sys2Proof.Machine

/-! ### Opcodes that store nothing -/

theorem SameArena.of_mem_eq {s t : State} (h : t.mem = s.mem) : SameArena s t := fun _ => by rw [h]

theorem binary_mem {op : Word → Word → Word} {s t : State} (h : binary op s = .next t) : t.mem = s.mem := by
  obtain ⟨-, rfl⟩ := binary_next h
  rfl

/-- A write request reads the arena and does not write it (46_block.md R127). -/
theorem blockIO_write_mem (off id : Word) (s : State) : (blockIO off id .write s).2.mem = s.mem := by
  rcases blockIO_cases off id .write s with e | ⟨-, -, e⟩ | ⟨-, hm, -⟩
  · rw [e, State.diag_mem]
  · rcases blockWrite_cases off id s with ⟨_, _, e'⟩ | ⟨_, _, _, e'⟩ <;> rw [e, e']
  · cases hm

/-- Settles O38: none of these opcodes completes in a state made with a cell write, a push or an append. -/
theorem nonStoringOpcodesKeepEveryByte : Obligations.NonStoringOpcodesKeepEveryByte := by
  intro i s t h hi
  apply SameArena.of_mem_eq
  rcases hi with (rfl | rfl | rfl | rfl | rfl | rfl | rfl | rfl | ⟨off, rfl⟩ | ⟨off, rfl⟩ | rfl | rfl | rfl | rfl) |
    ⟨⟨x, rfl⟩, hs⟩
  · exact binary_mem (op := fun a b => a - b) h
  · exact binary_mem (op := fun a b => a + b) h
  · exact binary_mem (op := fun a b => a * b) h
  · obtain ⟨-, ⟨-, rfl⟩ | ⟨-, rfl⟩⟩ := execDiv_next h <;> rfl
  · obtain ⟨-, rfl⟩ := execUless_next h; rfl
  · obtain ⟨-, rfl⟩ := execEqual_next h; rfl
  · obtain rfl := execLoad_next h; rfl
  · obtain ⟨-, rfl⟩ := execDrop_next h; rfl
  · obtain rfl := execJmp_next h; rfl
  · obtain ⟨-, ⟨-, rfl⟩ | ⟨-, rfl⟩⟩ := execJmpz_next h <;> rfl
  · obtain ⟨-, rfl⟩ := execPnum_next h; rfl
  · obtain ⟨-, rfl⟩ := execEmit_next h; rfl
  · obtain rfl := execComment_next h; rfl
  · obtain ⟨-, rfl⟩ := execBsave_next h
    rw [State.setF_mem, blockIO_write_mem, State.popped_mem]
  · obtain ⟨-, rfl⟩ | ⟨hc, -⟩ := execCompile_next h
    · rfl
    · exact absurd hs hc

/-! ### LOAD and STORE (42_memory_stack.md R95, R96) -/

/-- `mask` is the remainder modulo 32768 as an address (20_memory.md R50). -/
theorem mask_eq_ofNat (v : Word) : mask v = BitVec.ofNat 15 (v.toNat % 32768) :=
  BitVec.eq_of_toNat_eq (by simp [mask_toNat])

/-- Settles O12: LOAD has no condition, and the address it reads is `f` modulo 32768. -/
theorem loadReadsMaskedCell : Obligations.LoadReadsMaskedCell := by
  refine ⟨rfl, fun s => ?_⟩
  rw [exec_load, absoluteAddr, mask_eq_ofNat]
  rfl

/-- After one pop a second pop is defined exactly where `S - 1` is still above the floor: a pop cannot pass the top. -/
theorem State.popped_canPop_iff {s : State} (h : s.CanPop) : s.popped.CanPop ↔ 31744 < (s.S - 1#15).toNat :=
  and_iff_left (State.popped_S_range h).2

/-- Settles O13: the second pop reads the cell at `S - 1` of the state the write has left. -/
theorem storeWritesBetweenPops : Obligations.StoreWritesBetweenPops := by
  refine ⟨rfl, fun s hw => ⟨fun hp hd => ?depth, fun hn => exec_store_fault fun ⟨hp, hq⟩ => ?fault⟩⟩
  case depth =>
    have hcell (a : Addr) := State.setCell_cell (s := s.popped) hw (absoluteAddr s) a s.second
    have hS : s.S - 1#15 - 1#15 = s.S - 2#15 := by bv_omega
    exact ⟨_, exec_store hp ((State.popped_canPop_iff hp).mpr hd), hS, hcell (s.S - 1#15), hcell, rfl⟩
  case fault => exact hn ⟨hp, (State.popped_canPop_iff hp).mp hq⟩

/-! ### SWAP, DUP and DROP (42_memory_stack.md R98 to R100) -/

/-- Settles O14: SWAP is one cell write at `S`, DUP one push of `f` and DROP one pop. -/
theorem shufflesExchangeDuplicateDrop : Obligations.ShufflesExchangeDuplicateDrop := by
  refine ⟨rfl, rfl, rfl, fun s hw => ⟨fun hp => ?swap, fun hp => ?dup, exec_drop,
    fun hp => ⟨exec_swap_fault hp, exec_drop_fault hp⟩, exec_dup_fault⟩⟩
  case swap => exact ⟨_, exec_swap hp, rfl, (State.setCell_cell hw s.S · s.f), rfl⟩
  case dup => exact ⟨_, exec_dup hp, rfl, rfl, State.pushed_cell hw s.f, rfl⟩

/-! ### TOR and FROMR (42_memory_stack.md R102, R103) -/

/-- A return-stack push leaves the cell at `S`: it writes above the data stack's region, and cell 1 below it. -/
theorem State.rpushed_second {s : State} (hw : s.mem.wf = true) (hr : s.CanRPush) (hp : s.CanPop) (v : Word) :
    (s.rpushed v).second = s.second := by
  obtain ⟨hrlo, hrhi⟩ : 32256 ≤ s.RSP.toNat ∧ s.RSP.toNat < 32767 := hr
  obtain ⟨hplo, hphi⟩ : 31744 < s.S.toNat ∧ s.S.toNat ≤ 32255 := hp
  have hslot : s.S ≠ mask (s.RSP + 1#16) := fun e => by
    have hS := congrArg BitVec.toNat e
    rw [mask_toNat, BitVec.toNat_add] at hS
    simp only [BitVec.toNat_ofNat] at hS
    omega
  have hrsp : s.S ≠ rspCell := fun e => by
    rw [e] at hplo
    exact absurd hplo (by decide)
  exact (State.rpushed_cell hw v s.S).trans ((if_neg hslot).trans (if_neg hrsp))

/-- Settles O15: the return-stack half comes first, and the data-stack half finds its cell and its bound unchanged. -/
theorem transfersMoveTopBetweenStacks : Obligations.TransfersMoveTopBetweenStacks := by
  refine ⟨rfl, rfl, fun s hw => ⟨fun hr hp => ?tor, exec_tor_rfault, exec_tor_fault, fun hr hp => ?fromr,
    exec_fromr_rfault, exec_fromr_fault⟩⟩
  case tor => exact ⟨_, exec_tor hr hp, State.rpushed_second hw hr hp s.f, rfl, State.rpushed_cell hw s.f, rfl⟩
  case fromr =>
    have hcell (a : Addr) : (s.rpopped.pushed s.rtop).cell a =
        if a = s.S + 1#15 then s.f else if a = rspCell then s.RSP - 1#16 else s.cell a := by
      rw [State.pushed_cell (State.rpopped_wf hw), State.rpopped_cell hw]
      rfl
    exact ⟨_, exec_fromr hr hp, rfl, rfl, hcell, rfl⟩

end Sys2Proof.Machine

/-! SUPPORT. The relative jumps JMP and JMPZ (43_branch.md R105, R106). Settles O16. -/

namespace Sys2Proof.Machine

/-- A jump target is reduced modulo 32768 as a signed sum: below cell 0 it wraps to the top of the arena. -/
theorem jumpTarget_toNat (a : Addr) (off : Word) :
    ((jumpTarget a off).toNat : Int) = ((a.toNat : Int) + off.toInt) % 32768 := by
  rw [jumpTarget, BitVec.toNat_ofInt]
  exact Int.toNat_of_nonneg (Int.emod_nonneg _ (by decide))

/-- Settles O16: both jumps go to `jumpTarget`, and JMPZ is one pop with its test made on the `f` before it. -/
theorem jumpsAddSignedOffset : Obligations.JumpsAddSignedOffset := by
  refine ⟨fun _ => rfl, fun _ => rfl, fun _ _ h => decodeAt_of_cell h, fun _ _ h => decodeAt_of_cell h, fun off s =>
    ⟨?jmp, fun hp hf => ?taken, exec_jmpz_through off, exec_jmpz_fault off⟩⟩
  case jmp => exact ⟨_, exec_jmp off, jumpTarget_toNat s.I off⟩
  case taken => exact ⟨_, exec_jmpz_taken off hp hf, jumpTarget_toNat s.I off⟩

end Sys2Proof.Machine

/-! SUPPORT. The text of a number and its reading (44_char_io.md R109, 45_compiler.md R114). Settles O18. -/

namespace Sys2Proof.Machine

/-! ### One digit -/

theorem digitValue_digitChar {d : Nat} (h : d < 16) : digitValue (digitChar d) = some d := by
  revert d; decide

/-- The characters of the digits below sixteen are decimal digits and the letters `a` to `f`. -/
theorem digitChar_range {d : Nat} (h : d < 16) :
    (48 ≤ (digitChar d).toNat ∧ (digitChar d).toNat ≤ 57) ∨
      (97 ≤ (digitChar d).toNat ∧ (digitChar d).toNat ≤ 102) := by
  revert d; decide

theorem digitChar_ne_minus {d : Nat} (h : d < 16) : digitChar d ≠ 0x2D#8 := by
  revert d; decide

theorem digitChar_eq_zero {d : Nat} (h : d < 16) (e : digitChar d = 0x30#8) : d = 0 := by
  revert d; decide

/-! ### The value of digits -/

theorem digitsValue_cons (radix v : Nat) (c : Byte) (cs : List Byte) :
    digitsValue radix v (c :: cs) =
      (digitValue c).bind fun d => if d < radix then digitsValue radix (v * radix + d) cs else none := by
  rw [digitsValue]
  cases digitValue c <;> rfl

theorem parseDigits_cons (radix : Nat) (v : Word) (c : Byte) (cs : List Byte) :
    parseDigits radix v (c :: cs) = (digitValue c).bind fun d =>
      if d < radix then parseDigits radix (v * BitVec.ofNat 16 radix + BitVec.ofNat 16 d) cs else none := by
  rw [parseDigits]
  cases digitValue c <;> rfl

theorem digitsValue_append (radix v : Nat) (xs ys : List Byte) :
    digitsValue radix v (xs ++ ys) = (digitsValue radix v xs).bind (digitsValue radix · ys) := by
  induction xs generalizing v with
  | nil => rfl
  | cons c cs ih =>
    rw [List.cons_append, digitsValue_cons, digitsValue_cons, Option.bind_assoc]
    congr 1
    funext d
    by_cases hd : d < radix
    · rw [if_pos hd, if_pos hd]; exact ih _
    · rw [if_neg hd, if_neg hd]; rfl

theorem digitsValue_digitChar {radix d : Nat} (hr : radix ≤ 16) (h : d < radix) (v : Nat) :
    digitsValue radix v [digitChar d] = some (v * radix + d) := by
  rw [digitsValue_cons, digitValue_digitChar (h.trans_le hr), Option.bind_some, if_pos h]
  rfl

/-- The digit loop of the parser computes the exact value modulo 65536. -/
theorem parseDigits_eq (radix n : Nat) (cs : List Byte) :
    parseDigits radix (BitVec.ofNat 16 n) cs = (digitsValue radix n cs).map (BitVec.ofNat 16) := by
  induction cs generalizing n with
  | nil => rfl
  | cons c cs ih =>
    rw [parseDigits_cons, digitsValue_cons, Option.map_bind]
    congr 1
    funext d
    rw [Function.comp_apply, ← BitVec.ofNat_mul, ← BitVec.ofNat_add, ih]
    exact (apply_ite (Option.map (BitVec.ofNat 16)) (d < radix) _ none).symm

/-! ### The printed digits -/

/-- `ds` is the numeral of `n`: one digit, or the numeral of the quotient by the radix and then the remainder. -/
inductive Numeral (radix : Nat) : Nat → List Byte → Prop where
  | single {d : Nat} (hd : d < radix) : Numeral radix d [digitChar d]
  | snoc {n : Nat} {ds : List Byte} (hn : radix ≤ n) (h : Numeral radix (n / radix) ds) :
    Numeral radix n (ds ++ [digitChar (n % radix)])

/-- Where the fuel suffices, the printer prints the numeral. -/
theorem digitsOf_numeral {radix : Nat} (fuel : Nat) {n : Nat} (hn : n < radix ^ (fuel + 1)) :
    Numeral radix n (digitsOf radix fuel n) := by
  induction fuel generalizing n with
  | zero =>
    rw [Nat.zero_add, Nat.pow_one] at hn
    rw [digitsOf, Nat.mod_eq_of_lt hn]
    exact .single hn
  | succ fuel ih =>
    rw [digitsOf]
    split
    · next hlt => exact .single hlt
    · next hge => exact .snoc (Nat.le_of_not_lt hge) (ih (Nat.div_lt_of_lt_mul (Nat.pow_succ' ▸ hn)))

section Numeral

variable {radix n : Nat} {ds : List Byte} (h0 : 0 < radix) (h : Numeral radix n ds)
include h0 h

/-- The first digit of a numeral is 0 only for the number 0. -/
theorem Numeral.eq_cons : ∃ d cs, ds = digitChar d :: cs ∧ d < radix ∧ (d = 0 → n = 0) := by
  induction h with
  | single hd => exact ⟨_, [], rfl, hd, id⟩
  | snoc hn _ ih =>
    obtain ⟨d, cs, rfl, hd, hz⟩ := ih
    exact ⟨d, _, rfl, hd, fun hd0 => absurd (hz hd0) (Nat.div_pos hn h0).ne'⟩

theorem Numeral.exists_digit_of_mem {c : Byte} (hc : c ∈ ds) : ∃ d < radix, c = digitChar d := by
  induction h with
  | single hd => exact ⟨_, hd, List.mem_singleton.mp hc⟩
  | snoc hn _ ih =>
    obtain hc | hc := List.mem_append.mp hc
    · exact ih hc
    · exact ⟨_, Nat.mod_lt _ h0, List.mem_singleton.mp hc⟩

theorem Numeral.digitsValue_eq (hr : radix ≤ 16) : digitsValue radix 0 ds = some n := by
  induction h with
  | single hd => rw [digitsValue_digitChar hr hd, Nat.zero_mul, Nat.zero_add]
  | snoc hn _ ih =>
    rw [digitsValue_append, ih, Option.bind_some, digitsValue_digitChar hr (Nat.mod_lt _ h0), Nat.div_add_mod']

end Numeral

/-! ### The parser on digits (45_compiler.md R114) -/

theorem parseUnsigned_of_ne_nil (radix : Nat) {cs : List Byte} (h : cs ≠ []) :
    parseUnsigned radix cs = (digitsValue radix 0 cs).map (BitVec.ofNat 16) := by
  cases cs with
  | nil => exact absurd rfl h
  | cons c cs => exact parseDigits_eq radix 0 (c :: cs)

theorem parseNum_minus (radix : Nat) (cs : List Byte) :
    parseNum (0x2D#8 :: cs) radix = (parseUnsigned radix cs).map (0#16 - ·) := rfl

theorem parseNum_cons {c : Byte} (h : c ≠ 0x2D#8) (radix : Nat) (cs : List Byte) :
    parseNum (c :: cs) radix = parseUnsigned radix (c :: cs) := if_neg h

/-- Settles O18: the printed text is the cell's numeral, and the parser gives the value of digits modulo 65536. -/
theorem printedNumbersReadBack : Obligations.PrintedNumbersReadBack := by
  intro radix hradix v
  obtain ⟨h0, h16, hv⟩ : 0 < radix ∧ radix ≤ 16 ∧ v.toNat < radix ^ (4 + 1) := by
    obtain rfl | rfl := hradix <;> exact ⟨by decide, by decide, by omega⟩
  have hnum : Numeral radix v.toNat (numberText radix v) := digitsOf_numeral 4 hv
  have hvalue := hnum.digitsValue_eq h0 h16
  obtain ⟨d, cs, htext, hd, hzero⟩ := hnum.eq_cons h0
  have hd16 : d < 16 := hd.trans_le h16
  have hparse : parseUnsigned radix (numberText radix v) = some v := by
    rw [parseUnsigned_of_ne_nil radix (by simp [htext]), hvalue, Option.map_some, BitVec.ofNat_toNat,
      BitVec.setWidth_eq]
  refine ⟨?plain, ?negated, hvalue, fun c hc => ?characters, fun hne hhead => ?noLeadingZero, ?zero⟩
  case plain => rw [htext, parseNum_cons (digitChar_ne_minus hd16), ← htext, hparse]
  case negated => rw [parseNum_minus, hparse, Option.map_some]
  case characters =>
    obtain ⟨e, he, rfl⟩ := hnum.exists_digit_of_mem h0 hc
    exact digitChar_range (he.trans_le h16)
  case noLeadingZero =>
    rw [htext, List.head?_cons, Option.some_inj] at hhead
    exact hne (BitVec.eq_of_toNat_eq (hzero (digitChar_eq_zero hd16 hhead)))
  case zero => exact if_pos h0

end Sys2Proof.Machine

/-! SUPPORT. When input bytes arrive makes no difference (44_char_io.md R107, 60_exceptions.md R149): every shared
operation gives with the waits taken out of the input what it gives with them in it. Settles O51. -/

namespace Sys2Proof.Machine

/-! ### The state and the outcome without waits -/

/-- The state with the waits taken out of its input. -/
def State.withoutWaits (s : State) : State := s.setInput (dropWaits s.input)

@[simp] theorem State.withoutWaits_mem (s : State) : s.withoutWaits.mem = s.mem := rfl
@[simp] theorem State.withoutWaits_f (s : State) : s.withoutWaits.f = s.f := rfl
@[simp] theorem State.withoutWaits_radix (s : State) : s.withoutWaits.radix = s.radix := rfl
@[simp] theorem State.withoutWaits_STATE (s : State) : s.withoutWaits.STATE = s.STATE := rfl
@[simp] theorem State.withoutWaits_STRP (s : State) : s.withoutWaits.STRP = s.STRP := rfl
@[simp] theorem State.withoutWaits_store (s : State) : s.withoutWaits.store = s.store := rfl
@[simp] theorem State.withoutWaits_writeAnswers (s : State) : s.withoutWaits.writeAnswers = s.writeAnswers := rfl
@[simp] theorem State.withoutWaits_draws (s : State) : s.withoutWaits.draws = s.draws := rfl

@[simp] theorem State.withoutWaits_setInput (s : State) (inp : List InputSlot) :
    s.withoutWaits.setInput (dropWaits inp) = (s.setInput inp).withoutWaits := rfl
@[simp] theorem State.withoutWaits_setCell (s : State) (a : Addr) (v : Word) :
    s.withoutWaits.setCell a v = (s.setCell a v).withoutWaits := rfl
@[simp] theorem State.withoutWaits_append (s : State) (v : Word) :
    s.withoutWaits.append v = (s.append v).withoutWaits := rfl
@[simp] theorem State.withoutWaits_diag (s : State) (d : Diag) :
    s.withoutWaits.diag d = (s.diag d).withoutWaits := rfl

/-- The outcome with the waits taken out of the input of its next state. -/
def dropOutcomeWaits : Result → Result
  | .next t => .next t.withoutWaits
  | .fault r => .fault r
  | .refused r => .refused r

theorem dropOutcomeWaits_ite {c : Prop} [Decidable c] (r r' : Result) :
    dropOutcomeWaits (if c then r else r') = if c then dropOutcomeWaits r else dropOutcomeWaits r' :=
  apply_ite dropOutcomeWaits c r r'

/-! ### Operations that do not read the input -/

section Operations

variable (s : State)

theorem storeString_withoutWaits (a : Addr) (bs : List Byte) :
    storeString a bs s.withoutWaits = (storeString a bs s).withoutWaits := by
  induction bs generalizing a s with
  | nil => rfl
  | cons b bs ih => exact ih (s.setCell a (zextByte b)) (a + 1#15)

theorem makeEntry_withoutWaits (tok : List Byte) : makeEntry tok s.withoutWaits = (makeEntry tok s).withoutWaits := by
  simp only [makeEntry, State.withoutWaits_STRP, storeString_withoutWaits]
  generalize storeString (nameCell s.STRP) tok s = t
  rfl

theorem takeWriteAnswer_withoutWaits :
    takeWriteAnswer s.withoutWaits = ((takeWriteAnswer s).1, (takeWriteAnswer s).2.withoutWaits) := by
  unfold takeWriteAnswer
  rw [State.withoutWaits_writeAnswers]
  split <;> rfl

theorem blockWrite_withoutWaits (off id : Word) :
    blockWrite off id s.withoutWaits = ((blockWrite off id s).1, (blockWrite off id s).2.withoutWaits) := by
  simp only [blockWrite, takeWriteAnswer_withoutWaits]
  split <;> rfl

theorem blockRead_withoutWaits (off id : Word) :
    blockRead off id s.withoutWaits = ((blockRead off id s).1, (blockRead off id s).2.withoutWaits) := by
  unfold blockRead
  rw [State.withoutWaits_store, State.withoutWaits_mem, State.withoutWaits_draws]
  split
  · rfl
  · next data _ =>
    by_cases h : 1024 ≤ data.length
    · rw [if_pos h, if_pos h]; rfl
    · rw [if_neg h, if_neg h]
      -- keeps the 1024 byte writes from being run when the two states are compared
      generalize writeBytes s.mem off.toNat (shortReadBytes s.draws) = m
      rfl

theorem blockIO_withoutWaits (off id : Word) (mode : BlockMode) :
    blockIO off id mode s.withoutWaits = ((blockIO off id mode s).1, (blockIO off id mode s).2.withoutWaits) := by
  unfold blockIO
  rw [blockWrite_withoutWaits, blockRead_withoutWaits]
  cases mode with
  | write => simp only; split <;> rfl
  | read => simp only; split <;> rfl
  | other code => rfl

end Operations

/-! ### The stack primitives, from what the rest of the step does -/

section Primitives

variable (s : State)

theorem withPush_withoutWaits {v : Word} {k : State → Result}
    (hk : ∀ t : State, k t.withoutWaits = dropOutcomeWaits (k t)) :
    withPush v s.withoutWaits k = dropOutcomeWaits (withPush v s k) := by
  unfold withPush
  rw [dropOutcomeWaits_ite]
  exact if_congr Iff.rfl (hk (s.pushed v)) rfl

theorem withPop_withoutWaits {k : Word → State → Result}
    (hk : ∀ v (t : State), k v t.withoutWaits = dropOutcomeWaits (k v t)) :
    withPop s.withoutWaits k = dropOutcomeWaits (withPop s k) := by
  unfold withPop
  rw [dropOutcomeWaits_ite]
  exact if_congr Iff.rfl (hk s.second s.popped) rfl

theorem withRPush_withoutWaits {v : Word} {k : State → Result}
    (hk : ∀ t : State, k t.withoutWaits = dropOutcomeWaits (k t)) :
    withRPush v s.withoutWaits k = dropOutcomeWaits (withRPush v s k) := by
  unfold withRPush
  rw [dropOutcomeWaits_ite]
  exact if_congr Iff.rfl (hk (s.rpushed v)) rfl

theorem withRPop_withoutWaits {k : Word → State → Result}
    (hk : ∀ v (t : State), k v t.withoutWaits = dropOutcomeWaits (k v t)) :
    withRPop s.withoutWaits k = dropOutcomeWaits (withRPop s k) := by
  unfold withRPop
  rw [dropOutcomeWaits_ite]
  exact if_congr Iff.rfl (hk s.rtop s.rpopped) rfl

end Primitives

/-! ### The readers -/

theorem readChar_withoutWaits (s : State) :
    readChar s.withoutWaits.input = ((readChar s.input).1, dropWaits (readChar s.input).2) := readChar_dropWaits s.input

theorem readToken_withoutWaits (s : State) :
    readToken s.withoutWaits.input = ((readToken s.input).1, dropWaits (readToken s.input).2) :=
  readToken_dropWaits s.input

/-! ### The meanings that need more than the stack primitives -/

section Meanings

variable (s : State)

theorem binary_withoutWaits (op : Word → Word → Word) : binary op s.withoutWaits = dropOutcomeWaits (binary op s) :=
  withPop_withoutWaits s fun _ _ => rfl

theorem execCompile_withoutWaits (x : Addr) :
    execCompile x s.withoutWaits = dropOutcomeWaits (execCompile x s) := by
  unfold execCompile
  rw [dropOutcomeWaits_ite]
  rfl

theorem execDiv_withoutWaits : execDiv s.withoutWaits = dropOutcomeWaits (execDiv s) :=
  withPop_withoutWaits s fun _ _ => by
    rw [dropOutcomeWaits_ite]
    rfl

theorem execSwap_withoutWaits : execSwap s.withoutWaits = dropOutcomeWaits (execSwap s) := by
  unfold execSwap
  rw [dropOutcomeWaits_ite]
  rfl

theorem execJmpz_withoutWaits (off : Word) :
    execJmpz off s.withoutWaits = dropOutcomeWaits (execJmpz off s) := by
  by_cases hf : isZero s.f = true
  · rw [execJmpz, execJmpz, if_pos hf, if_pos (c := isZero s.withoutWaits.f = true) hf]
    exact withPop_withoutWaits (s.setI (jumpTarget s.I off)) fun _ _ => rfl
  · rw [execJmpz, execJmpz, if_neg hf, if_neg (c := isZero s.withoutWaits.f = true) hf]
    exact withPop_withoutWaits (skipInline s) fun _ _ => rfl

theorem execKey_withoutWaits : execKey s.withoutWaits = dropOutcomeWaits (execKey s) := by
  rw [execKey, readChar_withoutWaits]
  exact withPush_withoutWaits (s.setInput (readChar s.input).2) fun _ => rfl

theorem execComment_withoutWaits : execComment s.withoutWaits = dropOutcomeWaits (execComment s) :=
  congrArg (fun inp => Host.Outcome.next (s.setInput inp)) (skipLine_dropWaits s.input)

theorem execDefine_withoutWaits : execDefine s.withoutWaits = dropOutcomeWaits (execDefine s) := by
  have hread := readToken_withoutWaits s
  rcases e : readToken s.input with ⟨_ | tok, rest⟩ <;> rw [e] at hread
  · exact (exec_define_eof hread).trans (congrArg dropOutcomeWaits (exec_define_eof e)).symm
  · refine (exec_define hread).trans (.trans ?_ (congrArg dropOutcomeWaits (exec_define e)).symm)
    rw [State.withoutWaits_setCell, State.withoutWaits_setInput, makeEntry_withoutWaits, State.withoutWaits_append,
      State.withoutWaits_append]
    rfl

theorem blockOp_withoutWaits (mode : BlockMode) : blockOp mode s.withoutWaits = dropOutcomeWaits (blockOp mode s) :=
  withPop_withoutWaits s fun off t => by
    rw [State.withoutWaits_f, blockIO_withoutWaits]
    rfl

theorem readNumber_withoutWaits (tok : List Byte) :
    readNumber tok s.withoutWaits = dropOutcomeWaits (readNumber tok s) := by
  rw [readNumber, readNumber, State.withoutWaits_radix]
  split
  · rfl
  · rw [dropOutcomeWaits_ite, ← withPush_withoutWaits s fun _ => rfl, State.withoutWaits_STATE,
      State.withoutWaits_append, State.withoutWaits_append]
    rfl

theorem readWord_withoutWaits (tok : List Byte) :
    readWord tok s.withoutWaits = dropOutcomeWaits (readWord tok s) := by
  rw [readWord, readWord, storeString_withoutWaits]
  generalize storeString Config.tokBuf tok s = t
  rw [show find t.withoutWaits = find t from rfl]
  split
  · rfl
  · rw [dropOutcomeWaits_ite, ← readNumber_withoutWaits]
    rfl

theorem execRead_withoutWaits : execRead s.withoutWaits = dropOutcomeWaits (execRead s) := by
  refine withRPop_withoutWaits s fun _ t => ?_
  rw [readToken_withoutWaits]
  rcases readToken t.input with ⟨_ | tok, rest⟩
  · rfl
  · exact readWord_withoutWaits (t.setInput rest) tok

end Meanings

/-- Every opcode gives the same outcome with the waits taken out. -/
theorem exec_withoutWaits (i : Instr) (s : State) : exec i s.withoutWaits = dropOutcomeWaits (exec i s) := by
  cases i with dsimp only [exec]
  | push lit => exact withPush_withoutWaits (skipInline s) fun _ => rfl
  | compile x => exact execCompile_withoutWaits s x
  | run x => exact withRPush_withoutWaits s fun _ => rfl
  | exit => exact withRPop_withoutWaits s fun _ _ => rfl
  | sub => exact binary_withoutWaits s fun a b => a - b
  | add => exact binary_withoutWaits s fun a b => a + b
  | mul => exact binary_withoutWaits s fun a b => a * b
  | div => exact execDiv_withoutWaits s
  | uless => exact binary_withoutWaits s fun a b => truthCell (unsignedLess a b)
  | equal => exact binary_withoutWaits s fun a b => truthCell (sameCell a b)
  | load => rfl
  | store => exact withPop_withoutWaits s fun v t => withPop_withoutWaits (t.setCell (absoluteAddr s) v) fun _ _ => rfl
  | swap => exact execSwap_withoutWaits s
  | dup => exact withPush_withoutWaits s fun _ => rfl
  | drop => exact withPop_withoutWaits s fun _ _ => rfl
  | tor => exact withRPush_withoutWaits s fun t => withPop_withoutWaits t fun _ _ => rfl
  | fromr => exact withRPop_withoutWaits s fun _ t => withPush_withoutWaits t fun _ => rfl
  | jmp off => rfl
  | jmpz off => exact execJmpz_withoutWaits s off
  | pnum => exact withPop_withoutWaits (s.out _) fun _ _ => rfl
  | emit => exact withPop_withoutWaits (s.out _) fun _ _ => rfl
  | key => exact execKey_withoutWaits s
  | define => exact execDefine_withoutWaits s
  | immediate => rfl
  | comment => exact execComment_withoutWaits s
  | comma => exact withPop_withoutWaits (s.append s.f) fun _ _ => rfl
  | bsave => exact blockOp_withoutWaits s .write
  | bload => exact blockOp_withoutWaits s .read
  | read => exact execRead_withoutWaits s

/-- Settles O51: taking the waits out of the input commutes with every opcode. -/
theorem arrivalTimesMakeNoDifference : Obligations.ArrivalTimesMakeNoDifference := by
  intro i s
  exact ⟨fun t h => (exec_withoutWaits i s).trans (congrArg dropOutcomeWaits h),
    fun r h => (exec_withoutWaits i s).trans (congrArg dropOutcomeWaits h)⟩

end Sys2Proof.Machine

/-! SUPPORT. The character opcodes PNUM, EMIT and KEY (44_char_io.md R107 to R111). Settles O17 and O19. -/

namespace Sys2Proof.Machine

theorem loByte_eq_ofNat (v : Word) : loByte v = BitVec.ofNat 8 (v.toNat % 256) :=
  BitVec.eq_of_toNat_eq (by simp [loByte_eq_setWidth])

/-- Settles O17: each is one pop, from the state that has sent its bytes. -/
theorem pnumAndEmitSendAndPop : Obligations.PnumAndEmitSendAndPop := by
  refine ⟨rfl, rfl, fun s => ⟨fun hp => ⟨exec_pnum hp, ?emit⟩,
    fun hn => ⟨exec_pnum_fault hn, exec_emit_fault hn⟩⟩⟩
  case emit =>
    rw [← loByte_eq_ofNat]
    exact exec_emit hp

/-! ### ReadChar (44_char_io.md R107) -/

theorem readChar_of_streamBytes_nil {inp : List InputSlot} (h : streamBytes inp = []) : readChar inp = (none, []) := by
  induction inp with
  | nil => rfl
  | cons x r ih =>
    cases x with
    | byte b => cases h
    | wait => exact ih h

theorem readChar_of_streamBytes_cons {inp : List InputSlot} {b : Byte} {bs : List Byte}
    (h : streamBytes inp = b :: bs) : ∃ rest, readChar inp = (some b, rest) ∧ streamBytes rest = bs := by
  induction inp with
  | nil => cases h
  | cons x r ih =>
    cases x with
    | byte c => cases h; exact ⟨r, rfl, rfl⟩
    | wait => exact ih h

/-- Settles O19: KEY is one push of what `ReadChar` answers, from the state that has read it. -/
theorem keyPushesNextByteOrAllOnes : Obligations.KeyPushesNextByteOrAllOnes := by
  refine ⟨rfl, fun s hw => ⟨fun hp => ?room, exec_key_fault⟩⟩
  have hcell := State.pushed_cell (s := s.setInput (readChar s.input).2) hw (keyCell (readChar s.input).1)
  refine ⟨_, exec_key hp, rfl, hcell, fun hend => ?endOfStream, fun b bs hnext => ?nextByte, rfl⟩
  case endOfStream =>
    rw [readChar_of_streamBytes_nil hend]
    exact ⟨rfl, rfl⟩
  case nextByte =>
    obtain ⟨rest, hread, hrest⟩ := readChar_of_streamBytes_cons hnext
    rw [hread]
    exact ⟨rfl, hrest⟩

end Sys2Proof.Machine

/-! SUPPORT. The readers of the input channel, as what they take from the bytes of the stream: the token reader and
COMMENT (45_compiler.md R113, R122). Settles O21 and O28. -/

namespace Sys2Proof.Machine

/-! ### The token reader (45_compiler.md R113) -/

theorem isSpace_iff (b : Byte) : isSpace b = true ↔ b ∈ [0x20#8, 0x09#8, 0x0A#8, 0x0B#8, 0x0C#8, 0x0D#8] := by
  simp only [isSpace, Bool.or_eq_true, beq_iff_eq, List.mem_cons, List.not_mem_nil, or_false, or_assoc]

/-- The first loop of the token reader takes whitespace off the front. -/
theorem skipSpace_split (inp : List InputSlot) :
    ∃ ws, streamBytes inp = ws ++ streamBytes (skipSpace inp) ∧ ∀ b ∈ ws, isSpace b = true := by
  induction inp with
  | nil => exact ⟨[], rfl, by simp⟩
  | cons x r ih =>
    cases x with
    | wait => exact ih
    | byte b =>
      simp only [skipSpace]
      split
      · next hb =>
        obtain ⟨ws, hsplit, hws⟩ := ih
        exact ⟨b :: ws, congrArg (b :: ·) hsplit, List.forall_mem_cons.mpr ⟨hb, hws⟩⟩
      · exact ⟨[], rfl, by simp⟩

/-- The stream is at its end or at a whitespace byte. -/
def AtDelimiter (inp : List InputSlot) : Prop :=
  streamBytes inp = [] ∨ ∃ c cs, streamBytes inp = c :: cs ∧ isSpace c = true

/-- What the second loop of the token reader takes, and why it stops: its room is used up, or a delimiter follows. -/
structure TakenFrom (inp : List InputSlot) (room : Nat) (t : List Byte × List InputSlot) : Prop where
  split : streamBytes inp = t.1 ++ streamBytes t.2
  length_le : t.1.length ≤ room
  noSpace : ∀ b ∈ t.1, isSpace b = false
  stop : t.1.length = room ∨ AtDelimiter t.2

theorem takeToken_takenFrom (room : Nat) (inp : List InputSlot) : TakenFrom inp room (takeToken room inp) := by
  induction inp generalizing room with
  | nil => cases room <;> exact ⟨rfl, Nat.zero_le _, by simp [takeToken], .inr (.inl rfl)⟩
  | cons x r ih =>
    cases room with
    | zero => exact ⟨rfl, Nat.le_refl _, by simp [takeToken], .inl rfl⟩
    | succ room =>
      cases x with
      | wait => exact { ih (room + 1) with }
      | byte b =>
        simp only [takeToken]
        split
        · next hb => exact ⟨rfl, Nat.zero_le _, by simp, .inr (.inr ⟨b, _, rfl, hb⟩)⟩
        · next hb =>
          obtain ⟨hsplit, hlen, hns, hstop⟩ := ih room
          exact ⟨congrArg (b :: ·) hsplit, Nat.succ_le_succ hlen,
            List.forall_mem_cons.mpr ⟨by simpa using hb, hns⟩, hstop.imp_left (congrArg Nat.succ)⟩

/-- The token reader answers end of input where only whitespace is left, and otherwise a token and its delimiter. -/
theorem readToken_cases (inp : List InputSlot) :
    (skipSpace inp = [] ∧ readToken inp = (none, [])) ∨
    ∃ tok rest, readToken inp = (some tok, rest) ∧ 1 ≤ tok.length ∧ TakenFrom (skipSpace inp) 31 (tok, rest) := by
  obtain h | ⟨b, r, h, hb⟩ := skipSpace_head inp
  · exact .inl ⟨h, by rw [readToken, h]⟩
  · have htok : takeToken 31 (.byte b :: r) = (b :: (takeToken 30 r).1, (takeToken 30 r).2) := by
      simp only [takeToken, hb, Bool.false_eq_true, if_false]
    have htaken := takeToken_takenFrom 31 (.byte b :: r)
    rw [htok, ← h] at htaken
    exact .inr ⟨_, _, by rw [readToken, h]; simp only [htok], Nat.le_add_left 1 _, htaken⟩

theorem readToken_length_le {inp rest : List InputSlot} {tok : List Byte} (h : readToken inp = (some tok, rest)) :
    tok.length ≤ 31 := by
  obtain ⟨-, e⟩ | ⟨tok', rest', e, -, htaken⟩ := readToken_cases inp
  · cases e.symm.trans h
  · cases e.symm.trans h
    exact htaken.length_le

/-- Settles O21: the bytes before the token are what the first loop skips, the token what the second one takes. -/
theorem readTokenSplitsAtWhitespace : Obligations.ReadTokenSplitsAtWhitespace := by
  refine ⟨isSpace_iff, fun inp => ?_⟩
  obtain ⟨ws, hsplit, hws⟩ := skipSpace_split inp
  obtain ⟨hskip, e⟩ | ⟨tok, rest, e, hone, htaken⟩ := readToken_cases inp
  · refine ⟨fun rest h => ?endOfInput, fun tok rest h => (nomatch e.symm.trans h)⟩
    case endOfInput =>
      cases e.symm.trans h
      rw [hskip, streamBytes_nil, List.append_nil] at hsplit
      exact ⟨rfl, hsplit ▸ hws⟩
  · refine ⟨fun rest h => (nomatch e.symm.trans h), fun tok' rest' h => ?token⟩
    case token =>
      cases e.symm.trans h
      obtain ⟨htok, hlen, hns, hstop⟩ := htaken
      exact ⟨ws, by rw [hsplit, htok, List.append_assoc], hws, hone, hlen, hns, hstop⟩

/-! ### COMMENT (45_compiler.md R122) -/

theorem skipLine_of_not_mem {inp : List InputSlot} (h : 0x0A#8 ∉ streamBytes inp) : skipLine inp = [] := by
  induction inp with
  | nil => rfl
  | cons x r ih =>
    cases x with
    | wait => exact ih h
    | byte b =>
      obtain ⟨hb, hr⟩ := List.ne_and_not_mem_of_not_mem_cons h
      exact (if_neg (Ne.symm hb)).trans (ih hr)

theorem streamBytes_skipLine {inp : List InputSlot} {line rest : List Byte}
    (h : streamBytes inp = line ++ 0x0A#8 :: rest) (hl : 0x0A#8 ∉ line) : streamBytes (skipLine inp) = rest := by
  induction inp generalizing line with
  | nil => exact absurd h (by simp)
  | cons x r ih =>
    cases x with
    | wait => exact ih h hl
    | byte b =>
      cases line with
      | nil =>
        obtain ⟨rfl, rfl⟩ := List.cons.inj h
        rfl
      | cons c line =>
        obtain ⟨rfl, hr⟩ := List.cons.inj h
        obtain ⟨hb, hl⟩ := List.ne_and_not_mem_of_not_mem_cons hl
        exact (congrArg streamBytes (if_neg (Ne.symm hb))).trans (ih hr hl)

/-- Settles O28: COMMENT replaces the input by what the loop over the line leaves of it. -/
theorem commentConsumesThroughLineEnd : Obligations.CommentConsumesThroughLineEnd :=
  ⟨rfl, fun s => ⟨skipLine s.input, exec_comment, skipLine_of_not_mem, fun _ _ => streamBytes_skipLine⟩⟩

end Sys2Proof.Machine

/-! SUPPORT. The number parser on every token (45_compiler.md R114). Settles O22. -/

namespace Sys2Proof.Machine

theorem digitValue_eq_some_iff (c : Byte) (d : Nat) : digitValue c = some d ↔
    (48 ≤ c.toNat ∧ c.toNat ≤ 57 ∧ c.toNat = 48 + d) ∨ (97 ≤ c.toNat ∧ c.toNat ≤ 122 ∧ c.toNat = 87 + d) ∨
      (65 ≤ c.toNat ∧ c.toNat ≤ 90 ∧ c.toNat = 55 + d) := by
  simp only [digitValue]
  split_ifs <;> simp only [Option.some_inj, false_iff] <;> omega

/-- Zero minus a value, modulo 65536, is the value's negative. -/
theorem zero_sub_ofNat (v : Nat) : 0#16 - BitVec.ofNat 16 v = BitVec.ofInt 16 (-(v : Int)) := by
  rw [BitVec.zero_sub, BitVec.ofInt_neg, BitVec.ofInt_natCast]

theorem parseUnsigned_eq (radix : Nat) (ds : List Byte) :
    parseUnsigned radix ds = if ds = [] then none else (digitsValue radix 0 ds).map (BitVec.ofNat 16) := by
  split
  · next h => rw [h]; rfl
  · next h => exact parseUnsigned_of_ne_nil radix h

/-- Settles O22: without a leading minus the parser is the digit loop, with one it negates the digit loop's value. -/
theorem parseNumGivesValueModuloCell : Obligations.ParseNumGivesValueModuloCell := by
  refine ⟨digitValue_eq_some_iff, fun radix _ tok => ⟨fun hminus => ?plain, fun ds hds => ?negated⟩⟩
  case plain =>
    rw [← parseUnsigned_eq]
    cases tok with
    | nil => rfl
    | cons c cs => exact parseNum_cons (fun e => hminus (congrArg some e)) radix cs
  case negated =>
    rw [hds, parseNum_minus, parseUnsigned_eq]
    split
    · rfl
    · cases digitsValue radix 0 ds with
      | none => rfl
      | some v => exact congrArg some (zero_sub_ofNat v)

end Sys2Proof.Machine

/-! SUPPORT. The dictionary search: comparing two strings, following the links, and finding a new entry
(45_compiler.md R115 to R118). Settles O23, O24 and O25. -/

namespace Sys2Proof.Machine

/-! ### StrEq (45_compiler.md R116) -/

theorem addr_add_succ (a : Addr) (i : Nat) : a + BitVec.ofNat 15 (i + 1) = a + 1#15 + BitVec.ofNat 15 i := by
  rw [Nat.add_comm i 1, BitVec.ofNat_add, BitVec.add_assoc]

theorem strEq_succ (m : Memory) (fuel : Nat) (a b : Addr) : strEq m (fuel + 1) a b = true ↔
    cellRead m a = cellRead m b ∧ (cellRead m b ≠ 0#16 → strEq m fuel (a + 1#15) (b + 1#15) = true) := by
  simp only [strEq]
  by_cases hx : cellRead m a = cellRead m b
  · rw [if_pos hx, hx]
    by_cases h0 : cellRead m b = 0#16 <;> simp [h0]
  · simp [hx]

/-- A string that starts with a character ends one character after the rest of it. -/
theorem EndsAfter.of_succ {m : Memory} {a : Addr} {n : Nat} (h : EndsAfter m a (n + 1)) :
    cellRead m a ≠ 0#16 ∧ EndsAfter m (a + 1#15) n := by
  obtain ⟨hend, hchars⟩ := h
  refine ⟨by simpa using hchars 0 (Nat.succ_pos n), by rwa [addr_add_succ] at hend, fun i hi => ?_⟩
  rw [← addr_add_succ]
  exact hchars (i + 1) (Nat.succ_lt_succ hi)

/-- Settles O23: each comparison decides one cell, and the NUL of the second string is the last one. -/
theorem strEqComparesNulTerminatedStrings : Obligations.StrEqComparesNulTerminatedStrings := by
  intro m fuel a b n hn hb
  induction n generalizing fuel a b with
  | zero =>
    obtain ⟨fuel, rfl⟩ := Nat.exists_eq_add_one.mpr hn
    have h0 : cellRead m b = 0#16 := by simpa using hb.1
    simp [strEq_succ, h0]
  | succ n ih =>
    obtain ⟨fuel, rfl⟩ := Nat.exists_eq_add_one.mpr (Nat.zero_lt_of_lt hn)
    obtain ⟨hne, hrest⟩ := hb.of_succ
    rw [strEq_succ, forall_prop_of_true hne, ih fuel _ _ (Nat.lt_of_succ_lt_succ hn) hrest]
    conv_rhs => rw [← Nat.and_forall_add_one]
    refine and_congr (by simp) (forall_congr' fun i => ?_)
    rw [Nat.add_le_add_iff_right, addr_add_succ a i, addr_add_succ b i]

/-! ### Find (45_compiler.md R117) -/

/-- Where the scan answers, it is at the first entry on the chain that matches. -/
theorem findFrom_eq_some {m : Memory} {fuel : Nat} {w v : Addr} (h : findFrom m fuel w = some v) :
    ∃ k < fuel, entryAfter m k w = v ∧ nameMatches m v = true ∧ ∀ j < k, nameMatches m (entryAfter m j w) = false := by
  induction fuel generalizing w with
  | zero => cases h
  | succ fuel ih =>
    rw [findFrom] at h
    split at h
    · next hw =>
      obtain rfl := Option.some.inj h
      exact ⟨0, Nat.succ_pos _, rfl, hw, fun j hj => absurd hj (Nat.not_lt_zero j)⟩
    · next hw =>
      obtain ⟨k, hk, hlink, hv, hbefore⟩ := ih h
      refine ⟨k + 1, Nat.succ_lt_succ hk, hlink, hv, ?_⟩
      rintro (_ | j) hj
      · exact Bool.eq_false_iff.mpr hw
      · exact hbefore j (Nat.lt_of_succ_lt_succ hj)

theorem findFrom_eq_none {m : Memory} {fuel : Nat} {w : Addr} (h : findFrom m fuel w = none) :
    ∀ k < fuel, nameMatches m (entryAfter m k w) = false := by
  induction fuel generalizing w with
  | zero => exact fun k hk => absurd hk (Nat.not_lt_zero k)
  | succ fuel ih =>
    rw [findFrom] at h
    split at h
    · cases h
    · next hw =>
      rintro (_ | k) hk
      · exact Bool.eq_false_iff.mpr hw
      · exact ih h k (Nat.lt_of_succ_lt_succ hk)

theorem entryAfter_eq_iterate (m : Memory) (k : Nat) (w : Addr) :
    entryAfter m k w = (fun v => mask (cellRead m v))^[k] w := by
  induction k generalizing w with
  | zero => rfl
  | succ k ih => exact ih _

/-- Two of the first 32769 entries of a chain are the same: there are 32768 addresses. -/
theorem exists_repeated_entry (m : Memory) (w : Addr) :
    ∃ i j, i < j ∧ j ≤ 32768 ∧ entryAfter m i w = entryAfter m j w := by
  obtain ⟨i, j, hne, he⟩ := Fintype.exists_ne_map_eq_of_card_lt
    (fun k : Fin 32769 => (entryAfter m k w).toFin) (by simp only [Fintype.card_fin]; decide)
  have he := BitVec.toFin_inj.mp he
  obtain hlt | hlt := Nat.lt_or_gt_of_ne (Fin.val_ne_of_ne hne)
  · exact ⟨i, j, hlt, Nat.le_of_lt_succ j.isLt, he⟩
  · exact ⟨j, i, hlt, Nat.le_of_lt_succ i.isLt, he.symm⟩

/-- Every entry of a chain is reached by fewer than 32768 links: a longer way repeats an entry and has a shortcut. -/
theorem exists_entryAfter_lt (m : Memory) (w : Addr) (k : Nat) :
    ∃ j < 32768, entryAfter m j w = entryAfter m k w := by
  obtain ⟨i, j, hij, hj, he⟩ := exists_repeated_entry m w
  simp only [entryAfter_eq_iterate] at he ⊢
  induction k using Nat.strongRecOn with
  | ind k ih =>
    by_cases hk : k < 32768
    · exact ⟨k, hk, rfl⟩
    · obtain ⟨l, hl, hle⟩ := ih (k - j + i) (by omega)
      refine ⟨l, hl, hle.trans ?_⟩
      rw [Function.iterate_add_apply, he, ← Function.iterate_add_apply, Nat.sub_add_cancel (by omega)]

/-- Settles O24: what the bounded scan says of 32768 entries it says of all, and the sentinel's name, at string offset
0, is the token buffer itself. -/
theorem findAnswersNewestMatchOrNeverEnds : Obligations.FindAnswersNewestMatchOrNeverEnds := by
  intro s
  refine ⟨fun w => findFrom_eq_some, fun hnone k => ?neverEnds, fun n hn hoff hend => ?sentinel⟩
  case neverEnds =>
    obtain ⟨j, hj, he⟩ := exists_entryAfter_lt s.mem s.LATEST k
    rw [← he]
    exact findFrom_eq_none hnone j hj
  case sentinel =>
    have hname : nameCell (cellRead s.mem (32#15 + 1#15)) = Config.tokBuf := by
      rw [show cellRead s.mem (32#15 + 1#15) = 0#16 from hoff]
      decide
    rw [nameMatches, hname]
    exact (strEqComparesNulTerminatedStrings _ _ _ _ n hn hend).mpr fun _ _ => rfl

/-! ### A new entry (45_compiler.md R115, R118) -/

theorem mask_add_one (v : Word) : mask (v + 1#16) = mask v + 1#15 := by
  apply BitVec.eq_of_toNat_eq
  simp [mask]

theorem nameCell_eq (o : Word) : nameCell o = 16384#15 + mask o := by
  apply BitVec.eq_of_toNat_eq
  simp [nameCell, mask]

/-- The cells after a new entry: `DP` two further, the name offset and the link at the old `DP`, and the name
(45_compiler.md R115). -/
theorem makeEntry_cell {s : State} (hs : s.mem.wf = true) (tok : List Byte) (c : Addr) :
    (makeEntry tok s).cell c =
      if c = dpCell then (storeString (nameCell s.STRP) tok s).DP + 2#16
      else if c = mask (storeString (nameCell s.STRP) tok s).DP + 1#15 then s.STRP
      else if c = mask (storeString (nameCell s.STRP) tok s).DP then zext s.LATEST
      else (storeString (nameCell s.STRP) tok s).cell c := by
  have hname := storeString_wf (nameCell s.STRP) tok hs
  have hmem : (makeEntry tok s).cell c =
      (((storeString (nameCell s.STRP) tok s).append (zext s.LATEST)).append s.STRP).cell c :=
    congrArg (cellRead · c) (makeEntry_mem tok s)
  rw [hmem, State.append_cell (State.append_wf hname _), State.append_DP hname, State.append_cell hname, mask_add_one]
  by_cases hc : c = dpCell
  · rw [if_pos hc, if_pos hc, BitVec.add_assoc]
    rfl
  · simp only [if_neg hc]

/-- The entry has its place: its name below the data stack and above the token buffer, its header in the dictionary
region (20_memory.md R52, R53). -/
structure EntryFits (tok : List Byte) (s : State) : Prop where
  canonical : s.mem.wf = true
  tokenFits : tok.length ≤ 31
  nameLow : 32 ≤ s.STRP.toNat
  nameHigh : s.STRP.toNat + tok.length < 15360
  headerLow : 32 ≤ s.DP.toNat
  headerHigh : s.DP.toNat + 2 ≤ 16384

/-- Characters of a stored token, and the NUL after them (30_encoding.md R74). -/
def tokenCell (tok : List Byte) (i : Nat) : Word := if i < tok.length then zextByte (tok.getD i 0#8) else 0#16

section NewEntry

variable {tok : List Byte} {s : State} (h : EntryFits tok s)
include h

theorem EntryFits.name_toNat {i : Nat} (hi : i ≤ tok.length) :
    (nameCell s.STRP + BitVec.ofNat 15 i).toNat = 16384 + s.STRP.toNat + i := by
  have hhigh := h.nameHigh
  rw [nameCell_eq, BitVec.toNat_add, BitVec.toNat_add, mask_toNat]
  simp only [BitVec.toNat_ofNat]
  omega

theorem EntryFits.header_toNat : (mask s.DP).toNat = s.DP.toNat ∧ (mask s.DP + 1#15).toNat = s.DP.toNat + 1 := by
  have hhigh := h.headerHigh
  rw [BitVec.toNat_add, mask_toNat]
  simp only [BitVec.toNat_ofNat]
  omega

/-- Storing the name leaves `DP`. -/
theorem EntryFits.name_DP : (storeString (nameCell s.STRP) tok s).DP = s.DP :=
  storeString_cell_other _ _ h.canonical dpCell fun i hi e => by
    have hname := h.name_toNat hi
    rw [← e] at hname
    have hzero : dpCell.toNat = 0 := rfl
    omega

theorem EntryFits.cell (c : Addr) : (makeEntry tok s).cell c =
    if c = dpCell then s.DP + 2#16 else if c = mask s.DP + 1#15 then s.STRP else if c = mask s.DP then zext s.LATEST
    else (storeString (nameCell s.STRP) tok s).cell c := by
  rw [makeEntry_cell h.canonical, h.name_DP]

/-- The header cells are apart from each other and from `DP`. -/
theorem EntryFits.header_cells : (makeEntry tok s).cell (mask s.DP) = zext s.LATEST ∧
    (makeEntry tok s).cell (mask s.DP + 1#15) = s.STRP := by
  obtain ⟨hlink, hoff⟩ := h.header_toNat
  have hlow := h.headerLow
  have hzero : dpCell.toNat = 0 := rfl
  have hlink0 : mask s.DP ≠ dpCell := ne_of_apply_ne BitVec.toNat (by omega)
  have hoff0 : mask s.DP + 1#15 ≠ dpCell := ne_of_apply_ne BitVec.toNat (by omega)
  have hapart : mask s.DP ≠ mask s.DP + 1#15 := ne_of_apply_ne BitVec.toNat (by omega)
  rw [h.cell, h.cell, if_neg hlink0, if_neg hapart, if_pos rfl, if_neg hoff0, if_pos rfl]
  exact ⟨rfl, rfl⟩

/-- The name lies above the header, so it stays as it was stored. -/
theorem EntryFits.name_cell {i : Nat} (hi : i ≤ tok.length) :
    (makeEntry tok s).cell (nameCell s.STRP + BitVec.ofNat 15 i) = tokenCell tok i := by
  obtain ⟨hlink, hoff⟩ := h.header_toNat
  have hname := h.name_toNat hi
  have hhigh := h.headerHigh
  have hzero : dpCell.toNat = 0 := rfl
  rw [h.cell, if_neg (ne_of_apply_ne BitVec.toNat ?_), if_neg (ne_of_apply_ne BitVec.toNat ?_),
    if_neg (ne_of_apply_ne BitVec.toNat ?_)]
  · exact storeString_cell_self _ tok h.canonical (h.tokenFits.trans_lt (by decide)) i hi
  all_goals omega

end NewEntry

/-- A token in the token buffer leaves every cell outside the buffer's 32 (20_memory.md R54). -/
theorem storeString_tokBuf_cell {tok : List Byte} {s : State} (hs : s.mem.wf = true) (hlen : tok.length ≤ 31) {c : Addr}
    (hc : c.toNat < 16384 ∨ 16416 ≤ c.toNat) : (storeString Config.tokBuf tok s).cell c = s.cell c :=
  storeString_cell_other _ tok hs c fun i hi e => by
    have hi31 : i ≤ 31 := hi.trans hlen
    rw [e, BitVec.toNat_add] at hc
    simp only [BitVec.toNat_ofNat] at hc
    omega

theorem zextByte_ne_zero {c : Byte} (h : c ≠ 0#8) : zextByte c ≠ 0#16 := by
  simp only [zextByte]
  bv_omega

/-- An entry whose name and the token buffer hold the same nonzero characters matches. -/
theorem nameMatches_of_cells {m : Memory} {w : Addr} {tok : List Byte} (hlen : tok.length ≤ 31)
    (hne : ∀ c ∈ tok, c ≠ 0#8)
    (hname : ∀ i ≤ tok.length, cellRead m (nameCell (cellRead m (w + 1#15)) + BitVec.ofNat 15 i) = tokenCell tok i)
    (hbuf : ∀ i ≤ tok.length, cellRead m (Config.tokBuf + BitVec.ofNat 15 i) = tokenCell tok i) :
    nameMatches m w = true := by
  have hends : EndsAfter m Config.tokBuf tok.length := by
    refine ⟨(hbuf _ (Nat.le_refl _)).trans (if_neg (Nat.lt_irrefl _)), fun i hi => ?_⟩
    rw [hbuf i hi.le, tokenCell, if_pos hi, List.getD_eq_getElem _ _ hi]
    exact zextByte_ne_zero (hne _ (List.getElem_mem hi))
  exact (strEqComparesNulTerminatedStrings m 32 _ _ tok.length (Nat.lt_succ_of_le hlen) hends).mpr
    fun i hi => (hname i hi).trans (hbuf i hi).symm

/-- The newest entry is the first one the scan visits. -/
theorem find_of_latest_matches {s : State} (h : nameMatches s.mem s.LATEST = true) : find s = some s.LATEST := if_pos h

/-- The search for the token of a new entry starts at the entry, and its name matches. -/
theorem EntryFits.find_eq {tok : List Byte} {s : State} (h : EntryFits tok s) (hne : ∀ c ∈ tok, c ≠ 0#8) :
    find (storeString Config.tokBuf tok (makeEntry tok s)) = some (mask s.DP) := by
  have hwf := makeEntry_wf tok h.canonical
  have hlatest : (storeString Config.tokBuf tok (makeEntry tok s)).LATEST = mask s.DP := by
    rw [storeString_LATEST, makeEntry_LATEST, h.name_DP]
  have hoffset : (storeString Config.tokBuf tok (makeEntry tok s)).cell (mask s.DP + 1#15) = s.STRP := by
    have hhigh := h.headerHigh
    rw [storeString_tokBuf_cell hwf h.tokenFits (.inl (by rw [h.header_toNat.2]; omega))]
    exact h.header_cells.2
  have hname {i : Nat} (hi : i ≤ tok.length) : (storeString Config.tokBuf tok (makeEntry tok s)).cell
      (nameCell s.STRP + BitVec.ofNat 15 i) = tokenCell tok i := by
    have hlow := h.nameLow
    rw [storeString_tokBuf_cell hwf h.tokenFits (.inr (by rw [h.name_toNat hi]; omega))]
    exact h.name_cell hi
  rw [← hlatest]
  refine find_of_latest_matches (nameMatches_of_cells h.tokenFits hne (fun i hi => ?name) fun i hi => ?buffer)
  case name =>
    rw [hlatest, show cellRead _ (mask s.DP + 1#15) = s.STRP from hoffset]
    exact hname hi
  case buffer => exact storeString_cell_self _ tok hwf (h.tokenFits.trans_lt (by decide)) i hi

/-- Settles O25: the entry's cells are apart from each other, and its name is what the token buffer holds. -/
theorem newEntryShadowsOlderNames : Obligations.NewEntryShadowsOlderNames := by
  intro tok s hs _ hlen hne hslo hshi hdlo hdhi
  have h : EntryFits tok s := ⟨hs, hlen, hslo, hshi, hdlo, hdhi⟩
  obtain ⟨hlink, hoff⟩ := h.header_cells
  refine ⟨_, rfl, ?latest, rfl, h.cell dpCell, hlink, hoff, fun i hi => ?character, ?nul, h.find_eq hne⟩
  case latest => exact congrArg mask h.name_DP
  case character =>
    rw [← nameCell_eq]
    exact (h.name_cell hi.le).trans (if_pos hi)
  case nul =>
    rw [← nameCell_eq]
    exact (h.name_cell (Nat.le_refl _)).trans (if_neg (Nat.lt_irrefl _))

end Sys2Proof.Machine

/-! SUPPORT. READ, case by case, and what it leaves of the arena (45_compiler.md R119). Settles O20 and O41. -/

namespace Sys2Proof.Machine

/-! ### What READ does with a token that names no word -/

section Number

variable {s : State} {tok : List Byte}

theorem readNumber_undefined (h : parseNum tok s.radix = none) :
    readNumber tok s = .next (s.diag (.undefinedWord tok)) := by
  rw [readNumber, h]

theorem readNumber_of {n : Word} (h : parseNum tok s.radix = some n) : readNumber tok s =
    if s.STATE = 0#16 then withPush n s .next else .next ((s.append Config.litXt).append n) := by
  rw [readNumber, h]

end Number

/-- Settles O20: READ is one return-stack pop, the token reader, Find, and then the handling of a number. -/
theorem readHandlesOneToken : Obligations.ReadHandlesOneToken := by
  refine ⟨rfl, fun s => ⟨exec_read_fault, fun hp => ⟨fun rest he => exec_read_eof hp he, fun tok rest he u hu => ?_⟩⟩⟩
  have hread : exec .read s = readWord tok (s.rpopped.setInput rest) := exec_read_token hp he
  have hu : storeString Config.tokBuf tok (s.rpopped.setInput rest) = u := hu.symm
  rw [hread]
  refine ⟨fun hnone => readWord_none (hu ▸ hnone), fun w hw hsent => ?found, fun hsent => ?sentinel⟩
  case found =>
    rw [readWord_found (hu ▸ hw) hsent, hu]
    rfl
  case sentinel =>
    rw [readWord_sentinel (hu ▸ hsent), hu]
    refine ⟨readNumber_undefined, fun n hn => ?_⟩
    rw [readNumber_of hn]
    exact ⟨fun h0 hpush => (if_pos h0).trans (withPush_of hpush),
      fun h0 hfull => (if_pos h0).trans (withPush_fault hfull), fun h0 => if_neg h0⟩

/-! ### The frame of READ -/

section Frame

variable {s : State} (hs : s.mem.wf = true)
include hs

theorem tokenStored_wf (tok : List Byte) (rest : List InputSlot) : (tokenStored tok rest s).mem.wf = true :=
  storeString_wf _ tok (State.rpopped_wf hs)

/-- The token and the lower `RSP` leave every other cell below the string store. -/
theorem tokenStored_cell {tok : List Byte} (hlen : tok.length ≤ 31) (rest : List InputSlot) {c : Addr}
    (hc : c.toNat < 16384) (hr : c ≠ rspCell) : (tokenStored tok rest s).cell c = s.cell c :=
  (storeString_tokBuf_cell (s := s.rpopped.setInput rest) (State.rpopped_wf hs) hlen (.inl hc)).trans
    ((State.rpopped_cell hs c).trans (if_neg hr))

theorem sameOutside_tokenStored (tok : List Byte) (rest : List InputSlot) :
    SameOutside (rspCell :: stringCells Config.tokBuf tok.length) s (tokenStored tok rest s) :=
  (sameOutside_rpopped hs).trans (sameOutside_storeString (s := s.rpopped.setInput rest) (State.rpopped_wf hs) _ tok)

end Frame

/-- After its token is stored, READ writes no more, pushes one value, or appends two. -/
theorem execRead_next_token {s t : State} {tok : List Byte} {rest : List InputSlot} (h : execRead s = .next t)
    (he : readToken s.input = (some tok, rest)) : t.mem = (tokenStored tok rest s).mem ∨
      ∃ n, ((tokenStored tok rest s).STATE = 0#16 ∧ t = (tokenStored tok rest s).pushed n) ∨
        ((tokenStored tok rest s).STATE ≠ 0#16 ∧ t = ((tokenStored tok rest s).append Config.litXt).append n) := by
  obtain ⟨-, ⟨rest', he', -⟩ | ⟨tok', rest', he', hcases⟩⟩ := execRead_next h
  · cases he.symm.trans he'
  · cases he.symm.trans he'
    obtain ⟨w, -, -, rfl⟩ | ⟨-, rfl | ⟨n, ⟨h0, -, rfl⟩ | ⟨h0, rfl⟩⟩⟩ := hcases
    · exact .inl rfl
    · exact .inl rfl
    · exact .inr ⟨n, .inl ⟨h0, rfl⟩⟩
    · exact .inr ⟨n, .inr ⟨h0, rfl⟩⟩

/-- Settles O41: READ pops, stores its token, and then pushes only while Interpreting and appends only while Compiling;
`STATE` and `DP` are as before the token was stored. -/
theorem readKeepsOtherBytes : Obligations.ReadKeepsOtherBytes := by
  intro s t hs h
  refine ⟨fun rest he => ?eof, fun tok rest he => ?token⟩
  case eof =>
    obtain ⟨-, ⟨-, -, rfl⟩ | ⟨tok, rest', he', -⟩⟩ := execRead_next h
    · exact sameOutside_rpopped hs
    · cases he.symm.trans he'
  case token =>
    have hlen := readToken_length_le he
    have hstored := sameOutside_tokenStored hs tok rest
    have hwf := tokenStored_wf hs tok rest
    have hSTATE : (tokenStored tok rest s).STATE = s.cell 8#15 := tokenStored_cell hs hlen rest (by decide) (by decide)
    have hDP : (tokenStored tok rest s).DP = s.DP := tokenStored_cell hs hlen rest (by decide) (by decide)
    rw [← hSTATE, ← hDP]
    obtain hmem | ⟨n, ⟨h0, rfl⟩ | ⟨h0, rfl⟩⟩ := execRead_next_token h he
    · have hsame := hstored.of_mem_eq hmem
      exact ⟨fun _ => hsame.mono (by simp), fun _ => hsame.mono (by simp)⟩
    · have hsame := hstored.trans (sameOutside_pushed hwf n)
      rw [tokenStored_S] at hsame
      exact ⟨fun _ => hsame.mono (by simp), fun hne => absurd h0 hne⟩
    · have hsame := hstored.trans (sameOutside_appends hwf [Config.litXt, n])
      exact ⟨fun h => absurd h h0, fun _ => hsame.mono (List.Subset.refl _)⟩

end Sys2Proof.Machine

/-! SUPPORT. DEFINE, IMMEDIATE and COMMA (45_compiler.md R120, R121, R123). Settles O26, O27 and O29. -/

namespace Sys2Proof.Machine

/-- Settles O26: DEFINE sets `STATE` and reads a token; the entry, or the fatal fault, is made from that state. -/
theorem defineStartsDefinitionOrFaults : Obligations.DefineStartsDefinitionOrFaults :=
  ⟨rfl, fun _ => ⟨fun _ _ => exec_define, fun _ => exec_define_eof⟩⟩

theorem State.setCell_dpCell_DP {s : State} (hs : s.mem.wf = true) (v : Word) : (s.setCell dpCell v).DP = v :=
  (State.setCell_cell hs dpCell dpCell v).trans (if_pos rfl)

/-- Settles O27: IMMEDIATE is a write of `DP` and one append from there. -/
theorem immediateReplacesTwoCellsByRun : Obligations.ImmediateReplacesTwoCellsByRun := by
  refine ⟨rfl, fun s hs => ⟨_, exec_immediate, fun a => ?_, rfl⟩⟩
  rw [State.append_cell (State.setCell_wf hs _ _), State.setCell_dpCell_DP hs, State.setCell_cell hs]
  by_cases ha : a = dpCell
  · rw [if_pos ha]; exact (if_pos ha).symm
  · rw [if_neg ha, if_neg ha]; exact (if_neg ha).symm

/-- Settles O29: COMMA is one append and then one pop, which reads the cell at `S` of the state the append has left. -/
theorem commaAppendsThenPops : Obligations.CommaAppendsThenPops :=
  ⟨rfl, fun s hs => ⟨fun hp => ⟨_, exec_comma hp, rfl, rfl, State.append_cell hs s.f, rfl⟩, exec_comma_fault⟩⟩

end Sys2Proof.Machine

/-! SUPPORT. The block controller: block names, write requests and read requests (46_block.md R126 to R130). Settles
O31, O32, O33, O34 and O35. -/

namespace Sys2Proof.Machine

/-! ### Block names (46_block.md R126) -/

theorem digitChar_toNat (d : Nat) (h : d < 16) : (digitChar d).toNat = if d < 10 then 48 + d else 87 + d := by
  revert d; decide

theorem digitChar_inj {d e : Nat} (hd : d < 16) (he : e < 16) (h : digitChar d = digitChar e) : d = e :=
  Option.some.inj ((digitValue_digitChar hd).symm.trans ((congrArg digitValue h).trans (digitValue_digitChar he)))

theorem hexDigit_eq (id : Word) (lo : Nat) : hexDigit id lo = digitChar (id.toNat / 2 ^ lo % 16) := by
  rw [hexDigit, BitVec.extractLsb'_toNat, Nat.shiftRight_eq_div_pow]

theorem hexDigit_inj {id id' : Word} {lo : Nat} (h : hexDigit id lo = hexDigit id' lo) :
    id.toNat / 2 ^ lo % 16 = id'.toNat / 2 ^ lo % 16 := by
  rw [hexDigit_eq, hexDigit_eq] at h
  exact digitChar_inj (Nat.mod_lt _ (by decide)) (Nat.mod_lt _ (by decide)) h

theorem blockName_eq (id : Word) : blockName id =
    [digitChar (id.toNat / 4096 % 16), digitChar (id.toNat / 256 % 16), digitChar (id.toNat / 16 % 16),
      digitChar (id.toNat % 16), 0x2E#8, 0x62#8, 0x6C#8, 0x6B#8] := by
  simp only [blockName, hexDigit_eq, Nat.reducePow, Nat.div_one]

theorem blockName_inj {id id' : Word} (h : blockName id = blockName id') : id = id' := by
  simp only [blockName, List.cons.injEq, and_true] at h
  obtain ⟨h3, h2, h1, h0⟩ := h
  have d3 := hexDigit_inj h3
  have d2 := hexDigit_inj h2
  have d1 := hexDigit_inj h1
  have d0 := hexDigit_inj h0
  apply BitVec.eq_of_toNat_eq
  omega

/-- Settles O34: a digit of the name determines its four bits of the id, and the four digits determine the id. -/
theorem blockNamesAreDistinct : Obligations.BlockNamesAreDistinct :=
  ⟨digitChar_toNat, blockName_eq, fun _ _ => blockName_inj⟩

/-! ### Rejected requests (46_block.md R127) -/

theorem blockIO_past_arena {off : Word} (h : 65536 < off.toNat + 1024) (id : Word) (mode : BlockMode) (s : State) :
    blockIO off id mode s = (0xFFFF#16, s.diag (.blockRequest off id mode)) := by
  obtain e | ⟨hfit, -, -⟩ | ⟨hfit, -, -⟩ := blockIO_cases off id mode s
  · exact e
  · exact absurd hfit (Nat.not_le.mpr h)
  · exact absurd hfit (Nat.not_le.mpr h)

/-- Settles O31: a mode that is neither has only the rejection, and past the arena no other case is left. -/
theorem badBlockRequestsAreRejected : Obligations.BadBlockRequestsAreRejected :=
  fun _ id mode s => ⟨fun _ hmode => hmode ▸ rfl, fun h => blockIO_past_arena h id mode s⟩

/-! ### The bytes of a block and the files of the store -/

@[simp] theorem readBytes_length (m : Memory) (b n : Nat) : (readBytes m b n).length = n := by simp [readBytes]

theorem readBytes_getD (m : Memory) (b : Nat) {n i : Nat} (h : i < n) :
    (readBytes m b n).getD i 0#8 = byteRead m (b + i) := by
  simp [readBytes, List.getD, h]

theorem lookup_putFile_same (name : FileName) (data : List Byte) (st : Store) :
    lookup name (putFile name data st) = some data := (lookup_insertKey _ _ _ _ _).trans (if_pos rfl)

theorem lookup_putFile_of_ne {name name' : FileName} (h : name' ≠ name) (data : List Byte) (st : Store) :
    lookup name' (putFile name data st) = lookup name' st := (lookup_insertKey _ _ _ _ _).trans (if_neg h)

/-- A failed write leaves no file, the old file, or a prefix of the data (46_block.md R128). -/
theorem lookup_leaveFile_same (left : FailedFile) (name : FileName) (data : List Byte) {st : Store}
    (hst : Store.wf st = true) : lookup name (leaveFile left name data st) = none ∨
      lookup name (leaveFile left name data st) = lookup name st ∨
      ∃ k, lookup name (leaveFile left name data st) = some (data.take k) := by
  cases left with
  | absent => exact .inl ((lookup_eraseKey nameOrder name name hst).trans (if_pos rfl))
  | old => exact .inr (.inl rfl)
  | prefixOf k => exact .inr (.inr ⟨k, lookup_putFile_same name _ st⟩)

theorem lookup_leaveFile_of_ne (left : FailedFile) {name name' : FileName} (h : name' ≠ name) (data : List Byte)
    {st : Store} (hst : Store.wf st = true) : lookup name' (leaveFile left name data st) = lookup name' st := by
  cases left with
  | absent => exact (lookup_eraseKey nameOrder name name' hst).trans (if_neg h)
  | old => rfl
  | prefixOf k => exact lookup_putFile_of_ne h _ st

/-! ### Write requests (46_block.md R127, R128) -/

theorem blockWrite_of_ok {s : State} {rest : List WriteAnswer} (h : s.writeAnswers = .ok :: rest) (off id : Word) :
    blockWrite off id s = (0#16, { s with
      writeAnswers := rest, store := putFile (blockName id) (readBytes s.mem off.toNat 1024) s.store }) := by
  simp [blockWrite, takeWriteAnswer, h]

/-- Settles O32: the two outcomes of `blockWrite_cases`, and the first of them where the host's next answer is ok. -/
theorem blockWriteStoresFileOrFails : Obligations.BlockWriteStoresFileOrFails := by
  intro off id s hst hfit
  have hok : ∀ rest, s.writeAnswers = .ok :: rest →
      (blockWrite off id s).1 = 0#16 ∧ (blockWrite off id s).2.writeAnswers = rest := fun rest h => by
    rw [blockWrite_of_ok h]
    exact ⟨rfl, rfl⟩
  rw [blockIO_write off id s hfit]
  obtain ⟨_, _, e⟩ | ⟨_, _, left, e⟩ := blockWrite_cases off id s <;> rw [e] at hok
  · have hstored := lookup_putFile_same (blockName id) (readBytes s.mem off.toNat 1024) s.store
    exact ⟨_, _, e, rfl, fun _ hn => lookup_putFile_of_ne hn _ _,
      .inl ⟨rfl, rfl, _, hstored, readBytes_length _ _ _, fun _ => readBytes_getD s.mem off.toNat⟩, hok, rfl⟩
  · exact ⟨_, _, e, rfl, fun _ hn => lookup_leaveFile_of_ne left hn _ hst,
      .inr ⟨rfl, rfl, lookup_leaveFile_same left _ _ hst⟩, hok, rfl⟩

/-- A write request that answers 0 has put the block's bytes under the id's name. -/
theorem blockIO_write_zero {off id : Word} {s t : State} (h : blockIO off id .write s = (0#16, t)) :
    t.store = putFile (blockName id) (readBytes s.mem off.toNat 1024) s.store := by
  obtain e | ⟨-, -, e⟩ | ⟨-, hmode, -⟩ := blockIO_cases off id .write s
  · cases e.symm.trans h
  · obtain ⟨_, _, e'⟩ | ⟨_, _, _, e'⟩ := blockWrite_cases off id s
    · cases (e.trans e').symm.trans h
      rfl
    · cases (e.trans e').symm.trans h
  · cases hmode

/-! ### Read requests (46_block.md R127, R129) -/

theorem byteRead_writeBytes_outside {m : Memory} (hm : m.wf = true) {bs : List Byte} {a n b : Nat}
    (hlen : bs.length = n) (ha : a + n ≤ 65536) (hb : b < a ∨ a + n ≤ b) :
    byteRead (writeBytes m a bs) b = byteRead m b := by
  rw [byteRead_writeBytes hm bs a b (by omega), if_neg (by omega)]

theorem byteRead_writeBytes_inside {m : Memory} (hm : m.wf = true) {bs : List Byte} {a n i : Nat}
    (hlen : bs.length = n) (ha : a + n ≤ 65536) (hi : i < n) :
    byteRead (writeBytes m a bs) (a + i) = bs.getD i 0#8 := by
  rw [byteRead_writeBytes hm bs a (a + i) (by omega), if_pos (by omega), Nat.add_sub_cancel_left]

section Read

variable {off id : Word} {s : State} {data : List Byte} (hfit : off.toNat + 1024 ≤ 65536)
include hfit

theorem blockIO_read_missing (h : lookup (blockName id) s.store = none) :
    blockIO off id .read s = (0xFFFF#16, s.diag (.blockTransfer off id .read)) := by
  rw [blockIO_read off id s hfit, blockRead, h]

/-- A file of 1024 bytes or more fills the block with its first 1024 bytes. -/
theorem blockIO_read_whole (hs : s.mem.wf = true) (h : lookup (blockName id) s.store = some data)
    (hlen : 1024 ≤ data.length) : ∃ m, blockIO off id .read s = (0#16, { s with mem := m }) ∧
      ∀ i < 1024, byteRead m (off.toNat + i) = data.getD i 0#8 := by
  refine ⟨writeBytes s.mem off.toNat (data.take 1024), ?request, fun i hi => ?byte⟩
  case request =>
    rw [blockIO_read off id s hfit, blockRead, h]
    exact if_pos hlen
  case byte =>
    rw [byteRead_writeBytes_inside hs (List.length_take_of_le hlen) hfit hi, List.getD, List.getElem?_take_of_lt hi,
      ← List.getD]

theorem blockIO_read_short (h : lookup (blockName id) s.store = some data) (hlen : data.length < 1024) :
    ∃ m, blockIO off id .read s =
      (0xFFFF#16, ({ s with mem := m, draws := s.draws + 1 } : State).diag (.blockTransfer off id .read)) := by
  refine ⟨writeBytes s.mem off.toNat (shortReadBytes s.draws), ?_⟩
  rw [blockIO_read off id s hfit, blockRead, h]
  exact if_neg (Nat.not_le.mpr hlen)

end Read

/-- A read request leaves memory alone or writes 1024 bytes from its offset upward, whatever its status. -/
theorem blockIO_read_mem (off id : Word) (s : State) :
    (blockIO off id .read s).2.mem = s.mem ∨ off.toNat + 1024 ≤ 65536 ∧
      ∃ bs : List Byte, bs.length = 1024 ∧ (blockIO off id .read s).2.mem = writeBytes s.mem off.toNat bs := by
  obtain e | ⟨-, hmode, -⟩ | ⟨hfit, -, e⟩ := blockIO_cases off id .read s
  · exact .inl (congrArg (·.2.mem) e)
  · cases hmode
  · rw [e]
    obtain ⟨-, e'⟩ | ⟨data, -, hlen, e'⟩ | ⟨_, -, -, e'⟩ := blockRead_cases off id s
    · exact .inl (congrArg (·.2.mem) e')
    · exact .inr ⟨hfit, data.take 1024, List.length_take_of_le hlen, congrArg (·.2.mem) e'⟩
    · exact .inr ⟨hfit, shortReadBytes s.draws, shortReadBytes_length _, by rw [e', State.diag_mem]⟩

theorem blockIO_read_outside (off id : Word) {s : State} (hs : s.mem.wf = true) {b : Nat}
    (hb : b < off.toNat ∨ off.toNat + 1024 ≤ b) : byteRead (blockIO off id .read s).2.mem b = byteRead s.mem b := by
  obtain e | ⟨hfit, bs, hlen, e⟩ := blockIO_read_mem off id s
  · rw [e]
  · rw [e, byteRead_writeBytes_outside hs hlen hfit hb]

/-- Settles O33: no file, a whole block, or a short file; in each case the bytes outside the block stay. -/
theorem blockReadFillsBlockOrFails : Obligations.BlockReadFillsBlockOrFails := by
  intro off id s hs hfit
  refine ⟨blockIO_read_missing hfit, fun data hfile =>
    ⟨_, _, Prod.mk.eta.symm, fun b => blockIO_read_outside off id hs, fun hlen => ?whole, fun hlen => ?short⟩⟩
  case whole =>
    obtain ⟨m, e, hbytes⟩ := blockIO_read_whole hfit hs hfile hlen
    rw [e]
    exact ⟨rfl, rfl, hbytes⟩
  case short =>
    obtain ⟨m, e⟩ := blockIO_read_short hfit hfile hlen
    rw [e]
    exact ⟨rfl, rfl, rfl⟩

/-- Settles O35: the write leaves memory canonical and a whole block under the name that the read looks up. -/
theorem savedBlockLoadsBack : Obligations.SavedBlockLoadsBack := by
  intro off off' id s t hs hfit hwrite
  have hmem : t.mem = s.mem := by simpa [hwrite] using blockIO_write_mem off id s
  have hfile : lookup (blockName id) t.store = some (readBytes s.mem off.toNat 1024) := by
    rw [blockIO_write_zero hwrite, lookup_putFile_same]
  have hlen : 1024 ≤ (readBytes s.mem off.toNat 1024).length := (readBytes_length _ _ _).ge
  obtain ⟨m, e, hbytes⟩ := blockIO_read_whole hfit (hmem ▸ hs.memCanonical) hfile hlen
  exact ⟨_, e, fun i hi => (hbytes i hi).trans (readBytes_getD _ _ hi)⟩

end Sys2Proof.Machine

/-! SUPPORT. The block opcodes BSAVE and BLOAD, and the host's call block_io (46_block.md R131 to R133). Settles O30,
O42 and O57. -/

namespace Sys2Proof.Machine

/-- Whatever the request answers, its status is written to `f` last (46_block.md R131, R132). -/
theorem blockOp_of_blockIO {mode : BlockMode} {s : State} {r : Word × State} (hp : s.CanPop)
    (hr : blockIO s.second s.f mode s.popped = r) : blockOp mode s = .next { r.2 with f := r.1 } := by
  rw [blockOp_of mode hp, hr]
  rfl

/-- Settles O30: each is one pop, one request, and one write of `f`. -/
theorem blockOpcodesLeaveStatus : Obligations.BlockOpcodesLeaveStatus :=
  ⟨rfl, rfl, fun _ => ⟨fun hp => ⟨blockOp_of_blockIO hp rfl, blockOp_of_blockIO hp rfl⟩,
    fun hn => ⟨exec_bsave_fault hn, exec_bload_fault hn⟩⟩⟩

/-- Settles O42: the pop and the write of `f` leave memory, and the read request keeps the bytes outside its block. -/
theorem bloadKeepsBytesOutsideBlock : Obligations.BloadKeepsBytesOutsideBlock := by
  intro s t hs h b hb
  obtain ⟨-, rfl⟩ := execBload_next h
  rw [State.setF_mem, blockIO_read_outside s.second s.f (s := s.popped) hs hb, State.popped_mem]

theorem serveHost_cons {s : State} {c : HostCall} {rest : List HostCall} (h : s.calls = c :: rest) :
    serveHost s = serveCall c { s with calls := rest } := by
  rw [serveHost, h]

/-- Settles O57: the Idle step serves the call, and a block request changes no engine register. -/
theorem hostBlockIOAnswersStatus : Obligations.HostBlockIOAnswersStatus := by
  intro s off id mode rest hidle hcalls
  exact ⟨_, _, Prod.mk.eta.symm, (step_idle hidle).trans (serveHost_cons hcalls), blockIO_I .., blockIO_f ..,
    blockIO_S .., blockIO_LATEST .., blockIO_STRP .., blockIO_NXT .., blockIO_INVALID .., blockIO_mode ..⟩

end Sys2Proof.Machine

/-! SUPPORT. The events a step sends to the error channel, and where an opcode stops (60_exceptions.md R135 to R139).
Settles O47 and O50. -/

namespace Sys2Proof.Machine

/-! ### At most one event a step (60_exceptions.md R139) -/

theorem beginRun_errors (s : State) : (beginRun s).errors = s.errors := by
  unfold beginRun; split <;> rfl

/-- A restored engine keeps its error channel (70_reset_and_hazards.md R158). -/
theorem restore_errors {image : List Byte} {s t : State} (h : restore image s = some t) : t.errors = s.errors := by
  unfold restore at h
  split at h
  · cases h; rfl
  · cases h

/-- Of the host's calls only block_io sends an event, and at most one. -/
theorem serveCall_errors {c : HostCall} {s t : State} (h : serveCall c s = .next t) :
    t.errors = s.errors ∨ ∃ e, t.errors = s.errors ++ [e] := by
  cases c with
  | run => obtain rfl := next_inj h; exact .inl (beginRun_errors s)
  | replaceInput stream => obtain rfl := next_inj h; exact .inl rfl
  | changeFile name contents => obtain rfl := next_inj h; exact .inl rfl
  | snapshot => obtain rfl := next_inj h; exact .inl rfl
  | restore image =>
    simp only [serveCall] at h
    split at h
    · obtain rfl := next_inj h; exact .inl rfl
    · next u hu => obtain rfl := next_inj h; exact .inl (show u.errors = s.errors from restore_errors hu)
  | blockIO off id mode => obtain rfl := next_inj h; exact blockIO_errors off id mode s
  | teardown => cases h

theorem serveHost_errors {s t : State} (h : serveHost s = .next t) :
    t.errors = s.errors ∨ ∃ e, t.errors = s.errors ++ [e] := by
  unfold serveHost at h
  split at h
  · obtain rfl := next_inj h; exact .inl rfl
  · next c rest _ => exact serveCall_errors (s := { s with calls := rest }) h

/-- The fetch sends nothing, an opcode at most one event, and an unknown opcode its fatal event. -/
theorem stepRunning_errors {s t : State} (h : stepRunning s = .next t) :
    t.errors = s.errors ∨ ∃ e, t.errors = s.errors ++ [e] := by
  obtain ⟨i, h⟩ | ⟨op, xt, rfl⟩ := stepRunning_cases h
  · simpa using exec_errors_atMostOne (fetchToken_NXT s) h
  · exact .inr ⟨.fatal (.unknownOpcode op xt), by simp⟩

/-- Settles O47: an Idle step serves one call, a running one performs one opcode, and each sends at most one event. -/
theorem stepSendsAtMostOneEvent : Obligations.StepSendsAtMostOneEvent := by
  intro s t h
  cases hm : s.mode with
  | idle => exact serveHost_errors (step_idle hm ▸ h)
  | running => exact stepRunning_errors (step_running hm ▸ h)

/-! ### Where an opcode stops (60_exceptions.md R137, R138) -/

/-- The opcodes named for each stuck outcome, with the stack pointer it needs (60_exceptions.md R137, R138). STORE pops
twice, so its second pop may be undefined where the first is not. -/
def MayStop (i : Instr) (s : State) : Fault → Prop
  | .undef .returnPop => (i = .exit ∨ i = .fromr ∨ i = .read) ∧ ¬ s.CanRPop
  | .undef .returnPush => ((∃ x, i = .run x) ∨ i = .tor) ∧ ¬ s.CanRPush
  | .undef .dataPop => (stackMove i = some (-1#15) ∨ i = .store ∨ i = .swap) ∧ (¬ s.CanPop ∨ i = .store)
  | .undef .dataPush => ((∃ v, i = .push v) ∨ i = .dup ∨ i = .fromr ∨ i = .key ∨ i = .read) ∧ ¬ s.CanPush
  | .hung .findCycle => i = .read

/-- An opcode answers a next state, or stops by a fault named for it. -/
def CompletesOrStops (i : Instr) (s : State) : Prop :=
  (∃ t, exec i s = .next t) ∨ ∃ r, exec i s = .fault r ∧ MayStop i s r

theorem CompletesOrStops.of_next {i : Instr} {s t : State} (h : exec i s = .next t) : CompletesOrStops i s :=
  .inl ⟨t, h⟩

theorem CompletesOrStops.of_fault {i : Instr} {s : State} {r : Fault} (h : exec i s = .fault r) (hr : MayStop i s r) :
    CompletesOrStops i s := .inr ⟨r, h, hr⟩

section OneBound

variable {i : Instr} {s : State}

/-- An opcode whose effect pops one cell, and which completes wherever a pop is defined. -/
theorem CompletesOrStops.of_pop (hi : stackMove i = some (-1#15)) (hn : s.CanPop → ∃ t, exec i s = .next t)
    (hf : ¬ s.CanPop → exec i s = .fault (.undef .dataPop)) : CompletesOrStops i s := by
  by_cases hp : s.CanPop
  · exact .inl (hn hp)
  · exact .of_fault (hf hp) ⟨.inl hi, .inl hp⟩

/-- An opcode that pushes one cell, and which completes wherever a push is defined. -/
theorem CompletesOrStops.of_push (hi : (∃ v, i = .push v) ∨ i = .dup ∨ i = .fromr ∨ i = .key ∨ i = .read)
    (hn : s.CanPush → ∃ t, exec i s = .next t) (hf : ¬ s.CanPush → exec i s = .fault (.undef .dataPush)) :
    CompletesOrStops i s := by
  by_cases hp : s.CanPush
  · exact .inl (hn hp)
  · exact .of_fault (hf hp) ⟨hi, hp⟩

end OneBound

/-- READ, in the order of its steps: the return-stack pop, the token, Find, and the number pushed or compiled
(45_compiler.md R119). -/
theorem execRead_completesOrStops (s : State) : CompletesOrStops .read s := by
  by_cases hr : s.CanRPop
  case neg => exact .of_fault (exec_read_fault hr) ⟨.inr (.inr rfl), hr⟩
  rcases ht : readToken s.input with ⟨_ | tok, rest⟩
  · exact .of_next (exec_read_eof hr ht)
  have hread := exec_read_token hr ht
  cases hfind : find (tokenStored tok rest s) with
  | none => exact .of_fault (hread.trans (readWord_none hfind)) rfl
  | some w =>
    by_cases hw : w = Config.sent
    case neg => exact .of_next (hread.trans (readWord_found hfind hw))
    have hnum : exec .read s = readNumber tok (tokenStored tok rest s) :=
      hread.trans (readWord_sentinel (hw ▸ hfind))
    cases hparse : parseNum tok (tokenStored tok rest s).radix with
    | none => exact .of_next (hnum.trans (readNumber_undefined hparse))
    | some n =>
      rw [readNumber_of hparse] at hnum
      by_cases hstate : (tokenStored tok rest s).STATE = 0#16
      case neg => exact .of_next (hnum.trans (if_neg hstate))
      rw [if_pos hstate] at hnum
      have hroom : (tokenStored tok rest s).CanPush ↔ s.CanPush := by simp [State.CanPush]
      exact .of_push (by simp) (fun hp => ⟨_, hnum.trans (withPush_of (hroom.mpr hp))⟩)
        fun hp => hnum.trans (withPush_fault (mt hroom.mp hp))

/-- Each opcode by its equations (Laws/Completes.lean), in the order its pseudocode checks the bounds. -/
theorem exec_completesOrStops (i : Instr) (s : State) : CompletesOrStops i s := by
  cases i with
  | push lit => exact .of_push (.inl ⟨lit, rfl⟩) (fun hp => ⟨_, exec_push lit hp⟩) (exec_push_fault lit)
  | compile x =>
    by_cases hs : s.STATE = 0#16
    · exact .of_next (exec_compile_interpreting x hs)
    · exact .of_next (exec_compile_compiling x hs)
  | run x =>
    by_cases hr : s.CanRPush
    · exact .of_next (exec_run x hr)
    · exact .of_fault (exec_run_fault x hr) ⟨.inl ⟨x, rfl⟩, hr⟩
  | exit =>
    by_cases hr : s.CanRPop
    · exact .of_next (exec_exit hr)
    · exact .of_fault (exec_exit_fault hr) ⟨.inl rfl, hr⟩
  | sub => exact .of_pop rfl (fun hp => ⟨_, exec_sub hp⟩) exec_sub_fault
  | add => exact .of_pop rfl (fun hp => ⟨_, exec_add hp⟩) exec_add_fault
  | mul => exact .of_pop rfl (fun hp => ⟨_, exec_mul hp⟩) exec_mul_fault
  | div =>
    by_cases hf : s.f = 0#16
    · exact .of_pop rfl (fun hp => ⟨_, exec_div_zero hp hf⟩) exec_div_fault
    · exact .of_pop rfl (fun hp => ⟨_, exec_div hp hf⟩) exec_div_fault
  | uless => exact .of_pop rfl (fun hp => ⟨_, exec_uless hp⟩) exec_uless_fault
  | equal => exact .of_pop rfl (fun hp => ⟨_, exec_equal hp⟩) exec_equal_fault
  | load => exact .of_next exec_load
  | store =>
    by_cases hp : s.CanPop ∧ s.popped.CanPop
    · exact .of_next (exec_store hp.1 hp.2)
    · exact .of_fault (exec_store_fault hp) ⟨.inr (.inl rfl), .inr rfl⟩
  | swap =>
    by_cases hp : s.CanPop
    · exact .of_next (exec_swap hp)
    · exact .of_fault (exec_swap_fault hp) ⟨.inr (.inr rfl), .inl hp⟩
  | dup => exact .of_push (.inr (.inl rfl)) (fun hp => ⟨_, exec_dup hp⟩) exec_dup_fault
  | drop => exact .of_pop rfl (fun hp => ⟨_, exec_drop hp⟩) exec_drop_fault
  | tor =>
    by_cases hr : s.CanRPush
    · exact .of_pop rfl (fun hp => ⟨_, exec_tor hr hp⟩) (exec_tor_fault hr)
    · exact .of_fault (exec_tor_rfault hr) ⟨.inr rfl, hr⟩
  | fromr =>
    by_cases hr : s.CanRPop
    · exact .of_push (.inr (.inr (.inl rfl))) (fun hp => ⟨_, exec_fromr hr hp⟩) (exec_fromr_fault hr)
    · exact .of_fault (exec_fromr_rfault hr) ⟨.inr (.inl rfl), hr⟩
  | jmp off => exact .of_next (exec_jmp off)
  | jmpz off =>
    by_cases hf : s.f = 0#16
    · exact .of_pop rfl (fun hp => ⟨_, exec_jmpz_taken off hp hf⟩) (exec_jmpz_fault off)
    · exact .of_pop rfl (fun hp => ⟨_, exec_jmpz_through off hp hf⟩) (exec_jmpz_fault off)
  | pnum => exact .of_pop rfl (fun hp => ⟨_, exec_pnum hp⟩) exec_pnum_fault
  | emit => exact .of_pop rfl (fun hp => ⟨_, exec_emit hp⟩) exec_emit_fault
  | key => exact .of_push (.inr (.inr (.inr (.inl rfl)))) (fun hp => ⟨_, exec_key hp⟩) exec_key_fault
  | define =>
    rcases ht : readToken s.input with ⟨_ | tok, rest⟩
    · exact .of_next (exec_define_eof ht)
    · exact .of_next (exec_define ht)
  | immediate => exact .of_next exec_immediate
  | comment => exact .of_next exec_comment
  | comma => exact .of_pop rfl (fun hp => ⟨_, exec_comma hp⟩) exec_comma_fault
  | bsave => exact .of_pop rfl (fun hp => ⟨_, exec_bsave hp⟩) exec_bsave_fault
  | bload => exact .of_pop rfl (fun hp => ⟨_, exec_bload hp⟩) exec_bload_fault
  | read => exact execRead_completesOrStops s

theorem exec_fault_mayStop {i : Instr} {s : State} {r : Fault} (h : exec i s = .fault r) : MayStop i s r := by
  obtain ⟨t, e⟩ | ⟨r', e, hr⟩ := exec_completesOrStops i s
  · cases e.symm.trans h
  · cases e.symm.trans h; exact hr

theorem exec_ne_refused (i : Instr) (s : State) (r : Refusal) : exec i s ≠ .refused r := by
  intro h
  obtain ⟨t, e⟩ | ⟨r', e, -⟩ := exec_completesOrStops i s <;> cases e.symm.trans h

/-- Settles O50: every opcode completes or stops by a fault named for it, so none is refused. -/
theorem stuckOutcomesComeFromNamedOpcodes : Obligations.StuckOutcomesComeFromNamedOpcodes := fun i s =>
  ⟨exec_fault_mayStop, exec_fault_mayStop, exec_fault_mayStop, exec_fault_mayStop, exec_fault_mayStop,
    exec_ne_refused i s⟩

end Sys2Proof.Machine

/-! SUPPORT. The reset sequence builds the reset image cell by cell: the dictionary from cell 32 upward, the names from
the start of the string store (70_reset_and_hazards.md R150 to R152). Settles O53 and O54. -/

namespace Sys2Proof.Machine

/-! ### The image while it is built -/

/-- Cell `a` while the image is built: `DP` holds `dp`, the cells below `dp` and the names below offset `o` are those
of the reset image, and the others are 0. -/
def builtCell (dp o a : Nat) : Word :=
  if a = 0 then BitVec.ofNat 16 dp else if a < dp ∨ (16384 ≤ a ∧ a < 16384 + o) then resetCell a else 0#16

/-- Memory holds the image as far as `DP` = `dp` and the string offset `o`. -/
structure ImageBuilt (m : Memory) (dp o : Nat) : Prop where
  canonical : m.wf = true
  cells : ∀ a : Addr, cellRead m a = builtCell dp o a.toNat

/-- The reset image holds these cells from address `a` upward, all of them in the arena and none of them `DP`. -/
def imageHas : Nat → List Word → Bool
  | _, [] => true
  | a, v :: vs => decide (0 < a ∧ a < 32768 ∧ v = resetCell a) && imageHas (a + 1) vs

theorem imageHas_cons (a : Nat) (v : Word) (vs : List Word) :
    imageHas a (v :: vs) = true ↔ (0 < a ∧ a < 32768 ∧ v = resetCell a) ∧ imageHas (a + 1) vs = true := by
  simp [imageHas]

theorem addr_eq_ofNat_iff (c : Addr) {a : Nat} (ha : a < 32768) : c = BitVec.ofNat 15 a ↔ c.toNat = a := by
  rw [← BitVec.toNat_inj, BitVec.toNat_ofNat, Nat.mod_eq_of_lt ha]

theorem mask_ofNat (n : Nat) : mask (BitVec.ofNat 16 n) = BitVec.ofNat 15 n := by
  apply BitVec.eq_of_toNat_eq
  simp [mask_toNat]

section Built

variable {s : State} {dp o : Nat} (h : ImageBuilt s.mem dp o)
include h

theorem ImageBuilt.DP_eq : s.DP = BitVec.ofNat 16 dp := h.cells dpCell

/-- `Append` of the image's next cell builds the dictionary one cell further. -/
theorem ImageBuilt.append {v : Word} (hv : 0 < dp ∧ dp < 32768 ∧ v = resetCell dp) :
    ImageBuilt (s.append v).mem (dp + 1) o := by
  obtain ⟨hpos, hlt, rfl⟩ := hv
  refine ⟨State.append_wf h.canonical _, fun c => ?_⟩
  have hcell := State.append_cell h.canonical (resetCell dp) c
  rw [h.DP_eq, mask_ofNat] at hcell
  refine hcell.trans ?_
  simp only [State.cell, h.cells, builtCell, dpCell, addr_eq_ofNat_iff c hlt, addr_eq_ofNat_iff c (a := 0) (by omega)]
  by_cases h0 : c.toNat = 0
  · simp [h0, BitVec.ofNat_add]
  · by_cases hc : c.toNat = dp
    · simp [hc, show dp ≠ 0 by omega]
    · have hbelow : c.toNat < dp + 1 ↔ c.toNat < dp := by omega
      simp [h0, hc, hbelow]

theorem ImageBuilt.appends {vs : List Word} (hvs : imageHas dp vs = true) :
    ImageBuilt (vs.foldl State.append s).mem (dp + vs.length) o := by
  induction vs generalizing s dp with
  | nil => exact h
  | cons v vs ih =>
    obtain ⟨hv, hvs⟩ := (imageHas_cons ..).mp hvs
    rw [List.length_cons, Nat.add_comm vs.length, ← Nat.add_assoc]
    exact ih (h.append hv) hvs

/-- Writing the image's next character builds the names one cell further. -/
theorem ImageBuilt.setCell {v : Word} (hv : 0 < 16384 + o ∧ 16384 + o < 32768 ∧ v = resetCell (16384 + o)) :
    ImageBuilt (s.setCell (BitVec.ofNat 15 (16384 + o)) v).mem dp (o + 1) := by
  obtain ⟨hpos, hlt, rfl⟩ := hv
  refine ⟨State.setCell_wf h.canonical _ _, fun c => (State.setCell_cell h.canonical _ c _).trans ?_⟩
  simp only [State.cell, h.cells, builtCell, addr_eq_ofNat_iff c hlt]
  by_cases hc : c.toNat = 16384 + o
  · simp [hc]
  · have hbelow : 16384 ≤ c.toNat ∧ c.toNat < 16384 + (o + 1) ↔ 16384 ≤ c.toNat ∧ c.toNat < 16384 + o := by omega
    simp only [if_neg hc, hbelow]

/-- Storing the image's next name builds the names past it and its NUL. -/
theorem ImageBuilt.storeString {tok : List Byte} (htok : imageHas (16384 + o) (tok.map zextByte ++ [0#16]) = true) :
    ImageBuilt (storeString (BitVec.ofNat 15 (16384 + o)) tok s).mem dp (o + (tok.length + 1)) := by
  induction tok generalizing s o with
  | nil => exact h.setCell ((imageHas_cons ..).mp htok).1
  | cons c tok ih =>
    obtain ⟨hc, htok⟩ := (imageHas_cons ..).mp htok
    have hnext : (BitVec.ofNat 15 (16384 + o) + 1#15 : Addr) = BitVec.ofNat 15 (16384 + (o + 1)) :=
      (BitVec.ofNat_add ..).symm
    have hlen : o + ((c :: tok).length + 1) = o + 1 + (tok.length + 1) := by
      rw [List.length_cons, Nat.add_comm _ 1, ← Nat.add_assoc]
    rw [Machine.storeString, hnext, hlen]
    exact ih (h.setCell hc) htok

end Built

/-- The image built as far as its last entry and its last name is the reset image, and memory lists nothing. -/
theorem ImageBuilt.mem_eq_nil {m : Memory} (h : ImageBuilt m 144 127) : m = [] := by
  refine memory_ext_cells h.canonical memory_nil_wf fun a => (h.cells a).trans (Eq.trans ?_ (reset_cell a).symm)
  rw [builtCell]
  split
  · next h0 => rw [h0]; rfl
  · split
    · rfl
    · next hout =>
      by_cases hlow : a.toNat < 16416
      · exact (resetCell_free (by omega) hlow).symm
      · exact (resetCell_above_names (by omega)).symm

/-- Before the first entry and the first name only `DP` and `RSP` hold anything. -/
theorem builtCell_start {a : Nat} (h : 2 ≤ a) : builtCell 32 32 a = 0#16 := by
  rw [builtCell, if_neg (by omega)]
  split
  · next hin =>
    obtain hlow | ⟨hlo, hhi⟩ := hin
    · exact resetCell_low h hlow
    · exact resetCell_free (by omega) hhi
  · rfl

/-! ### Installing the primitives -/

/-- What the last loop of the reset sequence appends after an entry's header (70_reset_and_hazards.md R151). -/
def primitiveBody (p : Word × List Nat × Bool) : List Word := if p.2.2 then [p.1] else [1#16, p.1]

/-- A primitive's name as it is stored. -/
def primitiveName (p : Word × List Nat × Bool) : List Byte := p.2.1.map (BitVec.ofNat 8)

theorem installPrimitive_eq (s : State) (p : Word × List Nat × Bool) :
    installPrimitive s p = (primitiveBody p).foldl State.append (makeEntry (primitiveName p) s) := by
  rw [installPrimitive, primitiveBody]
  split <;> rfl

theorem appends_frame (vs : List Word) (s : State) :
    vs.foldl State.append s = { s with mem := (vs.foldl State.append s).mem } := by
  induction vs generalizing s with
  | nil => rfl
  | cons v vs ih => exact ih (s.append v)

/-- The image holds these primitives in order, the first entry at cell `dp` with its name at offset `o` and its link to
`latest`, and ends with the last of them. -/
def imageHasPrimitives : List (Word × List Nat × Bool) → Addr → Nat → Nat → Bool
  | [], latest, dp, o => decide (latest = 140#15 ∧ dp = 144 ∧ o = 127)
  | p :: ps, latest, dp, o =>
    imageHas (16384 + o) ((primitiveName p).map zextByte ++ [0#16]) &&
    imageHas dp [zext latest, BitVec.ofNat 16 o] && imageHas (dp + 2) (primitiveBody p) &&
    imageHasPrimitives ps (BitVec.ofNat 15 dp) (dp + 2 + (primitiveBody p).length) (o + ((primitiveName p).length + 1))

/-- State `s` of the reset sequence, begun from the registers of `s₀`: how far the dictionary and its image are. -/
structure Installing (s₀ s : State) (latest : Addr) (dp o : Nat) : Prop where
  frame : s = { s₀ with mem := s.mem, LATEST := latest, STRP := BitVec.ofNat 16 o }
  image : ImageBuilt s.mem dp o

section Install

variable {s₀ s : State} {latest : Addr} {dp o : Nat} (h : Installing s₀ s latest dp o)
include h

theorem Installing.LATEST_eq : s.LATEST = latest := by rw [h.frame]
theorem Installing.STRP_eq : s.STRP = BitVec.ofNat 16 o := by rw [h.frame]

theorem Installing.nameCell_STRP : nameCell s.STRP = BitVec.ofNat 15 (16384 + o) := by
  rw [nameCell, h.STRP_eq, Config.strOff, ← BitVec.ofNat_add, mask_ofNat]

theorem Installing.makeEntry {tok : List Byte} (htok : imageHas (16384 + o) (tok.map zextByte ++ [0#16]) = true)
    (hheader : imageHas dp [zext latest, BitVec.ofNat 16 o] = true) :
    Installing s₀ (makeEntry tok s) (BitVec.ofNat 15 dp) (dp + 2) (o + (tok.length + 1)) := by
  have hname : ImageBuilt (storeString (nameCell s.STRP) tok s).mem dp (o + (tok.length + 1)) :=
    h.nameCell_STRP ▸ h.image.storeString htok
  have hLATEST : (Machine.makeEntry tok s).LATEST = BitVec.ofNat 15 dp := by
    rw [makeEntry_LATEST, hname.DP_eq, mask_ofNat]
  have hSTRP : (Machine.makeEntry tok s).STRP = BitVec.ofNat 16 (o + (tok.length + 1)) := by
    rw [makeEntry_STRP, h.STRP_eq, ← BitVec.ofNat_add]
  refine ⟨?frame, ?image⟩
  case frame =>
    rw [← hLATEST, ← hSTRP]
    refine (makeEntry_frame tok s).trans ?_
    generalize Machine.makeEntry tok s = t
    rw [h.frame]
  case image =>
    rw [← h.LATEST_eq, ← h.STRP_eq] at hheader
    rw [makeEntry_mem]
    exact hname.appends hheader

theorem Installing.appends {vs : List Word} (hvs : imageHas dp vs = true) :
    Installing s₀ (vs.foldl State.append s) latest (dp + vs.length) o := by
  refine ⟨(appends_frame vs s).trans ?_, h.image.appends hvs⟩
  generalize vs.foldl State.append s = t
  rw [h.frame]

theorem Installing.setLATEST (a : Addr) : Installing s₀ { s with LATEST := a } a dp o := by
  refine ⟨?_, h.image⟩
  conv_lhs => rw [h.frame]

theorem Installing.primitives {ps : List (Word × List Nat × Bool)}
    (hps : imageHasPrimitives ps latest dp o = true) :
    Installing s₀ (ps.foldl installPrimitive s) 140#15 144 127 := by
  induction ps generalizing s latest dp o with
  | nil =>
    obtain ⟨rfl, rfl, rfl⟩ := of_decide_eq_true hps
    exact h
  | cons p ps ih =>
    simp only [imageHasPrimitives, Bool.and_eq_true] at hps
    obtain ⟨⟨⟨hname, hheader⟩, hbody⟩, hps⟩ := hps
    rw [List.foldl_cons, installPrimitive_eq]
    exact ih ((h.makeEntry hname hheader).appends hbody) hps

end Install

/-- The tables of the image are those of the primitives (70_reset_and_hazards.md R151, R152). -/
theorem imageHasPrimitives_primitives : imageHasPrimitives primitives 32#15 38 32 = true := by decide

/-! ### The reset sequence -/

/-- The engine with the arena `m` and the registers set, by the first statements of the reset sequence. -/
def clearedEngine (s : State) (m : Memory) : State :=
  { s with mem := m, I := 37#15, f := 0#16, S := 31744#15, NXT := none, INVALID := false }

/-- The start of an empty dictionary, by the statements that set `DP`, `RSP` and `STRP`. -/
def emptyDictionary (s : State) : State := { (s.setCell dpCell 32#16).setCell rspCell 32256#16 with STRP := 32#16 }

/-- The sentinel entry and the boot loop, by the statements before the last loop of the reset sequence. -/
def bootLoopInstalled (s : State) : State :=
  [28#16, 2#16, 34#16, 35#16].foldl State.append
    { [32#16, 0#16].foldl State.append (emptyDictionary s) with LATEST := 32#15 }

theorem resetSequence_eq (s : State) : resetSequence s =
    { primitives.foldl installPrimitive (bootLoopInstalled (clearedEngine s (zeroCells s.mem Config.coreCells))) with
      mode := .idle } := by
  unfold resetSequence
  generalize zeroCells s.mem Config.coreCells = m
  rfl

section Start

variable {s : State} (hs : s.mem.wf = true) (hzero : ∀ a, cellRead s.mem a = 0#16)
include hs hzero

/-- Of an arena of zeros with `DP` and `RSP` set, the image is built below the first entry and the first name. -/
theorem emptyDictionary_imageBuilt : ImageBuilt (emptyDictionary s).mem 32 32 := by
  have hmem : (emptyDictionary s).mem = cellWrite (cellWrite s.mem dpCell 32#16) rspCell 32256#16 := rfl
  have hwf := cellWrite_wf hs dpCell 32#16
  rw [hmem]
  refine ⟨cellWrite_wf hwf .., fun a => ?_⟩
  rw [cellRead_cellWrite hwf, cellRead_cellWrite hs, hzero]
  simp only [rspCell, dpCell, addr_eq_ofNat_iff a (a := 0) (by omega), addr_eq_ofNat_iff a (a := 1) (by omega)]
  by_cases h0 : a.toNat = 0
  · rw [h0]; rfl
  · by_cases h1 : a.toNat = 1
    · rw [h1]; rfl
    · rw [if_neg h1, if_neg h0, builtCell_start (by omega)]

theorem bootLoopInstalled_installing : Installing s (bootLoopInstalled s) 32#15 38 32 :=
  have hstart : Installing s (emptyDictionary s) s.LATEST 32 32 := ⟨rfl, emptyDictionary_imageBuilt hs hzero⟩
  ((hstart.appends (vs := [32#16, 0#16]) (by decide)).setLATEST 32#15).appends (by decide)

end Start

theorem cellRead_zeroCells_all {m : Memory} (h : m.wf = true) (a : Addr) :
    cellRead (zeroCells m Config.coreCells) a = 0#16 :=
  (cellRead_zeroCells h _ (Nat.le_refl _) a).trans (if_pos a.isLt)

/-- From an arena of zeros the rest of the sequence leaves the reset state. -/
theorem install_clearedEngine (s : State) {m : Memory} (hm : m.wf = true) (hzero : ∀ a, cellRead m a = 0#16) :
    { primitives.foldl installPrimitive (bootLoopInstalled (clearedEngine s m)) with mode := .idle } =
      { State.reset with
        input := s.input, output := s.output, errors := s.errors, store := s.store, writeAnswers := s.writeAnswers,
        calls := s.calls, replies := s.replies, draws := s.draws } := by
  have h := (bootLoopInstalled_installing (s := clearedEngine s m) hm hzero).primitives imageHasPrimitives_primitives
  rw [h.frame, h.image.mem_eq_nil]
  rfl

/-- Settles O53: the dictionary is built cell by cell as the image lists it, and the other fields are set or kept. -/
theorem resetSequenceLeavesResetState : Obligations.ResetSequenceLeavesResetState := fun s hs =>
  (resetSequence_eq s).trans (install_clearedEngine s (zeroCells_wf hs _) (cellRead_zeroCells_all hs))

/-- Settles O54: where both channels are present initialisation is the reset sequence. -/
theorem initialisationNeedsInputAndOutput : Obligations.InitialisationNeedsInputAndOutput := by
  refine fun st answers => ⟨fun output => rfl, fun input => by cases input <;> rfl, fun inp out => ?present⟩
  case present => exact congrArg some (resetSequenceLeavesResetState _ memory_nil_wf)

end Sys2Proof.Machine

/-! SUPPORT. The start of a run, the first steps of the boot loop, and the host's calls snapshot and restore
(70_reset_and_hazards.md R154 to R158). Settles O55, O56, O58, O59 and O60. -/

namespace Sys2Proof.Machine

/-! ### The start of a run (70_reset_and_hazards.md R154, R155) -/

theorem beginRun_of_valid {s : State} (h : s.INVALID = false) :
    beginRun s = { s with I := Config.bootEntry, NXT := none, mode := .running } := if_neg (by simp [h])

theorem serveHost_nil {s : State} (h : s.calls = []) : serveHost s = .next s := by
  rw [serveHost, h]

/-- Settles O55: a pending call of run is `beginRun`, on an invalidated engine and on a valid one. -/
theorem runStartsAtBootEntryOrIsRefused : Obligations.RunStartsAtBootEntryOrIsRefused := by
  intro s hi
  refine ⟨fun rest hc hv => ?refused, fun rest hc hv => ?started, fun hc => ?noCall⟩
  case refused =>
    rw [step_of_call hi hc]
    exact congrArg _ (beginRun_of_invalid (s := { s with calls := rest }) hv)
  case started =>
    rw [step_of_call hi hc]
    exact congrArg _ (beginRun_of_valid (s := { s with calls := rest }) hv)
  case noCall => rw [step_idle hi, serveHost_nil hc]

/-- A running step with the latch empty performs the opcode whose cell the token at `I` addresses (40_threading.md
R80). -/
theorem step_of_cells {s : State} {i : Instr} {tok op : Word} (hr : s.mode = .running) (hn : s.NXT = none)
    (htok : s.cell s.I = tok) (hop : s.cell (mask tok) = op)
    (hd : decode (mask tok + 1#15) op (s.cell (s.I + 1#15)) = .ok i) : step s = exec i (s.setI (s.I + 1#15)) := by
  subst htok hop
  exact step_of_decodeAt hr (fetchToken_none hn) hd

/-- A step that performs RUN pushes the address after the token and enters the body (40_threading.md R80, R85). -/
theorem step_run {s : State} {x : Addr} (hw : s.mem.wf = true) (hs : step s = exec (.run x) (s.setI (s.I + 1#15)))
    (hroom : s.CanRPush) : ∃ t, step s = .next t ∧ t.I = x ∧ t.mode = s.mode ∧ t.NXT = s.NXT ∧
      ∀ a, t.cell a =
        if a = mask (s.RSP + 1#16) then zext (s.I + 1#15) else if a = 1#15 then s.RSP + 1#16 else s.cell a :=
  ⟨_, hs.trans (exec_run x hroom), rfl, rfl, rfl, fun a => by
    rw [State.setI_cell, State.rpushed_cell (s := s.setI (s.I + 1#15)) hw, State.setI_cell]
    rfl⟩

/-- Settles O56: the token at 37 is the entry 35, whose RUN enters the body at 36 and writes only `RSP` and cell 32257;
the token at 36 is the entry 34, READ. -/
theorem bootLoopCallsReadWithOneReturnAddress : Obligations.BootLoopCallsReadWithOneReturnAddress := by
  intro s hw hr hn hI (hRSP : s.RSP = 32256#16) h34 h35 h36 h37
  have hrun : step s = exec (.run 36#15) (s.setI (s.I + 1#15)) :=
    step_of_cells (tok := 35#16) (op := 2#16) hr hn (hI ▸ h37) h35 rfl
  obtain ⟨t, ht, htI, htr, htn, hcell⟩ := step_run hw hrun (by rw [State.CanRPush, hRSP]; decide)
  rw [hRSP, hI] at hcell
  refine ⟨t, ht, htI, hcell 1#15, hcell 32257#15, ?read⟩
  have hread : step t = exec .read (t.setI (t.I + 1#15)) :=
    step_of_cells (tok := 34#16) (op := 28#16) (htr.trans hr) (htn.trans hn) (htI ▸ (hcell 36#15).trans h36)
      ((hcell 34#15).trans h34) rfl
  rw [hread, htI]
  rfl

/-! ### The words of an image (70_reset_and_hazards.md R157) -/

theorem imageWord_cons_succ (lo hi : Byte) (bs : List Byte) (k : Nat) :
    imageWord (lo :: hi :: bs) (k + 1) = imageWord bs k := rfl

/-- Of words laid out low byte first, word `k` is the `k`-th. -/
theorem imageWord_of_getElem? {ws : List Word} {k : Nat} {w : Word} (h : ws[k]? = some w) (tail : List Byte) :
    imageWord (ws.flatMap wordBytes ++ tail) k = w := by
  induction ws generalizing k with
  | nil => simp at h
  | cons v ws ih =>
    cases k with
    | zero =>
      obtain rfl : v = w := by simpa using h
      exact joinBytes_lo_hi v
    | succ k => exact (imageWord_cons_succ _ _ _ k).trans (ih (by simpa using h))

/-- The words past a header are those of what follows it. -/
theorem imageWord_length_add (ws : List Word) (tail : List Byte) (k : Nat) :
    imageWord (ws.flatMap wordBytes ++ tail) (ws.length + k) = imageWord tail k := by
  induction ws with
  | nil => simp
  | cons v ws ih =>
    rw [List.length_cons, Nat.add_right_comm]
    exact (imageWord_cons_succ _ _ _ _).trans ih

theorem imageWord_readBytes (m : Memory) (a : Addr) :
    imageWord (readBytes m 0 Config.arenaBytes) a.toNat = cellRead m a := by
  have hlt : 2 * a.toNat + 1 < Config.arenaBytes := byteAddr_lt a
  rw [imageWord, readBytes_getD m 0 (by omega), readBytes_getD m 0 hlt, Nat.zero_add, Nat.zero_add]
  rfl

theorem length_headerBytes (s : State) : ((headerWords s).flatMap wordBytes).length = 12 := rfl

/-- The arena's bytes follow the 12 bytes of the header. -/
theorem snapshot_drop_header (s : State) : (snapshot s).drop 12 = readBytes s.mem 0 Config.arenaBytes :=
  List.drop_left' (length_headerBytes s)

/-- Settles O58: the header words by their place in the header, the cells by the words past it. -/
theorem snapshotLayoutAsListed : Obligations.SnapshotLayoutAsListed := by
  intro s
  refine ⟨?length, imageWord_of_getElem? rfl _, imageWord_of_getElem? rfl _, imageWord_of_getElem? rfl _,
    imageWord_of_getElem? rfl _, imageWord_of_getElem? rfl _, imageWord_of_getElem? rfl _, fun a => ?cells⟩
  case length => rw [snapshot, List.length_append, length_headerBytes, readBytes_length, Config.arenaBytes]
  case cells => exact (imageWord_length_add (headerWords s) _ a.toNat).trans (imageWord_readBytes s.mem a)

/-! ### Restoring an image (70_reset_and_hazards.md R158) -/

theorem imageValid_iff (image : List Byte) : imageValid image = true ↔
    image.length = 65548 ∧ (imageWord image 0).toNat ≤ 32767 ∧ (imageWord image 3).toNat ≤ 32767 ∧
      31744 ≤ (imageWord image 2).toNat ∧ (imageWord image 2).toNat ≤ 32255 ∧ (imageWord image 5).toNat ≤ 1 := by
  simp only [imageValid, Bool.and_eq_true, beq_iff_eq, decide_eq_true_eq, and_assoc]

theorem restore_eq_none_iff (image : List Byte) (s : State) : restore image s = none ↔ ¬ imageValid image = true := by
  simp [restore]

theorem mask_setWidth (a : Addr) : mask (a.setWidth 16) = a := by
  apply BitVec.eq_of_toNat_eq
  simp [mask]

/-- The arena's bytes make the memory they were read from: both are canonical and read alike. -/
theorem memoryOfBytes_readBytes {m : Memory} (hm : m.wf = true) :
    memoryOfBytes 0 (readBytes m 0 Config.arenaBytes) = m := by
  have hlen : (readBytes m 0 Config.arenaBytes).length = 65536 := readBytes_length ..
  obtain ⟨-, -, hread⟩ := memoryOfBytes_spec (readBytes m 0 Config.arenaBytes) 0 (by omega)
  refine memory_ext (memoryOfBytes_wf _ hlen.le) hm fun b hb => ?_
  rw [hread, if_pos (by omega), readBytes_getD m 0 (by omega), Nat.sub_zero, Nat.zero_add]

/-- A snapshot of a state that meets the invariant passes every check of `restore`. -/
theorem imageValid_snapshot {s : State} (h : Inv s) : imageValid (snapshot s) = true := by
  obtain ⟨hlen, hI, -, hS, hLATEST, -, hINVALID, -⟩ := snapshotLayoutAsListed s
  rw [imageValid_iff, hI, hS, hLATEST, hINVALID]
  have hlow := h.stackLow
  have hhigh := h.stackHigh
  have hflag : (if s.INVALID then 1#16 else 0#16 : Word).toNat ≤ 1 := by split <;> decide
  simp only [BitVec.toNat_setWidth]
  omega

/-- Settles O59: each header word gives its register back, and the arena's bytes their memory. -/
theorem restoreInvertsSnapshot : Obligations.RestoreInvertsSnapshot := by
  intro s u h
  obtain ⟨-, hI, hf, hS, hLATEST, hSTRP, hINVALID, -⟩ := snapshotLayoutAsListed s
  have hflag : decide ((if s.INVALID then 1#16 else 0#16 : Word) = 1#16) = s.INVALID := by cases s.INVALID <;> rfl
  rw [restore, if_pos (imageValid_snapshot h), snapshot_drop_header, memoryOfBytes_readBytes h.memCanonical, hI, hf, hS,
    hLATEST, hSTRP, hINVALID, mask_setWidth, mask_setWidth, mask_setWidth, hflag]

/-- Settles O60: `restore` fails where one of its checks does, and the step that serves it only answers so. -/
theorem badImagesAreNotRestored : Obligations.BadImagesAreNotRestored := by
  refine fun image s => ⟨?checks, fun rest hi hc hn => ?served⟩
  case checks =>
    rw [restore_eq_none_iff, imageValid_iff]
    omega
  case served =>
    rw [step_of_call hi hc, serveCall, hn]
    rfl

end Sys2Proof.Machine
